-- ==== Sys2Proof/Word.lean ====
section
/-! DEFINITION. The word types: command words, bytes, bus addresses and 13-bit boundary values. -/

namespace Sys2Proof

/-- One byte: a device register's contents and a device register's address (R48), and a byte on the bus (R13). -/
abbrev Byte := BitVec 8

/-- A 16-bit operand field of a command word (R75, R77, R79). -/
abbrev Half := BitVec 16

/-- A command word of the host's command port, and the width of RESULT and STATUS (R70, R31, R32). -/
abbrev Word := BitVec 32

/-- A 7-bit bus address (R45, R46). -/
abbrev BusAddr := BitVec 7

/-- A 13-bit boundary value: bit 12 is the full-on or full-off flag, bits 11:0 the tick (R57, R150). The evaluator's calibration
amounts have the same width (R30). -/
abbrev Boundary := BitVec 13

end Sys2Proof
end

