-- ==== Sys2Proof/Config.lean ====
section
/-! DEFINITION. The open parameters of 00_scope.md R8 as plain data, and the free values: constants with no body. -/

namespace Sys2Proof

/-- The phase-balancer schemes (R26): codes 0, 1 and 2 in this order. Code 3 "is not a legal configuration"; the type has no
fourth value, so such a configuration cannot be given (R152, log 15). -/
inductive Scheme where
  | none
  | linear
  | weaved
  deriving DecidableEq, Repr, Inhabited

/-- `BUS_CLOCK_HZ`: one of 100 000, 400 000 and 1 000 000; it has no effect (R106, R261). -/
inductive BusClock where
  | khz100
  | khz400
  | khz1000
  deriving DecidableEq, Repr, Inhabited

/-- The positions of the MODE1 bits (R52): eight distinct positions. The defaults are the table's. -/
structure Mode1Bits where
  restart : Fin 8 := 7
  extclk : Fin 8 := 6
  ai : Fin 8 := 5
  sleep : Fin 8 := 4
  sub1 : Fin 8 := 3
  sub2 : Fin 8 := 2
  sub3 : Fin 8 := 1
  allcall : Fin 8 := 0
  distinct : [restart, extclk, ai, sleep, sub1, sub2, sub3, allcall].Nodup := by decide
  deriving DecidableEq, Repr, Inhabited

/-- The positions of the MODE2 bits (R53). The PBE never interprets MODE2; only the assembler's default mode byte reads
`outdrv` (R93). -/
structure Mode2Bits where
  invrt : Fin 8 := 4
  och : Fin 8 := 3
  outdrv : Fin 8 := 2
  outne1 : Fin 8 := 1
  outne0 : Fin 8 := 0
  distinct : [invrt, och, outdrv, outne1, outne0].Nodup := by decide
  deriving DecidableEq, Repr, Inhabited

/-- The open parameters of R8, with the constraints R8 and 93_implementation_defined.md (I14 to I21) give them. A field's default
value is used only by tests that name no other; no claim takes it for the hardware's (log 1). -/
structure Config where
  /-- `BASE_ADDR` (R8, R120). -/
  baseAddr : BusAddr := 0x40
  /-- `WEAVED[c]` for c in 0..15, each a 12-bit tick (R155). -/
  weaved : Vector (BitVec 12) 16 := Vector.replicate 16 0
  /-- `TX_BUFFER_BYTES` (R179). -/
  txBufferBytes : Nat := 32
  /-- R8: "at least 5". -/
  txBufferOk : 5 ≤ txBufferBytes := by decide
  /-- `SWAPPED_REGS` (R57). -/
  swappedRegs : Bool := false
  /-- `PB_STRAP` (R26). -/
  pbStrap : Scheme := .none
  /-- `BUS_CLOCK_HZ` (R106). -/
  busClock : BusClock := .khz100
  mode1 : Mode1Bits := {}
  mode2 : Mode2Bits := {}
  deriving DecidableEq, Repr, Inhabited

/-- The configuration of the machine that State.reset describes: some configuration, nothing more is known (log 1). -/
opaque Config.board : Config

/-- FREE VALUE: the n-th answer of the unconstrained oracle to a bus primitive, as a raw byte, or no answer ever (R58, R226;
log 2). -/
opaque Config.busAnswer : Nat → Option Byte

/-- FREE VALUE: the n-th draw for a byte: one that a short read did not deliver (R100, R255; log 13), or one that a transmission cut by
reset leaves in the peer (R243; log 11). -/
opaque Config.freeByte : Nat → Byte

/-- FREE VALUE: the n-th draw for RESULT: at reset, and after a misuse that leaves it open (R31, R218, R220, R223; logs 4, 5, 7). -/
opaque Config.freeWord : Nat → Word

/-- FREE VALUE: what a host's read gives while BUSY = 1, by the count of draws, the number of entries in the history and CP
(R253; log 20). -/
opaque Config.freeRead : Nat → Nat → Nat → Word

/-- FREE VALUE: what the reference responder's register at an address held before the PBE first wrote it (R59: "Its `R` starts
unknown"; log 14). -/
opaque Config.unknownReg : Nat → Byte

end Sys2Proof
end

