-- ==== Sys2Proof/Machine/Operands.lean ====
section
/-! DEFINITION. Operand assembly (R80), rounding (R11), the register map (R50 to R53) and the byte order of register pairs (R57,
R187). -/

namespace Sys2Proof.Machine

/-! ## Clamps (R10, R80) -/

/-- `clamp(v, lo, hi) = min(hi, max(lo, v))` (R10). -/
def clampInt (v lo hi : Int) : Int := min hi (max lo v)

/-- A channel operand: `clamp(zext(a), 0, 15)` (R80). -/
def channelOf (a : Byte) : Fin 16 := ⟨min a.toNat 15, by omega⟩

/-- An amount or calibration operand: `clamp(zext(b), 0, 4096)` (R80). -/
def amountOf (b : Half) : Nat := min b.toNat 4096

/-- INIT's address offset: `clamp(zext(a), 0, 61)` (R80). -/
def offsetOf (a : Byte) : BusAddr := BitVec.ofNat 7 (min a.toNat 61)

/-- SETFREQ's frequency: `clamp(zext(b), 24, 1526)` (R80). -/
def hzOf (b : Half) : Nat := min (max b.toNat 24) 1526

/-- ANGPWM's angle in whole degrees: `clamp(sext_16(b), -90, 90)` (R80). -/
def angleOf (b : Half) : Int := clampInt b.toInt (-90) 90

/-! ## Rounding (R11) -/

/-- `round(num / den)` for `den > 0`: half away from zero, on the exact quotient (R11). -/
def roundDiv (num : Int) (den : Nat) : Int :=
  if 0 ≤ num then (2 * num + den) / (2 * den) else -((2 * (-num) + den) / (2 * den))

/-! ## The device register map (R50, R51) -/

def regMode1 : Byte := 0x00
def regMode2 : Byte := 0x01
def regSubadr1 : Byte := 0x02
def regSubadr2 : Byte := 0x03
def regSubadr3 : Byte := 0x04
def regAllcalladr : Byte := 0x05
def regPreScale : Byte := 0xFE

/-- `LEDBASE(c) = 0x06 + 4*c` (R51). -/
def ledBase (c : Fin 16) : Byte := BitVec.ofNat 8 (0x06 + 4 * c.val)

/-- `ALLBASE` (R51). -/
def allBase : Byte := 0xFA

/-- `SWRST_ADDR` (R7, R46): the general-call address. -/
def swrstAddr : BusAddr := 0x00

/-- `SWRST_BYTE` (R7). -/
def swrstByte : Byte := 0x06

/-! ## MODE1 and MODE2 masks (R52, R53, R93) -/

/-- The byte with the one bit at a position set. -/
def bitMask (p : Fin 8) : Byte := BitVec.twoPow 8 p.val

def restartMask (cfg : Config) : Byte := bitMask cfg.mode1.restart
def extclkMask (cfg : Config) : Byte := bitMask cfg.mode1.extclk
def aiMask (cfg : Config) : Byte := bitMask cfg.mode1.ai
def sleepMask (cfg : Config) : Byte := bitMask cfg.mode1.sleep
def sub1Mask (cfg : Config) : Byte := bitMask cfg.mode1.sub1
def sub2Mask (cfg : Config) : Byte := bitMask cfg.mode1.sub2
def sub3Mask (cfg : Config) : Byte := bitMask cfg.mode1.sub3
def allcallMask (cfg : Config) : Byte := bitMask cfg.mode1.allcall

/-- The assembler's default mode byte for INIT: `M2_OUTDRV` set, all other bits 0 (R93). -/
def defaultModeByte (cfg : Config) : Byte := bitMask cfg.mode2.outdrv

/-! ## Register pairs (R57, R187) -/

/-- `LO(v) = v[7:0]` (R57). -/
def loByte (v : Boundary) : Byte := v.extractLsb' 0 8

/-- `HI(v) = 0b000 ++ v[12:8]` (R57). -/
def hiByte (v : Boundary) : Byte := (0 : BitVec 3) ++ v.extractLsb' 8 5

/-- The two bytes of a pair, the lower register address first (R57). -/
def pairBytes (swapped : Bool) (v : Boundary) : List Byte :=
  if swapped then [hiByte v, loByte v] else [loByte v, hiByte v]

/-- A pair rebuilt from the bytes at its lower and its higher register address; bits 7:5 of the high byte are ignored (R187). -/
def pairValue (swapped : Bool) (atLower atHigher : Byte) : Boundary :=
  if swapped then atLower.extractLsb' 0 5 ++ atHigher else atHigher.extractLsb' 0 5 ++ atLower

/-- A window: the ON and OFF boundary values of one 4-register block (R156, R166). -/
structure Window where
  on : Boundary
  off : Boundary
  deriving DecidableEq, Repr

/-- The four data bytes of a block: `pair_bytes(on13) ++ pair_bytes(off13)` (R166). -/
def windowBytes (swapped : Bool) (w : Window) : List Byte := pairBytes swapped w.on ++ pairBytes swapped w.off

end Sys2Proof.Machine
end

