-- ==== Sys2Proof/Syntax.lean ====
section
/-! DEFINITION. The commands: one constructor per row of spec/opcode_table.json (R81). -/

namespace Sys2Proof

/-- A command with its operand fields AS SENT (R73 to R79). The clamps of R80 are part of a command's meaning, not of its
syntax. -/
inductive Instr where
  /-- WRREG reg, v8 (R102). -/
  | wrreg (reg v8 : Byte)
  /-- RDREG reg (R104). -/
  | rdreg (reg : Byte)
  /-- SWRST (R116). -/
  | swrst
  /-- INIT off, mode (R120). -/
  | init (off mode : Byte)
  /-- INITPX a7 (R122). -/
  | initpx (a7 : BusAddr)
  /-- SETFREQ hz (R126). -/
  | setfreq (hz : Half)
  /-- ENALLC ab (R129). -/
  | enallc (ab : Byte)
  /-- ENSUB1 ab (R130). -/
  | ensub1 (ab : Byte)
  /-- ENSUB2 ab (R131). -/
  | ensub2 (ab : Byte)
  /-- ENSUB3 ab (R132). -/
  | ensub3 (ab : Byte)
  /-- DISALLC (R133). -/
  | disallc
  /-- DISSUB1 (R134). -/
  | dissub1
  /-- DISSUB2 (R135). -/
  | dissub2
  /-- DISSUB3 (R136). -/
  | dissub3
  /-- ENEXTCLK (R138). -/
  | enextclk
  /-- GETADDR (R140). -/
  | getaddr
  /-- GETPB (R141). -/
  | getpb
  /-- GETERR (R142). -/
  | geterr
  /-- PHASEWIN ch, amt (R160). -/
  | phasewin (ch : Byte) (amt : Half)
  /-- CHON ch (R172). -/
  | chon (ch : Byte)
  /-- CHOFF ch (R170). -/
  | choff (ch : Byte)
  /-- CHPWM ch, amt (R174). -/
  | chpwm (ch : Byte) (amt : Half)
  /-- CHSPWM first, [amounts] (R180); the count n as sent is the list's length (R78, R87). -/
  | chspwm (first : Byte) (amts : List Half)
  /-- ALLPWM amt (R182). -/
  | allpwm (amt : Half)
  /-- GETCHPWM ch (R186). -/
  | getchpwm (ch : Byte)
  /-- EVCFG2 n90, p90 (R197). -/
  | evcfg2 (n90 p90 : Half)
  /-- EVCFG3 n90, zero, p90 (R198). -/
  | evcfg3 (n90 zero p90 : Half)
  /-- ANGPWM x, x read as signed (R204). -/
  | angpwm (x : Half)
  deriving DecidableEq, Repr

end Sys2Proof
end

