-- ==== Sys2Proof/Machine/State.lean ====
section
/-! DEFINITION. The machine's state: the PBE fields of 10_state.md, the inputs from the host and the bus environment, and the
state after reset. -/

namespace Sys2Proof.Machine

/-- The five bus primitives of R13, as the PBE issues them. -/
inductive BusPrim where
  | txBegin (a : BusAddr)
  | txWrite (b : Byte)
  | txEnd
  | rxRequest (a : BusAddr) (n : Nat)
  | rxRead
  deriving DecidableEq, Repr

/-- What the sequencer does on the bus: a primitive, or a wait (R13, R16). -/
inductive Action where
  | prim (p : BusPrim)
  | wait (us : Nat)
  deriving DecidableEq, Repr

/-- What the PBE is in the middle of (R226, R243). -/
structure Held where
  /-- The primitive or wait in progress. -/
  action : Action
  /-- The write transmission it is part of, if any: its bus address and all of its bytes, sent or not (R97). -/
  burst : Option (BusAddr × List Byte)
  deriving DecidableEq, Repr

/-- The reset input (R240, R262: the host "may reset at any time"; log 11). -/
inductive ResetInput where
  | off
  /-- Asserted now: the next step samples it. -/
  | now
  /-- To be asserted inside a command: while the bus action that `k` others from here precede is in progress. -/
  | inAction (k : Nat)
  deriving DecidableEq, Repr

/-- One entry of the run's history: a completed primitive with its answer (R13, R58), or a wait (R16). -/
inductive BusEvent where
  | txBegin (a : BusAddr)
  /-- The count that `write` returned, 0 or 1 (R58); the PBE ignores it (R99). -/
  | txWrite (b : Byte) (count : Nat)
  | txEnd (status : Byte)
  /-- How many of the `n` bytes were received (R58); the PBE reads on whatever it is (R100). -/
  | rxRequest (a : BusAddr) (n avail : Nat)
  | rxRead (b : Byte)
  | wait (us : Nat)
  deriving DecidableEq, Repr

/-- `BUSSTATE` (R34, R96). -/
inductive BusState where
  | idle
  /-- A write transmission open to `a` with `k` bytes queued. -/
  | tx (a : BusAddr) (k : Nat)
  /-- A read from `a` of which `r` bytes remain to be taken. -/
  | rx (a : BusAddr) (r : Nat)
  deriving DecidableEq, Repr

/-- `EVMODE` (R30): codes 0, 1 and 2 in this order. "Code 3 is never written". -/
inductive EvMode where
  | unconfigured
  | linear
  | cubic
  deriving DecidableEq, Repr

/-- The misuse reasons of R216, in the order of their codes 1 to 5. -/
inductive MisuseReason where
  | illegalCommand
  | unbound
  | proxyRead
  | resetOrder
  | unconfigured
  deriving DecidableEq, Repr

/-- A byte memory: the cells that hold a known byte, addresses strictly rising. An address not listed holds no known byte, so no
cell can repeat what an unlisted address reads as. -/
abbrev Memory := List Host.Cell

/-- The canonical form of the peer's register file: addresses strictly rising, and all of them 8-bit (R48). -/
abbrev Memory.wf (m : Memory) : Prop :=
  m.Pairwise (fun x y => x.1 < y.1) ∧ ∀ c ∈ m, c.1 < 256

/-- The reference responder's state (R59). -/
structure Responder where
  /-- `RA`, the one peer's bus address. -/
  ra : BusAddr
  /-- `R[0..255]`, the registers known so far; "Its `R` starts unknown" (log 14). -/
  regs : Memory
  /-- The pointer `P`. -/
  ptr : Byte
  /-- The address TxBegin recorded. -/
  txAddr : BusAddr
  /-- The byte list TxBegin started and TxWrite appends to. -/
  txBytes : List Byte
  deriving DecidableEq, Repr

/-- The bus environment (log 2). -/
inductive BusEnv where
  /-- The unconstrained oracle (R58): the answers laid down so far, oldest first (`none`: that primitive is never answered, R226),
  and after them free values. -/
  | oracle (script : List (Option Byte))
  /-- The reference responder (R59). -/
  | responder (r : Responder)
  deriving DecidableEq, Repr

/-- The state. One command is one step, so between steps a command is finished, in the middle of a bus action that no answer or a reset
stopped, or still waiting for words (log 8). -/
structure State where
  /-- The open parameters (R8), fixed from reset; no command writes them (log 1). -/
  cfg : Config
  /-- The host command stream: the words the host has sent, in order (R45, R70; log 10). -/
  stream : List Word
  /-- The reset input (R240, R262; log 11). -/
  resetIn : ResetInput
  /-- The bus environment (R58, R59; log 2). -/
  env : BusEnv
  /-- How many free values have been used: the model's own counter (log 5). -/
  draws : Nat
  /-- `CP`, the index of the next word to take (R22). -/
  cp : Nat
  /-- The words of an unfinished command that the PBE has taken (R70, R254; log 9). -/
  taken : List Word
  /-- `ADDR` (R23). -/
  addr : BusAddr
  /-- `BOUND` (R24). -/
  bound : Bool
  /-- `PROXY` (R25). -/
  proxy : Bool
  /-- `PB` (R26). -/
  pb : Scheme
  /-- `LASTERR` (R27). -/
  lastErr : Byte
  /-- `MISUSE` (R28). -/
  misuse : Bool
  /-- The first misuse reason recorded since reset (R15, R216, R222; log 16). -/
  misuseReason : Option MisuseReason
  /-- `SRST_DONE` (R29). -/
  srstDone : Bool
  /-- `EVMODE` (R30). -/
  evMode : EvMode
  /-- `EV_N90` (R30). -/
  evN90 : Boundary
  /-- `EV_ZERO` (R30). -/
  evZero : Boundary
  /-- `EV_P90` (R30). -/
  evP90 : Boundary
  /-- `RESULT` (R31). -/
  result : Word
  /-- `BUSY` (R33). -/
  busy : Bool
  /-- `BUSSTATE` (R34). -/
  bus : BusState
  /-- The bus action the PBE is in the middle of: the environment left it unanswered (R226; log 3), or reset came in it (R243;
  log 11). -/
  stall : Option Held
  /-- The history of bus primitives, answers and waits, oldest first (R16, R247; log 12). -/
  trace : List BusEvent
  deriving DecidableEq, Repr

/-- No step of this machine ends in a fault: "The PBE has no trap, exception vector or exception handler" (R215). A Misuse is a
next state with MISUSE = 1 (R223; log 6), and a bus that never answers is a next state that steps to itself (R226; log 3). So the
type has no constructor, and nothing raises one; that is safe, since no behaviour is left out. -/
inductive Fault where
  deriving DecidableEq, Repr

/-- Why a step has no meaning. -/
inductive Refusal where
  /-- Raised by exec's arm for a command that has no meaning yet, by its mnemonic. Safe: nothing is claimed about it. No arm
  raises it now. -/
  | notModelled (mnemonic : String)
  deriving DecidableEq, Repr

/-- The state right after reset under a configuration (R38, R240, R241): the environment is the unconstrained oracle (R58), the
stream is empty, and RESULT is a draw (R31; log 4). -/
def State.resetWith (cfg : Config) : State where
  cfg := cfg
  stream := []
  resetIn := .off
  env := .oracle []
  draws := 1
  cp := 0
  taken := []
  addr := 0
  bound := false
  proxy := false
  pb := cfg.pbStrap
  lastErr := 0
  misuse := false
  misuseReason := none
  srstDone := false
  evMode := .unconfigured
  evN90 := 0
  evZero := 0
  evP90 := 0
  result := Config.freeWord 0
  busy := false
  bus := .idle
  stall := none
  trace := []

/-- The machine right after reset, under a configuration of which nothing is known (R8; log 1). -/
def State.reset : State := State.resetWith Config.board

end Sys2Proof.Machine
end

