-- ==== Sys2Proof/Machine/Flags.lean ====
section
/-! DEFINITION. The flags: the full-on and full-off flags of a boundary value, the codes of the mode fields, STATUS (R32) and the
host's reads (R253). The PBE "has no arithmetic condition codes" (R37). -/

namespace Sys2Proof.Machine

/-- Bit 12 of a boundary value: always-on in ON, always-off in OFF (R57, R167). -/
def fullFlag (v : Boundary) : Bool := v.getLsbD 12

/-- Bits 11:0 of a boundary value: the tick (R57, R150). -/
def tickOf (v : Boundary) : BitVec 12 := v.extractLsb' 0 12

/-- `FULL_ON = (0x1000, 0x0000)` (R167). -/
def fullOn : Window := ⟨0x1000, 0x0000⟩

/-- `FULL_OFF = (0x0000, 0x1000)` (R167; C7: full off sets the flag of the OFF value). -/
def fullOff : Window := ⟨0x0000, 0x1000⟩

/-- `PB`'s code (R26). -/
def schemeCode : Scheme → BitVec 2
  | .none => 0
  | .linear => 1
  | .weaved => 2

/-- `EVMODE`'s code (R30). -/
def evModeCode : EvMode → BitVec 2
  | .unconfigured => 0
  | .linear => 1
  | .cubic => 2

/-- A misuse reason's code (R216); the host never sees it. -/
def misuseCode : MisuseReason → Nat
  | .illegalCommand => 1
  | .unbound => 2
  | .proxyRead => 3
  | .resetOrder => 4
  | .unconfigured => 5

/-- `STATUS` (R32): a view of the other fields. -/
def State.status (s : State) : Word :=
  ((0 : Byte) ++ (BitVec.ofBool s.busy ++ s.addr : Byte) : Half) ++
    ((evModeCode s.evMode ++ (schemeCode s.pb ++ (BitVec.ofBool s.srstDone ++ (BitVec.ofBool s.proxy ++
      (BitVec.ofBool s.bound ++ BitVec.ofBool s.misuse)))) : Byte) ++ s.lastErr : Half)

/-- A draw for a word the host reads while BUSY = 1 (R253); no value of RESULT is one of these. The read uses the draw up for the state
it leaves. DESIGN CHOICE: a read inside a command (`State.Inside`) leaves a state beside the run, which goes on from the step, so reads
in the same bus action of the same command (the time before its first action counts with that action), and one where the run then
stops in that action, give the same word; in two commands CP differs, and so do the draws (log 20). -/
def State.drawRead (s : State) : Word × State := (Config.freeRead s.draws s.trace.length s.cp, { s with draws := s.draws + 1 })

/-- The host reads RESULT, at any time: its value when BUSY = 0, a draw while BUSY = 1 (R253; log 20). -/
def State.hostReadsResult (s : State) : Word × State := if s.busy then s.drawRead else (s.result, s)

/-- The host reads STATUS, at any time (R32, R262): the view when BUSY = 0; while BUSY = 1 the BUSY bit is exact, the reserved byte
reads 0, and the other fields, which "are settled only when BUSY = 0", are a draw (R253; log 20). -/
def State.hostReadsStatus (s : State) : Word × State :=
  if s.busy then (0x00800000 ||| (s.drawRead.1 &&& 0x007FFFFF), s.drawRead.2) else (s.status, s)

end Sys2Proof.Machine
end

