-- ==== Sys2Proof/Machine/Ops.lean ====
section
/-! DEFINITION. The shared operations: the peer's byte memory, the bus environment's answers, the bus primitives and register
accesses (R13, R14, R96 to R103), Misuse (R15, R223), a command's end and reset (R240). -/

namespace Sys2Proof.Machine

open Host (Outcome)

/-! ## Byte memory -/

/-- The known byte at an address, if there is one. -/
def Memory.read : Memory → Nat → Option Byte
  | [], _ => none
  | (k, v) :: m, a => if k = a then some v else Memory.read m a

/-- The memory with a byte stored, in canonical form. -/
def Memory.write : Memory → Nat → Byte → Memory
  | [], a, b => [(a, b)]
  | (k, v) :: m, a, b =>
    if a < k then (a, b) :: (k, v) :: m
    else if a = k then (a, b) :: m
    else (k, v) :: Memory.write m a b

/-- Consecutive registers stored from a register address on, addresses mod 256 (R59: `R[(r + i) mod 256] <- b_i`). -/
def storeRun : Memory → Byte → List Byte → Memory
  | m, _, [] => m
  | m, r, b :: bs => storeRun (Memory.write m r.toNat b) (r + 1) bs

/-! ## The reference responder (R59) -/

/-- A register of the responder: its known byte, or what it held from the start (log 14). -/
def Responder.reg (r : Responder) (a : Byte) : Byte := (Memory.read r.regs a.toNat).getD (Config.unknownReg a.toNat)

/-- The responder's answer to a primitive as a raw byte (R59; log 2). -/
def Responder.reply (r : Responder) : BusPrim → Byte
  | .txBegin _ => 0
  | .txWrite _ => 1
  | .txEnd => 0
  | .rxRequest a n => if a = r.ra then BitVec.ofNat 8 n else 0
  | .rxRead => r.reg r.ptr

/-- What TxEnd does to the responder: nothing unless it is addressed and the byte list is not empty (R59). -/
def Responder.endTx (r : Responder) : Responder :=
  if r.txAddr = r.ra then
    match r.txBytes with
    | [] => r
    | reg :: bytes => { r with regs := storeRun r.regs reg bytes, ptr := reg + BitVec.ofNat 8 bytes.length }
  else r

/-- The responder's state after a primitive (R59). -/
def Responder.after (r : Responder) : BusPrim → Responder
  | .txBegin a => { r with txAddr := a, txBytes := [] }
  | .txWrite b => { r with txBytes := r.txBytes ++ [b] }
  | .txEnd => r.endTx
  | .rxRequest _ _ => r
  | .rxRead => { r with ptr := r.ptr + 1 }

/-! ## Bus primitives (R13, R58, R96) -/

/-- A sequence of bus primitives either runs to its end with a value, or is held in a primitive the environment never answers
(R226). -/
inductive Bus (α : Type) where
  | done (value : α) (s : State)
  | hung (s : State)

/-- Go on after a sequence that ran to its end; a held sequencer does not go on (R226: "must not let the PBE step past an
unanswered primitive"). -/
def Bus.andThen {α β : Type} (x : Bus α) (k : α → State → Bus β) : Bus β :=
  match x with
  | .done v s => k v s
  | .hung s => .hung s

/-- The PBE in the middle of a bus action: BUSY = 1, nothing else recorded (R226; log 3). `inBurst` adds the transmission. -/
def State.heldIn (s : State) (a : Action) : State := { s with busy := true, stall := some ⟨a, none⟩ }

/-- The reset input once one more bus action has started without it; `none`: reset comes in this very action (R262; log 11). -/
def ResetInput.countdown : ResetInput → Option ResetInput
  | .inAction 0 => none
  | .inAction (k + 1) => some (.inAction k)
  | .off => some .off
  | .now => some .now

/-- Start a bus action: it goes on with `rest`, or reset comes in the middle of it and the next step samples it (R240, R262; log 11). -/
def startAction {α : Type} (a : Action) (s : State) (rest : State → Bus α) : Bus α :=
  match s.resetIn.countdown with
  | some r => rest { s with resetIn := r }
  | none => .hung ({ s with resetIn := .now }.heldIn a)

/-- An answer of the environment ends the primitive; no answer holds the PBE in it. -/
def settleAnswer (p : BusPrim) (answer : Option Byte) (s : State) : Bus Byte :=
  match answer with
  | some b => .done b s
  | none => .hung (s.heldIn (.prim p))

/-- Ask the bus environment for its answer to a primitive (R58, R59; log 2). -/
def ask (p : BusPrim) (s : State) : Bus Byte :=
  match s.env with
  | .oracle [] => settleAnswer p (Config.busAnswer s.draws) { s with draws := s.draws + 1 }
  | .oracle (answer :: later) => settleAnswer p answer { s with env := .oracle later }
  | .responder r => .done (r.reply p) { s with env := .responder (r.after p) }

/-- Issue a primitive: the environment answers it, or never does, or reset comes in the middle of it. -/
def issue (p : BusPrim) (s : State) : Bus Byte := startAction (.prim p) s (ask p)

/-- Add an entry to the history. -/
def State.log (s : State) (e : BusEvent) : State := { s with trace := s.trace ++ [e] }

/-- `TX(a, k) --TxWrite--> TX(a, k+1)` (R96; log 17). -/
def BusState.queued : BusState → BusState
  | .tx a k => .tx a (k + 1)
  | other => other

/-- `RX(a, r) --RxRead--> RX(a, r-1)` (R96; log 17). -/
def BusState.taken : BusState → BusState
  | .rx a (r + 1) => .rx a r
  | other => other

/-- `TxBegin(a7)` (R13, R96). -/
def txBegin (a : BusAddr) (s : State) : Bus Unit :=
  (issue (.txBegin a) s).andThen fun _ s => .done () ({ s with bus := .tx a 0 }.log (.txBegin a))

/-- `TxWrite(b8)` (R13, R96): its count is 0 or 1 (R58), recorded in the history and otherwise ignored (R99). -/
def txWrite (b : Byte) (s : State) : Bus Unit :=
  (issue (.txWrite b) s).andThen fun c s => .done () ({ s with bus := s.bus.queued }.log (.txWrite b (c.toNat % 2)))

/-- `TxEnd() -> st8` (R13, R96): every status goes to LASTERR (R98). -/
def txEnd (s : State) : Bus Unit :=
  (issue .txEnd s).andThen fun st s => .done () ({ s with bus := .idle, lastErr := st }.log (.txEnd st))

/-- `RxRequest(a7, n) -> avail` (R13, R96), an answer in [0, n] (R58). -/
def rxRequest (a : BusAddr) (n : Nat) (s : State) : Bus Nat :=
  (issue (.rxRequest a n) s).andThen fun c s =>
    .done (min c.toNat n) ({ s with bus := .rx a n }.log (.rxRequest a n (min c.toNat n)))

/-- `RxRead() -> b8` (R13, R96). A byte that the request did not deliver is a draw (R100; log 13). -/
def rxRead (missing : Bool) (s : State) : Bus Byte :=
  (issue .rxRead s).andThen fun b s =>
    if missing then
      .done (Config.freeByte s.draws)
        ({ s with bus := s.bus.taken, draws := s.draws + 1 }.log (.rxRead (Config.freeByte s.draws)))
    else .done b ({ s with bus := s.bus.taken }.log (.rxRead b))

/-- `RX(a, 0) --(no primitive)--> IDLE` (R96). -/
def rxDone (s : State) : State := { s with bus := .idle }

/-- `Wait(us)`: a recorded event with no other effect (R16, R250; log 21). -/
def waitUs (us : Nat) (s : State) : Bus Unit := startAction (.wait us) s fun s => .done () (s.log (.wait us))

/-! ## Transmissions and register accesses (R14, R101, R103) -/

/-- One TxWrite per byte, in order. -/
def txWrites : List Byte → State → Bus Unit
  | [], s => .done () s
  | b :: bs, s => (txWrite b s).andThen fun _ s => txWrites bs s

/-- A sequence stopped inside a transmission knows the transmission: a reset then knows what the cut burst could reach (R243). -/
def Bus.inBurst {α : Type} (a : BusAddr) (bytes : List Byte) (x : Bus α) : Bus α :=
  match x with
  | .done v s => .done v s
  | .hung s => .hung { s with stall := s.stall.map fun h => { h with burst := some (a, bytes) } }

/-- One transmission: TxBegin, the bytes, TxEnd (R62, R97). -/
def transmit (a : BusAddr) (bytes : List Byte) (s : State) : Bus Unit :=
  ((txBegin a s).andThen fun _ s => (txWrites bytes s).andThen fun _ s => txEnd s).inBurst a bytes

/-- `MemWrite(reg, n, bytes)` (R14). -/
def memWrite (reg : Byte) (bytes : List Byte) (s : State) : Bus Unit := transmit s.addr (reg :: bytes) s

/-- `WriteReg(reg, v)` (R101). -/
def writeReg (reg v : Byte) (s : State) : Bus Unit := memWrite reg [v] s

/-- `ReadReg(reg) -> v8` (R103): the request is issued whatever the address phase's status (R98), and one byte is read whatever the
request's count (R100). -/
def readReg (reg : Byte) (s : State) : Bus Byte :=
  (transmit s.addr [reg] s).andThen fun _ s =>
    (rxRequest s.addr 1 s).andThen fun avail s =>
      (rxRead (decide (avail < 1)) s).andThen fun v s => .done v (rxDone s)

/-- `WriteWindow(base, on13, off13)` (R166): the four registers of a block in one transmission. -/
def writeWindow (base : Byte) (w : Window) (s : State) : Bus Unit :=
  memWrite base (windowBytes s.cfg.swappedRegs w) s

/-! ## The end of a command, and Misuse -/

/-- The end of a command: BUSY falls (R33) and BUSSTATE is IDLE (R34, R96). -/
def State.complete (s : State) : State := { s with busy := false, bus := .idle }

/-- `result <- v` (R17). -/
def State.setResult (s : State) (v : Word) : State := { s with result := v }

/-- The end of a command that ran on the bus: completed, or held (R226). -/
def Bus.finish (x : Bus Unit) : Outcome State Fault Refusal :=
  .next (match x with
    | .done _ s => s.complete
    | .hung s => s)

/-- RESULT after a misuse that leaves it open: a draw (R31, R218, R220, R223; logs 5, 7). -/
def State.drawResult (s : State) : State := { s with result := Config.freeWord s.draws, draws := s.draws + 1 }

/-- `raise Misuse(reason)`: MISUSE becomes 1, the first reason is kept, RESULT becomes a draw where `drawsResult` says so, and the
command ends with no other effect (R15, R217, R222, R223; logs 6, 16). CP has already moved past the command's words. -/
def State.raiseMisuse (s : State) (reason : MisuseReason) (drawsResult : Bool) : State :=
  let s := { s with misuse := true, misuseReason := if s.misuse then s.misuseReason else some reason }
  (if drawsResult then s.drawResult else s).complete

/-- A command that addresses the handle: Unbound is checked before any primitive (R219, R222). -/
def onHandle (valueReturning : Bool) (s : State) (body : State → Bus Unit) : Outcome State Fault Refusal :=
  if s.bound = false then .next (s.raiseMisuse .unbound valueReturning) else (body s).finish

/-- A read-dependent command: Unbound, then ProxyRead, before any primitive (R220, R222). On a proxy RESULT becomes a draw
whatever the command returns (R220; R217 and R223 say so of the value-returning commands only, and a draw may be the old value: log
7). -/
def onDirect (valueReturning : Bool) (s : State) (body : State → Bus Unit) : Outcome State Fault Refusal :=
  if s.bound = false then .next (s.raiseMisuse .unbound valueReturning)
  else if s.proxy = true then .next (s.raiseMisuse .proxyRead true)
  else (body s).finish

/-! ## Reset (R240) -/

/-- `n` draws for bytes, from draw `first` on (log 5). -/
def freeBytes (first n : Nat) : List Byte := (List.range n).map fun j => Config.freeByte (first + j)

/-- How many data bytes the transmission in progress carries: the bytes after its register address (R97). -/
def Held.burstData (h : Held) : Nat :=
  match h.burst with
  | some (_, bytes) => bytes.length - 1
  | none => 0

/-- The peer's registers after a reset in the middle of an action: "every register the cut burst could reach" holds an unknown value
(R243), which is those of the whole burst, sent or not (L2.8 of 95_test_vectors.md), when it is addressed to the peer (R59; log 11). -/
def Responder.cutRegs (r : Responder) (h : Held) (draws : Nat) : Memory :=
  match h.burst with
  | some (a, reg :: data) => if a = r.ra then storeRun r.regs reg (freeBytes draws data.length) else r.regs
  | _ => r.regs

/-- The bus environment after a reset: the peer is not reset (R242), but a transmission or a read that the reset cut leaves unknown
values (R243; log 11). -/
def State.cutEnv (s : State) : BusEnv :=
  match s.env, s.stall with
  | .responder r, some h => .responder { r with regs := r.cutRegs h (s.draws + 1), ptr := Config.freeByte (s.draws + 1 + h.burstData) }
  | env, _ => env

/-- How many draws a reset uses: RESULT, and what a cut action leaves unknown. -/
def State.resetDraws (s : State) : Nat :=
  match s.stall with
  | some h => 2 + h.burstData
  | none => 1

/-- Reset: every PBE field to its reset value, RESULT a draw; it ends any command in progress, held or not, and sends no TxEnd for it
(R240, R243). The configuration, the host's stream and the history are not the PBE's and stay (log 11). -/
def State.applyReset (s : State) : State :=
  { State.resetWith s.cfg with
    stream := s.stream
    env := s.cutEnv
    result := Config.freeWord s.draws
    draws := s.draws + s.resetDraws
    trace := s.trace }

end Sys2Proof.Machine
end

