-- ==== Sys2Proof/Machine/PhaseBalancer.lean ====
section
/-! DEFINITION. The phase balancer (42_phase_balancer.md) and PHASEWIN. -/

namespace Sys2Proof.Machine

open Host (Outcome)

/-- `PhaseBegin(scheme, c)`, a tick in [0, 4095] (R151, R153, R154, R155). -/
def phaseBegin (cfg : Config) (scheme : Scheme) (c : Fin 16) : Nat :=
  match scheme with
  | .none => 0
  | .linear => c.val * 256
  | .weaved => (cfg.weaved.get c).toNat

/-- `PhaseWindow(c, amt)` for an amount in [0, 4096] (R156). -/
def phaseWindow (cfg : Config) (scheme : Scheme) (c : Fin 16) (amt : Nat) : Window :=
  if amt = 0 then fullOff
  else if amt = 4096 then fullOn
  else ⟨BitVec.ofNat 13 (phaseBegin cfg scheme c), BitVec.ofNat 13 ((phaseBegin cfg scheme c + amt) % 4096)⟩

/-- `AllWindow(amt)` (R159): the all-channel block does not use the balancer. -/
def allWindow (amt : Nat) : Window :=
  if amt = 0 then fullOff
  else if amt = 4096 then fullOn
  else ⟨0, BitVec.ofNat 13 amt⟩

/-- The source's meaning of a window without a flag: is the output on in tick `t` of the cycle (R158)? No rule of the PBE depends
on it. -/
def windowOnAt (w : Window) (t : Nat) : Bool :=
  if w.on.toNat ≤ w.off.toNat then decide (w.on.toNat ≤ t ∧ t < w.off.toNat)
  else decide (w.on.toNat ≤ t ∨ t < w.off.toNat)

/-- PHASEWIN (R160): `RESULT[31:16] = phaseEnd`, `RESULT[15:0] = phaseBegin`. -/
def execPhasewin (ch : Byte) (amt : Half) (s : State) : Outcome State Fault Refusal :=
  let w := phaseWindow s.cfg s.pb (channelOf ch) (amountOf amt)
  .next (s.setResult (w.off.setWidth 16 ++ w.on.setWidth 16)).complete

end Sys2Proof.Machine
end

