-- ==== Sys2Proof/Machine/ChannelPwm.lean ====
section
/-! DEFINITION. The channel PWM engine (43_channel_pwm.md). -/

namespace Sys2Proof.Machine

open Host (Outcome)

/-- `ChannelWindow(ch, amt)` (R173). -/
def channelWindow (s : State) (ch : Fin 16) (amt : Nat) : Window := phaseWindow s.cfg s.pb ch amt

/-- CHOFF (R170): it does not read PB. -/
def execChoff (ch : Byte) (s : State) : Outcome State Fault Refusal :=
  onHandle false s (writeWindow (ledBase (channelOf ch)) fullOff)

/-- CHON (R172): it does not read PB. -/
def execChon (ch : Byte) (s : State) : Outcome State Fault Refusal :=
  onHandle false s (writeWindow (ledBase (channelOf ch)) fullOn)

/-- One channel's window written to its block (R173, R174, R180). -/
def writeChannel (ch : Fin 16) (amt : Nat) (s : State) : Bus Unit :=
  writeWindow (ledBase ch) (channelWindow s ch amt) s

/-- CHPWM (R174). -/
def execChpwm (ch : Byte) (amt : Half) (s : State) : Outcome State Fault Refusal :=
  onHandle false s (writeChannel (channelOf ch) (amountOf amt))

/-- CHSPWM's channels with their amounts: channel `first + i` gets `amt_i`, for i below `count = min(n, 16 - first)`; the amounts past
channel 15 are dropped (R177, R178). -/
def channelRun (first : Byte) (amts : List Half) : List (Fin 16 × Nat) :=
  ((List.finRange 16).drop (channelOf first).val).zip (amts.map amountOf)

/-- The data bytes of a whole burst (R180). -/
def burstBytes (s : State) (run : List (Fin 16 × Nat)) : List Byte :=
  run.flatMap fun p => windowBytes s.cfg.swappedRegs (channelWindow s p.1 p.2)

/-- The per-channel fallback: for each channel, in ascending order, what CHPWM does for it (R179, R180). -/
def writeChannels : List (Fin 16 × Nat) → State → Bus Unit
  | [], s => .done () s
  | (ch, amt) :: run, s => (writeChannel ch amt s).andThen fun _ s => writeChannels run s

/-- CHSPWM past the guard (R180): nothing when count = 0, one transmission when `1 + 4*count <= TX_BUFFER_BYTES`, else one per
channel. -/
def chspwmBody (first : Byte) (run : List (Fin 16 × Nat)) (s : State) : Bus Unit :=
  if run.length = 0 then .done () s
  else if 1 + 4 * run.length ≤ s.cfg.txBufferBytes then memWrite (ledBase (channelOf first)) (burstBytes s run) s
  else writeChannels run s

/-- CHSPWM (R180). -/
def execChspwm (first : Byte) (amts : List Half) (s : State) : Outcome State Fault Refusal :=
  onHandle false s (chspwmBody first (channelRun first amts))

/-- ALLPWM (R182): the all-channel block in one transmission; it does not read PB. -/
def execAllpwm (amt : Half) (s : State) : Outcome State Fault Refusal :=
  onHandle false s (writeWindow allBase (allWindow (amountOf amt)))

/-- `DecodeAmount(on13, off13)` (R185): the OFF flag first, then the ON flag, else `(off - on) mod 4096`. -/
def decodeAmount (w : Window) : Nat :=
  if fullFlag w.off then 0
  else if fullFlag w.on then 4096
  else (tickOf w.off - tickOf w.on).toNat

/-- GETCHPWM past the guards (R186): four single-register reads in ascending address order. -/
def getchpwmBody (base : Byte) (s : State) : Bus Unit :=
  (readReg base s).andThen fun r0 s =>
  (readReg (base + 1) s).andThen fun r1 s =>
  (readReg (base + 2) s).andThen fun r2 s =>
  (readReg (base + 3) s).andThen fun r3 s =>
  .done () (s.setResult (BitVec.ofNat 32 (decodeAmount
    ⟨pairValue s.cfg.swappedRegs r0 r1, pairValue s.cfg.swappedRegs r2 r3⟩)))

/-- GETCHPWM (R186). -/
def execGetchpwm (ch : Byte) (s : State) : Outcome State Fault Refusal :=
  onDirect true s (getchpwmBody (ledBase (channelOf ch)))

end Sys2Proof.Machine
end

