-- ==== Sys2Proof/Machine/Lifecycle.lean ====
section
/-! DEFINITION. The device lifecycle commands (41_lifecycle.md). -/

namespace Sys2Proof.Machine

open Host (Outcome)

/-! ## Reset and addressing -/

/-- SWRST's transmission, past its guard (R116). -/
def swrstBody (s : State) : Bus Unit :=
  (transmit swrstAddr [swrstByte] s).andThen fun _ s => .done () { s with srstDone := true }

/-- SWRST (R116): the software reset byte to the general-call address, at most once and before any INIT or INITPX (R221). -/
def execSwrst (s : State) : Outcome State Fault Refusal :=
  if s.srstDone = true ∨ s.bound = true then .next (s.raiseMisuse .resetOrder false)
  else (swrstBody s).finish

/-- The handle bound to its own address: `BASE_ADDR OR off` (R120; C3: OR). -/
def State.bindDirect (s : State) (off : Byte) : State :=
  { s with addr := s.cfg.baseAddr ||| offsetOf off, proxy := false, bound := true }

/-- INIT's two writes, once the handle is bound (R120). -/
def initBody (mode : Byte) (s : State) : Bus Unit :=
  (writeReg regMode1 (restartMask s.cfg ||| aiMask s.cfg) s).andThen fun _ s => writeReg regMode2 mode s

/-- INIT (R120). -/
def execInit (off mode : Byte) (s : State) : Outcome State Fault Refusal := (initBody mode (s.bindDirect off)).finish

/-- INITPX (R122): no bus primitive. -/
def execInitpx (a7 : BusAddr) (s : State) : Outcome State Fault Refusal :=
  .next { s with addr := a7, proxy := true, bound := true }.complete

/-! ## Frequency -/

/-- `Prescale(hz)` (R124): the clamp bounds are those of the byte range; 25 MHz whatever clock the peer runs from (R144). -/
def prescale (hz : Nat) : Int := clampInt (roundDiv 25000000 (4096 * hz) - 1) 0 255

/-- SETFREQ's sequence, past the guards (R126). -/
def setfreqBody (hz : Half) (s : State) : Bus Unit :=
  (readReg regMode1 s).andThen fun old s =>
  (writeReg regMode1 (old ||| sleepMask s.cfg) s).andThen fun _ s =>
  (writeReg regPreScale (BitVec.ofInt 8 (prescale (hzOf hz))) s).andThen fun _ s =>
  (writeReg regMode1 old s).andThen fun _ s =>
  (waitUs 500 s).andThen fun _ s =>
  if old &&& sleepMask s.cfg = 0 then writeReg regMode1 (old ||| restartMask s.cfg) s else .done () s

/-- SETFREQ (R126). -/
def execSetfreq (hz : Half) (s : State) : Outcome State Fault Refusal := onDirect false s (setfreqBody hz)

/-! ## Group addresses -/

/-- `EnableAddr`'s sequence, past the guards (R128). -/
def enableBody (bit reg value : Byte) (s : State) : Bus Unit :=
  (readReg regMode1 s).andThen fun old s =>
  (writeReg regMode1 (old ||| bit) s).andThen fun _ s => writeReg reg value s

/-- `DisableAddr`'s sequence, past the guards (R128). -/
def disableBody (bit : Byte) (s : State) : Bus Unit :=
  (readReg regMode1 s).andThen fun old s => writeReg regMode1 (old &&& ~~~bit) s

/-- `EnableAddr(bit, reg, value)` (R128). -/
def enableAddr (bit reg value : Byte) (s : State) : Outcome State Fault Refusal :=
  onDirect false s (enableBody bit reg value)

/-- `DisableAddr(bit)` (R128). -/
def disableAddr (bit : Byte) (s : State) : Outcome State Fault Refusal := onDirect false s (disableBody bit)

/-- ENALLC (R129): bit 0 of the address byte is forced to 0 (R54). -/
def execEnallc (ab : Byte) (s : State) : Outcome State Fault Refusal :=
  enableAddr (allcallMask s.cfg) regAllcalladr (ab &&& 0xFE) s

/-- ENSUB1 (R130): the address byte is written unchanged. -/
def execEnsub1 (ab : Byte) (s : State) : Outcome State Fault Refusal :=
  enableAddr (sub1Mask s.cfg) regSubadr1 ab s

/-- ENSUB2 (R131). -/
def execEnsub2 (ab : Byte) (s : State) : Outcome State Fault Refusal :=
  enableAddr (sub2Mask s.cfg) regSubadr2 ab s

/-- ENSUB3 (R132). -/
def execEnsub3 (ab : Byte) (s : State) : Outcome State Fault Refusal :=
  enableAddr (sub3Mask s.cfg) regSubadr3 ab s

/-- DISALLC (R133). -/
def execDisallc (s : State) : Outcome State Fault Refusal := disableAddr (allcallMask s.cfg) s

/-- DISSUB1 (R134). -/
def execDissub1 (s : State) : Outcome State Fault Refusal := disableAddr (sub1Mask s.cfg) s

/-- DISSUB2 (R135). -/
def execDissub2 (s : State) : Outcome State Fault Refusal := disableAddr (sub2Mask s.cfg) s

/-- DISSUB3 (R136). -/
def execDissub3 (s : State) : Outcome State Fault Refusal := disableAddr (sub3Mask s.cfg) s

/-! ## External clock -/

/-- ENEXTCLK's sequence, past the guards (R138). -/
def enextclkBody (s : State) : Bus Unit :=
  (readReg regMode1 s).andThen fun old s =>
  (writeReg regMode1 (old ||| sleepMask s.cfg) s).andThen fun _ s =>
  (writeReg regMode1 (old ||| sleepMask s.cfg ||| extclkMask s.cfg) s).andThen fun _ s =>
  (writeReg regMode1 (old ||| extclkMask s.cfg) s).andThen fun _ s =>
  (waitUs 500 s).andThen fun _ s =>
  if old &&& sleepMask s.cfg = 0 then writeReg regMode1 (old ||| extclkMask s.cfg ||| restartMask s.cfg) s
  else .done () s

/-- ENEXTCLK (R138). -/
def execEnextclk (s : State) : Outcome State Fault Refusal := onDirect false s enextclkBody

/-! ## Getters -/

/-- GETADDR (R140): `result <- zext_32(S.ADDR)`. -/
def execGetaddr (s : State) : Outcome State Fault Refusal := .next (s.setResult (s.addr.setWidth 32)).complete

/-- GETPB (R141): `result <- zext_32(S.PB)`. -/
def execGetpb (s : State) : Outcome State Fault Refusal := .next (s.setResult ((schemeCode s.pb).setWidth 32)).complete

/-- GETERR (R142): `result <- zext_32(S.LASTERR)`. -/
def execGeterr (s : State) : Outcome State Fault Refusal := .next (s.setResult (s.lastErr.setWidth 32)).complete

end Sys2Proof.Machine
end

