-- ==== Sys2Proof/Machine/RegisterAccess.lean ====
section
/-! DEFINITION. The register access commands (40_register_access.md): WRREG and RDREG. -/

namespace Sys2Proof.Machine

open Host (Outcome)

/-- WRREG (R102). -/
def execWrreg (reg v8 : Byte) (s : State) : Outcome State Fault Refusal :=
  onHandle false s (writeReg reg v8)

/-- RDREG past the guards (R104): `result <- zext_32(v)`. -/
def rdregBody (reg : Byte) (s : State) : Bus Unit :=
  (readReg reg s).andThen fun v s => .done () (s.setResult (v.setWidth 32))

/-- RDREG (R104). -/
def execRdreg (reg : Byte) (s : State) : Outcome State Fault Refusal := onDirect true s (rdregBody reg)

end Sys2Proof.Machine
end

