-- ==== Sys2Proof/Machine/Servo.lean ====
section
/-! DEFINITION. The servo angle evaluator (44_servo_evaluator.md). -/

namespace Sys2Proof.Machine

open Host (Outcome)

/-- EVCFG2 (R197): linear mode; EV_ZERO is written 0 (R30). -/
def execEvcfg2 (n90 p90 : Half) (s : State) : Outcome State Fault Refusal :=
  .next { s with
    evN90 := BitVec.ofNat 13 (amountOf n90)
    evZero := 0
    evP90 := BitVec.ofNat 13 (amountOf p90)
    evMode := .linear }.complete

/-- EVCFG3 (R198): cubic mode. -/
def execEvcfg3 (n90 zero p90 : Half) (s : State) : Outcome State Fault Refusal :=
  .next { s with
    evN90 := BitVec.ofNat 13 (amountOf n90)
    evZero := BitVec.ofNat 13 (amountOf zero)
    evP90 := BitVec.ofNat 13 (amountOf p90)
    evMode := .cubic }.complete

/-- The numerator of `LinCurve(n, p, x)` over 180 (R200). -/
def linNum (n p x : Int) : Int := 180 * n + (p - n) * (x + 90)

/-- The numerator of `CubCurve(n, z, p, x)` over 2916000 (R201): the natural cubic spline, in two pieces. -/
def cubNum (n z p x : Int) : Int :=
  let t := x + 90
  let d := n - 2 * z + p
  if t ≤ 90 then 2916000 * n + 8100 * (4 * (z - n) - d) * t + d * t ^ 3
  else
    let u := t - 90
    2916000 * z + 8100 * (4 * (p - z) - 2 * d) * u + 270 * d * u ^ 2 - d * u ^ 3

/-- The coefficients of one piece of the evaluator's curve: `a + b*s + c*s^2 + d*s^3` (R39). -/
structure CurvePiece where
  a : ℚ
  b : ℚ
  c : ℚ
  d : ℚ
  deriving DecidableEq

def CurvePiece.eval (k : CurvePiece) (s : ℚ) : ℚ := k.a + k.b * s + k.c * s ^ 2 + k.d * s ^ 3

/-- The coefficient view in linear mode, over `s = t` in [0, 180] (R39). -/
def linearPiece (n p : ℚ) : CurvePiece := ⟨n, (p - n) / 180, 0, 0⟩

/-- The coefficient view in cubic mode, piece 0, over `s = t` in [0, 90] (R39). -/
def cubicPiece0 (n z p : ℚ) : CurvePiece :=
  ⟨n, (z - n) / 90 - (n - 2 * z + p) / 360, 0, (n - 2 * z + p) / 2916000⟩

/-- The coefficient view in cubic mode, piece 1, over `s = t - 90` for `t` in (90, 180] (R39). -/
def cubicPiece1 (n z p : ℚ) : CurvePiece :=
  ⟨z, (p - z) / 90 - (n - 2 * z + p) / 180, (n - 2 * z + p) / 10800, -(n - 2 * z + p) / 2916000⟩

/-- `Out(q) = clamp(round(q), 0, 4096)` for `q = num / den` (R203). -/
def outAmount (num : Int) (den : Nat) : Int := clampInt (roundDiv num den) 0 4096

/-- The amount the configured curve gives an angle; `none` while unconfigured (R204). -/
def evaluate (mode : EvMode) (n z p x : Int) : Option Int :=
  match mode with
  | .unconfigured => none
  | .linear => some (outAmount (linNum n p x) 180)
  | .cubic => some (outAmount (cubNum n z p x) 2916000)

/-- ANGPWM (R204): the result goes to RESULT only. -/
def execAngpwm (x : Half) (s : State) : Outcome State Fault Refusal :=
  .next (match evaluate s.evMode s.evN90.toNat s.evZero.toNat s.evP90.toNat (angleOf x) with
    | none => s.raiseMisuse .unconfigured true
    | some amt => (s.setResult (BitVec.ofInt 32 amt)).complete)

end Sys2Proof.Machine
end

