-- ==== Sys2Proof/Machine/Dispatch.lean ====
section
/-! DEFINITION. One arm per command: each is one call of the command's own meaning. -/

namespace Sys2Proof.Machine

/-- The effect of a command in a state whose CP has moved past the command's words (R70, R92; log 9). -/
def exec (i : Instr) (s : State) : Host.Outcome State Fault Refusal :=
  match i with
  | .wrreg reg v8 => Sys2Proof.Machine.execWrreg reg v8 s
  | .rdreg reg => Sys2Proof.Machine.execRdreg reg s
  | .swrst => Sys2Proof.Machine.execSwrst s
  | .init off mode => Sys2Proof.Machine.execInit off mode s
  | .initpx a7 => Sys2Proof.Machine.execInitpx a7 s
  | .setfreq hz => Sys2Proof.Machine.execSetfreq hz s
  | .enallc ab => Sys2Proof.Machine.execEnallc ab s
  | .ensub1 ab => Sys2Proof.Machine.execEnsub1 ab s
  | .ensub2 ab => Sys2Proof.Machine.execEnsub2 ab s
  | .ensub3 ab => Sys2Proof.Machine.execEnsub3 ab s
  | .disallc => Sys2Proof.Machine.execDisallc s
  | .dissub1 => Sys2Proof.Machine.execDissub1 s
  | .dissub2 => Sys2Proof.Machine.execDissub2 s
  | .dissub3 => Sys2Proof.Machine.execDissub3 s
  | .enextclk => Sys2Proof.Machine.execEnextclk s
  | .getaddr => Sys2Proof.Machine.execGetaddr s
  | .getpb => Sys2Proof.Machine.execGetpb s
  | .geterr => Sys2Proof.Machine.execGeterr s
  | .phasewin ch amt => Sys2Proof.Machine.execPhasewin ch amt s
  | .chon ch => Sys2Proof.Machine.execChon ch s
  | .choff ch => Sys2Proof.Machine.execChoff ch s
  | .chpwm ch amt => Sys2Proof.Machine.execChpwm ch amt s
  | .chspwm first amts => Sys2Proof.Machine.execChspwm first amts s
  | .allpwm amt => Sys2Proof.Machine.execAllpwm amt s
  | .getchpwm ch => Sys2Proof.Machine.execGetchpwm ch s
  | .evcfg2 n90 p90 => Sys2Proof.Machine.execEvcfg2 n90 p90 s
  | .evcfg3 n90 zero p90 => Sys2Proof.Machine.execEvcfg3 n90 zero p90 s
  | .angpwm x => Sys2Proof.Machine.execAngpwm x s

end Sys2Proof.Machine
end

