-- ==== Sys2Proof/WellFormed.lean ====
section
/-! DEFINITION. Which terms of Instr have an encoding. -/

namespace Sys2Proof

/-- The one limit of the formats that the types do not carry: CHSPWM's count `n` is the 8-bit field [23:16] of the base word
(R78), so at most 255 amounts can be sent. -/
def Instr.wellFormed : Instr → Bool
  | .chspwm _ amts => decide (amts.length ≤ 255)
  | _ => true

end Sys2Proof
end

