-- ==== Sys2Proof/Decode.lean ====
section
/-! DEFINITION. The command encoding of 30_encoding.md: formats, opcode map, the decode function (R92) and the encoder. -/

namespace Sys2Proof

/-- The formats of R73 to R79. `e2` is format E with `d` reserved (EVCFG2), `e3` format E with `d` an operand (EVCFG3). -/
inductive Format where
  | n
  | a
  | a7
  | ab
  | ab8
  | b
  | m
  | e2
  | e3
  deriving DecidableEq, Repr

/-- Why a command is illegal (R82, R83). -/
inductive Illegal where
  /-- The opcode is not in the opcode map (R83). -/
  | unassignedOpcode
  /-- A reserved bit of the base word is set (R82). -/
  | reservedBaseBit
  /-- A reserved bit of an extension word is set (R82, R88). -/
  | reservedExtBit
  deriving DecidableEq, Repr

/-- What the decoder reads from the words at hand. -/
inductive Decoded where
  /-- The words at hand end before the command does (R254). -/
  | incomplete
  /-- An illegal command, with the number of words it takes (R84, R88). -/
  | illegal (why : Illegal) (len : Nat)
  /-- A command, with the number of words it takes (R76). -/
  | command (i : Instr) (len : Nat)
  deriving DecidableEq, Repr

/-! ## Fields (R72 to R79) -/

/-- Bits [7:0], the opcode (R72). -/
def fieldOp (w : Word) : Byte := w.extractLsb' 0 8

/-- Field `a`, bits [15:8] (R74). -/
def fieldA (w : Word) : Byte := w.extractLsb' 8 8

/-- Format A7's operand, bits [14:8] (R74). -/
def fieldA7 (w : Word) : BusAddr := w.extractLsb' 8 7

/-- Bits [23:16]: `b[7:0]` of format AB8 (R75), and the count `n` of format M (R78). -/
def fieldB8 (w : Word) : Byte := w.extractLsb' 16 8

/-- Field `b`, bits [31:16] (R75, R77, R79); also `d` of an extension word (R79). -/
def fieldB (w : Word) : Half := w.extractLsb' 16 16

/-- Bits [15:0] of an extension word: the amount of format X (R78), `c` of format E (R79). -/
def fieldC (w : Word) : Half := w.extractLsb' 0 16

/-! ## Formats and lengths -/

/-- The opcode map (R81); `none` is an unassigned opcode (R83). -/
def formatOf (op : Byte) : Option Format :=
  match op.toNat with
  | 0x01 => some .ab8
  | 0x02 => some .a
  | 0x10 => some .n
  | 0x11 => some .ab8
  | 0x12 => some .a7
  | 0x13 => some .b
  | 0x14 => some .a
  | 0x15 => some .a
  | 0x16 => some .a
  | 0x17 => some .a
  | 0x18 => some .n
  | 0x19 => some .n
  | 0x1A => some .n
  | 0x1B => some .n
  | 0x1C => some .n
  | 0x1D => some .n
  | 0x1E => some .n
  | 0x1F => some .n
  | 0x20 => some .ab
  | 0x30 => some .a
  | 0x31 => some .a
  | 0x32 => some .ab
  | 0x33 => some .m
  | 0x34 => some .b
  | 0x35 => some .a
  | 0x40 => some .e2
  | 0x41 => some .e3
  | 0x42 => some .b
  | _ => none

/-- The reserved bits of a format's base word (R73 to R79, R92: the table's mask without its opcode bits). -/
def reservedMask : Format → Word
  | .n => 0xFFFFFF00
  | .a => 0xFFFF0000
  | .a7 => 0xFFFF8000
  | .ab => 0x00000000
  | .ab8 => 0xFF000000
  | .b => 0x0000FF00
  | .m => 0xFF000000
  | .e2 => 0x0000FF00
  | .e3 => 0x0000FF00

/-- The reserved bits of a format's extension words: [31:16] of format X (R78) and of EVCFG2's word (R79). -/
def extReservedMask : Format → Word
  | .m => 0xFFFF0000
  | .e2 => 0xFFFF0000
  | _ => 0x00000000

/-- The number of extension words (R76): told from the opcode, and for CHSPWM from the field n as sent, alone. -/
def extCount (w : Word) : Nat :=
  match formatOf (fieldOp w) with
  | some .m => (fieldB8 w).toNat
  | some .e2 => 1
  | some .e3 => 1
  | _ => 0

/-- The fields of a command whose opcode is assigned and whose reserved bits are 0 (R81, and the formats it names). -/
def commandOf (w : Word) (ext : List Word) : Option Instr :=
  match (fieldOp w).toNat with
  | 0x01 => some (.wrreg (fieldA w) (fieldB8 w))
  | 0x02 => some (.rdreg (fieldA w))
  | 0x10 => some .swrst
  | 0x11 => some (.init (fieldA w) (fieldB8 w))
  | 0x12 => some (.initpx (fieldA7 w))
  | 0x13 => some (.setfreq (fieldB w))
  | 0x14 => some (.enallc (fieldA w))
  | 0x15 => some (.ensub1 (fieldA w))
  | 0x16 => some (.ensub2 (fieldA w))
  | 0x17 => some (.ensub3 (fieldA w))
  | 0x18 => some .disallc
  | 0x19 => some .dissub1
  | 0x1A => some .dissub2
  | 0x1B => some .dissub3
  | 0x1C => some .enextclk
  | 0x1D => some .getaddr
  | 0x1E => some .getpb
  | 0x1F => some .geterr
  | 0x20 => some (.phasewin (fieldA w) (fieldB w))
  | 0x30 => some (.chon (fieldA w))
  | 0x31 => some (.choff (fieldA w))
  | 0x32 => some (.chpwm (fieldA w) (fieldB w))
  | 0x33 => some (.chspwm (fieldA w) (ext.map fieldC))
  | 0x34 => some (.allpwm (fieldB w))
  | 0x35 => some (.getchpwm (fieldA w))
  | 0x40 => some (.evcfg2 (fieldB w) (fieldC (ext.headD 0)))
  | 0x41 => some (.evcfg3 (fieldB w) (fieldC (ext.headD 0)) (fieldB (ext.headD 0)))
  | 0x42 => some (.angpwm (fieldB w))
  | _ => none

/-! ## Decode -/

/-- R92 on a base word and all of its extension words. -/
def decodeWhole (w : Word) (ext : List Word) : Decoded :=
  match formatOf (fieldOp w) with
  | none => .illegal .unassignedOpcode 1
  | some f =>
    if w &&& reservedMask f ≠ 0 then .illegal .reservedBaseBit (1 + extCount w)
    else if ext.any (fun e => decide (e &&& extReservedMask f ≠ 0)) then .illegal .reservedExtBit (1 + extCount w)
    else
      match commandOf w ext with
      | none => .illegal .unassignedOpcode 1
      | some i => .command i (1 + extCount w)

/-- R92: the command at the head of a word stream. The words after it are not looked at. A command, legal or not, is decided
only once all of its words are there (R88: "after all of its words are taken"). -/
def decode : List Word → Decoded
  | [] => .incomplete
  | w :: rest => if rest.length < extCount w then .incomplete else decodeWhole w (rest.take (extCount w))

/-! ## Encode: the words of a command, from the same formats -/

def wordN (op : Byte) : Word := (0 : BitVec 24) ++ op

def wordA (op a : Byte) : Word := (0 : Half) ++ (a ++ op : Half)

def wordA7 (op : Byte) (a : BusAddr) : Word := (0 : BitVec 17) ++ (a ++ op : BitVec 15)

def wordAB (op a : Byte) (b : Half) : Word := b ++ (a ++ op : Half)

def wordAB8 (op a b8 : Byte) : Word := ((0 : Byte) ++ b8 : Half) ++ (a ++ op : Half)

def wordB (op : Byte) (b : Half) : Word := b ++ ((0 : Byte) ++ op : Half)

/-- Format X, and format E's word: `[31:16] = d`, `[15:0] = c` (R78, R79). -/
def wordX (d c : Half) : Word := d ++ c

/-- The words of a command: base word first (R73 to R79, R81). -/
def encode : Instr → List Word
  | .wrreg reg v8 => [wordAB8 0x01 reg v8]
  | .rdreg reg => [wordA 0x02 reg]
  | .swrst => [wordN 0x10]
  | .init off mode => [wordAB8 0x11 off mode]
  | .initpx a7 => [wordA7 0x12 a7]
  | .setfreq hz => [wordB 0x13 hz]
  | .enallc ab => [wordA 0x14 ab]
  | .ensub1 ab => [wordA 0x15 ab]
  | .ensub2 ab => [wordA 0x16 ab]
  | .ensub3 ab => [wordA 0x17 ab]
  | .disallc => [wordN 0x18]
  | .dissub1 => [wordN 0x19]
  | .dissub2 => [wordN 0x1A]
  | .dissub3 => [wordN 0x1B]
  | .enextclk => [wordN 0x1C]
  | .getaddr => [wordN 0x1D]
  | .getpb => [wordN 0x1E]
  | .geterr => [wordN 0x1F]
  | .phasewin ch amt => [wordAB 0x20 ch amt]
  | .chon ch => [wordA 0x30 ch]
  | .choff ch => [wordA 0x31 ch]
  | .chpwm ch amt => [wordAB 0x32 ch amt]
  | .chspwm first amts => wordAB8 0x33 first (BitVec.ofNat 8 amts.length) :: amts.map (wordX 0)
  | .allpwm amt => [wordB 0x34 amt]
  | .getchpwm ch => [wordA 0x35 ch]
  | .evcfg2 n90 p90 => [wordB 0x40 n90, wordX 0 p90]
  | .evcfg3 n90 zero p90 => [wordB 0x41 n90, wordX p90 zero]
  | .angpwm x => [wordB 0x42 x]

/-! ## The byte link (R71): each word least-significant byte first -/

/-- One command word from its four bytes in the order they are sent (R71). -/
def wordOfBytes (b0 b1 b2 b3 : Byte) : Word := (b3 ++ b2 : Half) ++ (b1 ++ b0 : Half)

/-- The words of a byte stream; bytes of an unfinished word are not a word yet (R70: every word is taken whole). -/
def wordsOfBytes : List Byte → List Word
  | b0 :: b1 :: b2 :: b3 :: rest => wordOfBytes b0 b1 b2 b3 :: wordsOfBytes rest
  | _ => []

/-- The bytes of a word stream over the byte link (R71). -/
def bytesOfWords : List Word → List Byte
  | [] => []
  | w :: ws => w.extractLsb' 0 8 :: w.extractLsb' 8 8 :: w.extractLsb' 16 8 :: w.extractLsb' 24 8 :: bytesOfWords ws

/-! ## The opcode table's words -/

/-- The words of an instruction whose low `nbits` bits are those of `w` and whose bits above are 0: the base word, and as many
extension words as the base word calls for (R76). -/
def tableWords (nbits w : Nat) : List Word :=
  BitVec.ofNat 32 (w % 2 ^ nbits) ::
    (List.range (extCount (BitVec.ofNat 32 (w % 2 ^ nbits)))).map
      fun k => BitVec.ofNat 32 ((w % 2 ^ nbits) >>> (32 * (k + 1)))

/-- What the decoder reads from an instruction numbered as spec/opcode_table.json numbers its bits. -/
def decodeTableWord (nbits w : Nat) : Option Instr :=
  match decode (tableWords nbits w) with
  | .command i _ => some i
  | _ => none

end Sys2Proof
end

