-- ==== Sys2Proof/Machine/Fetch.lean ====
section
/-! DEFINITION. Taking command words from the host's stream (R22, R70, R254), the host's moves (R262), and placing a command
where the next step takes it. -/

namespace Sys2Proof.Machine

/-- The words the PBE can see of the command in hand: those already taken, then those still in the stream (R22, R70). -/
def State.wordsAhead (s : State) : List Word := s.taken ++ s.stream.drop s.cp

/-- The PBE has taken all `len` words of a command: CP is past them and BUSY = 1 (R22, R33; log 9). -/
def State.accept (s : State) (len : Nat) : State :=
  { s with cp := s.cp + (len - s.taken.length), taken := [], busy := true }

/-- The PBE has taken the words there are of an unfinished command, and waits for the rest with BUSY = 1 (R254; log 9). -/
def State.awaitWords (s : State) : State :=
  { s with cp := s.cp + (s.stream.drop s.cp).length, taken := s.wordsAhead, busy := true }

/-- The PBE takes no word: it is held in a bus action (R226), or BUSY = 1 with no unfinished command in hand (R70: "takes a base word
only when `BUSY = 0`"). -/
def State.blocked (s : State) : Bool := s.stall.isSome || (s.busy && s.taken.isEmpty)

/-- What a step does before a command's effect. -/
inductive Intake where
  /-- The step ends in this state without running a command. -/
  | settled (s : State)
  /-- The step runs a command from this state. -/
  | run (i : Instr) (s : State)

/-- Reset first (R240); then a held PBE stays as it is (R226); with no word in the stream it stays idle (R262: "only the host's
next word ends an idle period"); an illegal command takes its words and raises Misuse (R84, R88, R218; log 7); a legal one runs. -/
def intake (s : State) : Intake :=
  if s.resetIn = .now then .settled s.applyReset
  else if s.blocked then .settled s
  else if s.wordsAhead.isEmpty then .settled s
  else
    match decode s.wordsAhead with
    | .incomplete => .settled s.awaitWords
    | .illegal _ len => .settled ((s.accept len).raiseMisuse .illegalCommand true)
    | .command i len => .run i (s.accept len)

/-- The state in which the next step has just taken the words of a command and done nothing else, where a whole command, legal or not,
is there to take: BUSY = 1 (R33, R84, R88). -/
def State.accepted (s : State) : Option State :=
  if s.resetIn = .now ∨ s.blocked = true then none
  else
    match decode s.wordsAhead with
    | .incomplete => none
    | .illegal _ len => some (s.accept len)
    | .command _ len => some (s.accept len)

/-! ## The host's moves (R262) -/

/-- The host sends words on the command port (R70). -/
def State.send (s : State) (words : List Word) : State := { s with stream := s.stream ++ words }

/-- The host asserts reset between commands, or while the PBE is held or waits (R240). -/
def State.assertReset (s : State) : State := { s with resetIn := .now }

/-- The host is about to assert reset inside a command, in the bus action that `k` others from here precede (R240, R262; log 11). -/
def State.assertResetIn (s : State) (k : Nat) : State := { s with resetIn := .inAction k }

/-! ## Placing a command -/

/-- The state with a command's words standing in the stream where the next step takes them, and nothing that keeps that step from
taking them: no reset input, no bus action in progress, no unfinished command in hand (log 10). -/
def State.placeCommand (s : State) (words : List Word) : State :=
  { s with
    stream := s.stream.take s.cp ++ List.replicate (s.cp - s.stream.length) 0 ++ words ++ s.stream.drop (s.cp + words.length)
    resetIn := .off
    taken := []
    busy := false
    stall := none }

end Sys2Proof.Machine
end

