-- ==== Sys2Proof/Machine/Step.lean ====
section
/-! DEFINITION. One step, and the state whose next step runs a given instruction. -/

namespace Sys2Proof.Machine

/-- One step: one command to its completion, or to the bus action in which no answer or a reset stops it (R6, R63; logs 8, 11), or what
`intake` settles. -/
def step (s : State) : Host.Outcome State Fault Refusal :=
  match intake s with
  | .settled t => .next t
  | .run i t => exec i t

/-- The state whose next step takes and runs the instruction with these bits, numbered as spec/opcode_table.json numbers them. -/
def State.withFetchWord (s : State) (nbits w : Nat) : State := s.placeCommand (tableWords nbits w)

end Sys2Proof.Machine
end

