-- ==== Sys2Proof/Safety.lean ====
section
/-! DEFINITION. The terms claims use: handle modes (R233), the fault of R217, the premises of R246, the end of a run (R247), what a
command did on the bus, and the invariant of the machine's states. -/

namespace Sys2Proof.Machine

/-! ## Modes, faulted states, premises -/

/-- The three handle modes (R233). -/
inductive HandleMode where
  | unbound
  | direct
  | proxy
  deriving DecidableEq, Repr

/-- The handle mode that BOUND and PROXY give (R233). -/
def State.handleMode (s : State) : HandleMode :=
  if s.bound = false then .unbound else if s.proxy = true then .proxy else .direct

/-- R217: "a state with `MISUSE = 1` is a fault": never final, and a claim about a run takes its absence as a premise. The machine
goes on from it (log 6). -/
def State.faulted (s : State) : Bool := s.misuse

/-- `NoStall` (R246): the environment answers every primitive from here on. The reference responder "never stalls" (R59). -/
def BusEnv.NoStall (env : BusEnv) (draws : Nat) : Prop :=
  match env with
  | .oracle script => (∀ a ∈ script, a ≠ none) ∧ ∀ n, draws ≤ n → Config.busAnswer n ≠ none
  | .responder _ => True

def State.NoStall (s : State) : Prop := s.env.NoStall s.draws

/-- The host asserts no reset inside the commands from here on (R262; log 11). -/
def State.Uncut (s : State) : Prop := ∀ k, s.resetIn ≠ .inAction k

/-- Nothing from outside stops a command: the bus answers (`NoStall`) and no reset comes inside it. -/
def State.RunsThrough (s : State) : Prop := s.NoStall ∧ s.Uncut

/-- `RefResponder(RA)` (R246, R59): the environment is the reference responder, here in state `r`, at bus address `ra`. -/
def State.RefResponder (s : State) (ra : BusAddr) (r : Responder) : Prop := s.env = .responder r ∧ r.ra = ra

/-- `CleanEntry` (R246): the PBE fields have the values of R240, RESULT any value, and nothing is in flight. `PB_STRAP` in {0, 1, 2}
and the other open parameters are what the type of `cfg` holds. The environment, the host's stream and the history are free. -/
structure State.CleanEntry (s : State) : Prop where
  cp : s.cp = 0
  addr : s.addr = 0
  bound : s.bound = false
  proxy : s.proxy = false
  pb : s.pb = s.cfg.pbStrap
  lastErr : s.lastErr = 0
  misuse : s.misuse = false
  reason : s.misuseReason = none
  srstDone : s.srstDone = false
  evMode : s.evMode = .unconfigured
  amounts : s.evN90 = 0 ∧ s.evZero = 0 ∧ s.evP90 = 0
  busy : s.busy = false
  bus : s.bus = .idle
  nothingInFlight : s.stall = none ∧ s.taken = []
  resetIn : s.resetIn = .off

/-- The end of a run (R247): every word taken and the last command completed. -/
def State.ended (s : State) : Prop := s.cp = s.stream.length ∧ s.busy = false ∧ s.bus = .idle

/-- The states the machine passes through inside its next step while no reset comes (R33, R262): the words of a command, legal or not,
are taken and no bus action has begun, or one of its bus actions is in progress. STATUS and RESULT can be read in each, and reset can come in each. The
second kind is where the step stops when reset comes in that action; but for `resetIn` it is the same state when reset does not come
(logs 8, 11). A read there does not change the run (log 20). -/
def State.Inside (s t : State) : Prop :=
  s.accepted = some t ∨ ∃ k, step (s.assertResetIn k) = .next t ∧ t.resetIn = .now

/-! ## Which commands do what (R36, R216, R219, R220, R234) -/

/-- The value-returning commands (R31, R94). -/
def valueReturning : Instr → Bool
  | .rdreg _ | .getaddr | .getpb | .geterr | .phasewin _ _ | .getchpwm _ | .angpwm _ => true
  | _ => false

/-- Does RESULT become a draw when a command raises a misuse? After an illegal command (R218) and a ProxyRead (R220) always, else where
the command returns a value (R31, R223; log 7). -/
def misuseDraws (i : Instr) (reason : MisuseReason) : Bool :=
  match reason with
  | .illegalCommand | .proxyRead => true
  | .unbound | .resetOrder | .unconfigured => valueReturning i

/-- The read-dependent commands (R220). -/
def readDependent : Instr → Bool
  | .rdreg _ | .getchpwm _ | .setfreq _ | .enextclk => true
  | .enallc _ | .ensub1 _ | .ensub2 _ | .ensub3 _ => true
  | .disallc | .dissub1 | .dissub2 | .dissub3 => true
  | _ => false

/-- The commands that only write to the handle's chip (R219). -/
def onlyWrites : Instr → Bool
  | .wrreg _ _ | .chon _ | .choff _ | .chpwm _ _ | .chspwm _ _ | .allpwm _ => true
  | _ => false

/-- The commands that address the handle (R216): those that only write (R219) and the read-dependent ones (R220). -/
def addressesHandle (i : Instr) : Bool := onlyWrites i || readDependent i

/-- The commands that send to the bus address without a binding (R116, R120): SWRST and INIT. -/
def sendsUnbound : Instr → Bool
  | .swrst | .init _ _ => true
  | _ => false

/-- The commands that issue `TxEnd` (R36). -/
def issuesTxEnd (i : Instr) : Bool := addressesHandle i || sendsUnbound i

/-- The commands that store nothing in a peer register: they send no data byte to a register. -/
def storesNothing : Instr → Bool
  | .rdreg _ | .swrst | .initpx _ | .getaddr | .getpb | .geterr | .phasewin _ _ | .getchpwm _ => true
  | .evcfg2 _ _ | .evcfg3 _ _ _ | .angpwm _ => true
  | _ => false

/-- The misuse of a command that addresses the handle: `BOUND = 0`, then a read through a proxy handle (R222, R218, R220). -/
def handleMisuse (i : Instr) (s : State) : Option MisuseReason :=
  if s.bound = false then some .unbound
  else if readDependent i = true ∧ s.proxy = true then some .proxyRead
  else none

/-- The misuse a legal command raises in a state, if any, by the guard order of R222. -/
def misuseOf (i : Instr) (s : State) : Option MisuseReason :=
  match i with
  | .swrst => if s.srstDone = true ∨ s.bound = true then some .resetOrder else none
  | .angpwm _ => if s.evMode = .unconfigured then some .unconfigured else none
  | _ => if addressesHandle i = true then handleMisuse i s else none

/-! ## What a command did on the bus -/

/-- What the PBE did, of an entry of the history, without the environment's answer. -/
def BusEvent.action : BusEvent → Action
  | .txBegin a => .prim (.txBegin a)
  | .txWrite b _ => .prim (.txWrite b)
  | .txEnd _ => .prim .txEnd
  | .rxRequest a n _ => .prim (.rxRequest a n)
  | .rxRead _ => .prim .rxRead
  | .wait us => .wait us

/-- The completed primitives among some entries of the history; a wait is none. -/
def primitives (evs : List BusEvent) : List BusPrim :=
  evs.filterMap fun e => match e.action with
    | .prim p => some p
    | .wait _ => none

/-- One transmission of bytes to a bus address (`TX(a) b0 b1 ...` of 95_test_vectors.md). -/
def sends (a : BusAddr) (bytes : List Byte) : List Action :=
  .prim (.txBegin a) :: (bytes.map fun b => .prim (.txWrite b)) ++ [.prim .txEnd]

/-- The single-register read of R103, R107 (`RD(a, r)` of 95_test_vectors.md). -/
def reads (a : BusAddr) (reg : Byte) : List Action :=
  sends a [reg] ++ [.prim (.rxRequest a 1), .prim .rxRead]

/-- The status of the last TxEnd among some entries (R98). -/
def lastStatus (evs : List BusEvent) : Option Byte :=
  (evs.filterMap fun | .txEnd st => some st | _ => none).getLast?

/-- The bytes read among some entries, in order. -/
def bytesRead (evs : List BusEvent) : List Byte :=
  evs.filterMap fun | .rxRead b => some b | _ => none

/-! ## The bus protocol and the commands' sequences -/

/-- A move of BUSSTATE by the table of R96; `none` outside it. The last two rows come together: what remains of a read when its last
byte is taken, `RX(a, 0)`, is IDLE with no primitive in between. -/
def busMove : BusState → BusPrim → Option BusState
  | .idle, .txBegin a => some (.tx a 0)
  | .tx a k, .txWrite _ => some (.tx a (k + 1))
  | .tx _ _, .txEnd => some .idle
  | .idle, .rxRequest a n => if 1 ≤ n then some (.rx a n) else none
  | .rx _ 1, .rxRead => some .idle
  | .rx a (r + 2), .rxRead => some (.rx a (r + 1))
  | _, _ => none

/-- BUSSTATE after some primitives by the table of R96; `none` when one of them is outside it. -/
def busAfter (b : BusState) (ps : List BusPrim) : Option BusState := ps.foldlM busMove b

/-- The actions of one transmission (R62, R97), each with the transmission it is part of. -/
def burstPlan (a : BusAddr) (bytes : List Byte) : List Held := (sends a bytes).map fun x => ⟨x, some (a, bytes)⟩

/-- The actions of the single-register read (R103). -/
def readPlan (a : BusAddr) (reg : Byte) : List Held := burstPlan a [reg] ++ [⟨.prim (.rxRequest a 1), none⟩, ⟨.prim .rxRead, none⟩]

/-- A wait as an action of a plan (R16). -/
def waitPlan (us : Nat) : List Held := [⟨.wait us, none⟩]

/-- All bus actions of a command, from the state it starts in, in order and each with its transmission, as the command rules give
them. `old` is the byte that its read of MODE1 returns, in the commands that have one (R126, R128, R138); the others do not depend on
it. -/
def busPlan (i : Instr) (s : State) (old : Byte) : List Held :=
  let write := fun reg v => burstPlan s.addr [reg, v]
  let window := fun reg w => burstPlan s.addr (reg :: windowBytes s.cfg.swappedRegs w)
  let enable := fun bit reg v => readPlan s.addr 0x00 ++ write 0x00 (old ||| bitMask bit) ++ write reg v
  let disable := fun bit => readPlan s.addr 0x00 ++ write 0x00 (old &&& ~~~bitMask bit)
  let sleep := bitMask s.cfg.mode1.sleep
  let extclk := bitMask s.cfg.mode1.extclk
  let restart := bitMask s.cfg.mode1.restart
  if misuseOf i s ≠ none then [] else
  match i with
  | .wrreg reg v8 => write reg v8
  | .rdreg reg => readPlan s.addr reg
  | .swrst => burstPlan 0x00 [0x06]
  | .init off mode =>
    let a := s.cfg.baseAddr ||| BitVec.ofNat 7 (min off.toNat 61)
    burstPlan a [0x00, restart ||| bitMask s.cfg.mode1.ai] ++ burstPlan a [0x01, mode]
  | .setfreq hz =>
    readPlan s.addr 0x00 ++ write 0x00 (old ||| sleep) ++ write 0xFE (BitVec.ofInt 8 (prescale (min (max hz.toNat 24) 1526))) ++
      write 0x00 old ++ waitPlan 500 ++ if old &&& sleep = 0 then write 0x00 (old ||| restart) else []
  | .enallc ab => enable s.cfg.mode1.allcall 0x05 (ab &&& 0xFE)
  | .ensub1 ab => enable s.cfg.mode1.sub1 0x02 ab
  | .ensub2 ab => enable s.cfg.mode1.sub2 0x03 ab
  | .ensub3 ab => enable s.cfg.mode1.sub3 0x04 ab
  | .disallc => disable s.cfg.mode1.allcall
  | .dissub1 => disable s.cfg.mode1.sub1
  | .dissub2 => disable s.cfg.mode1.sub2
  | .dissub3 => disable s.cfg.mode1.sub3
  | .enextclk =>
    readPlan s.addr 0x00 ++ write 0x00 (old ||| sleep) ++ write 0x00 (old ||| sleep ||| extclk) ++ write 0x00 (old ||| extclk) ++
      waitPlan 500 ++ if old &&& sleep = 0 then write 0x00 (old ||| extclk ||| restart) else []
  | .chon ch => window (ledBase (channelOf ch)) ⟨0x1000, 0x0000⟩
  | .choff ch => window (ledBase (channelOf ch)) ⟨0x0000, 0x1000⟩
  | .chpwm ch amt => window (ledBase (channelOf ch)) (phaseWindow s.cfg s.pb (channelOf ch) (min amt.toNat 4096))
  | .chspwm first amts =>
    let run := channelRun first amts
    let bytes := fun p : Fin 16 × Nat => windowBytes s.cfg.swappedRegs (phaseWindow s.cfg s.pb p.1 p.2)
    if run = [] then []
    else if 1 + 4 * run.length ≤ s.cfg.txBufferBytes then burstPlan s.addr (ledBase (channelOf first) :: run.flatMap bytes)
    else run.flatMap fun p => burstPlan s.addr (ledBase p.1 :: bytes p)
  | .allpwm amt => window 0xFA (allWindow (min amt.toNat 4096))
  | .getchpwm ch =>
    let base := ledBase (channelOf ch)
    readPlan s.addr base ++ readPlan s.addr (base + 1) ++ readPlan s.addr (base + 2) ++ readPlan s.addr (base + 3)
  | .initpx _ | .getaddr | .getpb | .geterr | .phasewin _ _ | .evcfg2 _ _ | .evcfg3 _ _ _ | .angpwm _ => []

/-- From `s` to `t` the command `i` did what its plan says: the entries `evs` are the plan's first actions, and the action in progress in
`t` is the one that they precede, with its transmission; none is in progress when they are the whole plan. The plan is the one for the
byte the command read first; before a byte is read every plan will do. -/
structure FollowsPlan (i : Instr) (s t : State) (evs : List BusEvent) : Prop where
  trace : t.trace = s.trace ++ evs
  plan : ∀ old, (∀ b, (bytesRead evs).head? = some b → b = old) →
    evs.map BusEvent.action = ((busPlan i s old).take evs.length).map Held.action ∧ t.stall = (busPlan i s old)[evs.length]?

/-- BUSSTATE in `t` is the table of R96 applied to the primitives completed since IDLE, and the primitive in progress, if one is, is a
move of the table. -/
def ByTheBusTable (t : State) (evs : List BusEvent) : Prop :=
  busAfter .idle (primitives evs) = some t.bus ∧ ∀ h p, t.stall = some h → h.action = .prim p → busMove t.bus p ≠ none

/-! ## How a command ends -/

/-- `t` is `s` after a finished command whose bus traffic is `evs`: LASTERR is the last status (R98), BUSY = 0, BUSSTATE is IDLE
(R96), and every field but these, the history, the environment and the count of free values is as in `s`. -/
structure BusRun (s t : State) (evs : List BusEvent) : Prop where
  trace : t.trace = s.trace ++ evs
  status : lastStatus evs = some t.lastErr
  rest : t = { s with
    lastErr := t.lastErr, trace := t.trace, env := t.env, draws := t.draws, busy := false, bus := .idle }

/-- `t` is `s` after a Misuse (R223): MISUSE = 1, the first reason is kept (R222), BUSY = 0, BUSSTATE is IDLE, RESULT unchanged
unless the misuse draws it, in which case nothing is said of it; every other field, the environment and the history are as in `s`. -/
structure MisuseRun (s t : State) (reason : MisuseReason) (drawsResult : Bool) : Prop where
  rest : t = { s with
    misuse := true, misuseReason := if s.misuse then s.misuseReason else some reason, result := t.result, draws := t.draws,
    busy := false, bus := .idle }
  result : drawsResult = false → t.result = s.result

/-! ## The invariant -/

/-- What every step keeps. -/
structure State.Inv (s : State) : Prop where
  /-- BUSY is 1 exactly when the PBE is held in a primitive or waits for words (R33, R226, R254). -/
  busy : s.busy = true ↔ s.stall.isSome = true ∨ s.taken ≠ []
  /-- A held PBE has taken all of its command's words (R70). -/
  stallTaken : s.stall.isSome = true → s.taken = []
  /-- BUSSTATE is IDLE unless the PBE is held (R34, R96). -/
  busIdle : s.stall = none → s.bus = .idle
  /-- CP is never past the stream (R22, R70). -/
  cpLe : s.cp ≤ s.stream.length
  /-- The words taken are the last ones before CP (R22, R254). -/
  takenBehind : s.taken <:+ s.stream.take s.cp
  /-- `PROXY = 1` implies `BOUND = 1` (R222, R233). -/
  proxyBound : s.proxy = true → s.bound = true
  /-- PB is the strap (R26). -/
  pbStrap : s.pb = s.cfg.pbStrap
  /-- A reason is kept exactly when MISUSE is set (R15, R28). -/
  reasonKept : s.misuse = s.misuseReason.isSome
  /-- The calibration amounts are in [0, 4096] (R30). -/
  amounts : s.evN90.toNat ≤ 4096 ∧ s.evZero.toNat ≤ 4096 ∧ s.evP90.toNat ≤ 4096
  /-- EV_ZERO is 0 unless the evaluator is in cubic mode (R30). -/
  zeroUnused : s.evMode ≠ .cubic → s.evZero = 0
  /-- The reference responder's registers keep their canonical form (R48). -/
  peerWf : ∀ r, s.env = .responder r → Memory.wf r.regs

end Sys2Proof.Machine
end

