-- ==== Sys2Proof/Certificates/Slice0/Obligations.lean ====
section
/-! DEFINITION. The statements for the provers. Helper predicates first, then one definition per statement. -/

open Sys2Proof Sys2Proof.Machine

namespace Sys2Proof.Claims

/-- From `s` the command `i` completes: the registers named by the list hold the bytes beside them afterwards, and every other
register of the reference responder reads as it did. -/
def StoresExactly (i : Instr) (s : State) (r : Responder) (cells : List (Byte × Byte)) : Prop :=
  ∃ t r', exec i s = .next t ∧ t.busy = false ∧ t.env = .responder r' ∧ r'.ra = r.ra ∧
    (∀ c ∈ cells, r'.reg c.1 = c.2) ∧ ∀ a, (∀ c ∈ cells, a ≠ c.1) → r'.reg a = r.reg a

/-- The four registers of a block with the bytes of a window (R57, R166). -/
def blockCells (swapped : Bool) (base : Byte) (w : Window) : List (Byte × Byte) :=
  ([base, base + 1, base + 2, base + 3]).zip (windowBytes swapped w)

/-- From `s` the command `i` completes with exactly these bus actions and no other effect than `change` (the fields it writes besides
LASTERR), where the environment answers and no reset comes in it. -/
def CompletesWith (i : Instr) (s : State) (change : State → State) (actions : List Action) : Prop :=
  s.RunsThrough → ∃ t evs, exec i s = .next t ∧ BusRun (change s) t evs ∧ evs.map BusEvent.action = actions

/-- From `s` the command `i` completes with a read of MODE1 first, and then actions that depend on the byte read, and no other effect
(R126, R128, R138). -/
def ReadsMode1Then (i : Instr) (s : State) (actions : Byte → List Action) : Prop :=
  s.RunsThrough → ∃ t evs old, exec i s = .next t ∧ BusRun s t evs ∧ bytesRead evs = [old] ∧
    evs.map BusEvent.action = reads s.addr 0x00 ++ actions old

/-- From `s` the command `i` raises a Misuse and has no other effect (R223). -/
def Misuses (i : Instr) (s : State) (reason : MisuseReason) : Prop :=
  ∃ t, exec i s = .next t ∧ MisuseRun s t reason (misuseDraws i reason)

/-- The guards of a read-dependent command (R115, R220, R222). A ProxyRead leaves RESULT open (R220; log 7). -/
def ReadGuards (i : Instr) (s : State) : Prop :=
  (s.bound = false → Misuses i s .unbound) ∧ (s.bound = true → s.proxy = true → Misuses i s .proxyRead)

/-- The state in which a command issues its first primitive: INIT binds the handle first (R120). -/
def atFirstPrimitive (i : Instr) (s : State) : State :=
  match i with
  | .init off _ => { s with addr := s.cfg.baseAddr ||| BitVec.ofNat 7 (min off.toNat 61), proxy := false, bound := true }
  | _ => s

/-- The bus address a command sends to first: 0x00 for SWRST, else the handle's (R46). -/
def firstAddr (i : Instr) (s : State) : BusAddr :=
  match i with
  | .swrst => 0x00
  | _ => (atFirstPrimitive i s).addr

/-- The two ends of a command whose environment answers `answers` and then leaves one primitive unanswered: it completes with its whole
plan done and no more primitives than answers, or the PBE is held in the primitive of its plan that exactly the answered ones precede,
with its transmission, and the actions before it recorded (R226). -/
def StopsAtTheUnanswered (i : Instr) (s : State) (answers : List Byte) (later : List (Option Byte)) : Prop :=
  ∃ t evs, exec i s = .next t ∧ FollowsPlan i s t evs ∧ (s.bus = .idle → ByTheBusTable t evs) ∧
    ((t.stall = none ∧ t.busy = false ∧ (primitives evs).length ≤ answers.length ∧
        t.env = .oracle ((answers.drop (primitives evs).length).map some ++ none :: later)) ∨
      (t.busy = true ∧ (primitives evs).length = answers.length ∧ t.env = .oracle later ∧
        ∃ h p, t.stall = some h ∧ h.action = .prim p))

/-- The end of a command when the host is to assert reset in the action that `k` others precede and the environment answers: when the
command has that action, it stops there with the `k` others recorded, BUSY = 1 and the reset sampled next; else it completes and the
countdown goes on (R240, R243, R262). -/
def ResetComesInAction (i : Instr) (s : State) (k : Nat) : Prop :=
  ∃ t evs, exec i s = .next t ∧ FollowsPlan i s t evs ∧
    ∀ old, (∀ b, (bytesRead evs).head? = some b → b = old) →
      if k < (busPlan i s old).length then
        evs.length = k ∧ t.stall = (busPlan i s old)[k]? ∧ t.busy = true ∧ t.resetIn = .now
      else t.stall = none ∧ t.busy = false ∧ t.resetIn = .inAction (k - (busPlan i s old).length)

/-- The registers that a transmission cut by reset could reach in the peer at `ra` (R243). -/
def reachedByCut (held : Option Held) (ra : BusAddr) (a : Byte) : Prop :=
  ∃ h reg data, held = some h ∧ h.burst = some (ra, reg :: data) ∧ ∃ j < data.length, a = reg + BitVec.ofNat 8 j

end Sys2Proof.Claims

open Sys2Proof.Claims

/-! ## Encoding -/

/-- Decoding the words of any encodable command gives that command back, whatever words follow (R92 with R73 to R79). -/
def Obligations.DecodeInvertsEncode : Prop :=
  ∀ (i : Instr) (rest : List Word), i.wellFormed = true →
    decode (encode i ++ rest) = .command i (encode i).length

/-- R85: a legal word sequence is the encoding of exactly the one command it decodes to; no bit of it is without meaning. -/
def Obligations.LegalWordsAreEncodings : Prop :=
  ∀ (ws : List Word) (i : Instr) (len : Nat), decode ws = .command i len →
    i.wellFormed = true ∧ ws.take len = encode i ∧ len = (encode i).length

/-- R83, R88: the unassigned opcodes, by their ranges; each is illegal and one word long, and every other opcode is assigned. -/
def Obligations.UnassignedOpcodesAreIllegal : Prop :=
  ∀ (w : Word) (rest : List Word),
    let op := (w.extractLsb' 0 8).toNat
    let unassigned := op = 0x00 ∨ (0x03 ≤ op ∧ op ≤ 0x0F) ∨ (0x21 ≤ op ∧ op ≤ 0x2F) ∨ (0x36 ≤ op ∧ op ≤ 0x3F) ∨ 0x43 ≤ op
    (unassigned → decode (w :: rest) = .illegal .unassignedOpcode 1) ∧
      (¬ unassigned → ∀ len, decode (w :: rest) ≠ .illegal .unassignedOpcode len)

/-- R82, R88: a reserved bit set in the base word or in any extension word makes the whole command illegal, with the length of
R76. -/
def Obligations.ReservedBitsAreIllegal : Prop :=
  ∀ (w : Word) (ext rest : List Word) (f : Format), formatOf (fieldOp w) = some f → ext.length = extCount w →
    (w &&& reservedMask f ≠ 0 ∨ ∃ e ∈ ext, e &&& extReservedMask f ≠ 0) →
    ∃ why, decode (w :: (ext ++ rest)) = .illegal why (1 + ext.length)

/-- Words written out by hand from R73 to R79 (the rows of R90) decode to the commands they stand for. -/
def Obligations.SpecWordsDecode : Prop :=
  decode [0x00000010] = .command .swrst 1 ∧
  decode [0x00040511] = .command (.init 5 0x04) 1 ∧
  decode [0x00007012] = .command (.initpx 0x70) 1 ∧
  decode [0x03E80332] = .command (.chpwm 3 1000) 1 ∧
  decode [0x00030E33, 0x00000064, 0x00001000, 0x00000000] = .command (.chspwm 14 [100, 4096, 0]) 4 ∧
  decode [0x00640041, 0x0190012C] = .command (.evcfg3 100 300 400) 2 ∧
  decode [0xFFD30042] = .command (.angpwm 0xFFD3) 1 ∧
  decode [0x0079FE01] = .command (.wrreg 0xFE 121) 1

/-! ## Steps -/

/-- R22, R33, R70: when the PBE is ready and the words at CP decode to a command, the step is that command's effect. That one step
runs the whole command is the model's choice (log 8); that its effect sees CP past its words and BUSY = 1 is the model's reading (log
9). -/
def Obligations.StepRunsDecodedCommand : Prop :=
  ∀ (s : State) (i : Instr) (len : Nat), s.resetIn ≠ .now → s.stall = none → s.busy = false → s.taken = [] →
    decode (s.stream.drop s.cp) = .command i len →
    step s = exec i { s with cp := s.cp + len, busy := true }

/-- R84, R88, R223: an illegal command takes its words and raises Misuse(IllegalCommand), and nothing else; RESULT is left open
(R218; the model's reading, log 7). -/
def Obligations.IllegalCommandRaisesMisuse : Prop :=
  ∀ (s : State) (why : Illegal) (len : Nat), s.resetIn ≠ .now → s.stall = none → s.busy = false → s.taken = [] →
    decode (s.stream.drop s.cp) = .illegal why len →
    ∃ t, step s = .next t ∧ MisuseRun { s with cp := s.cp + len } t .illegalCommand true

/-- R254, R247, R88: a command with words missing holds the PBE, CP at the end of the stream and BUSY = 1, step after step; when the
host sends some of the missing words it goes on waiting, exactly as if all the words so far had been there at once, so that this
statement says the same of it again; when the host sends all of them the command runs, or raises IllegalCommand, as if all words had been
there. That CP and BUSY stand so while the PBE waits is the model's reading (log 9), and so is that RESULT is left open after the
illegal one (log 7). -/
def Obligations.UnfinishedCommandWaitsForItsWords : Prop :=
  ∀ (s : State), s.resetIn ≠ .now → s.stall = none → s.busy = false → s.taken = [] →
    s.cp < s.stream.length → decode (s.stream.drop s.cp) = .incomplete →
    ∃ t, step s = .next t ∧ t.cp = s.stream.length ∧ t.busy = true ∧ t.bus = s.bus ∧ t.trace = s.trace ∧ step t = .next t ∧
      (∀ more : List Word, decode (s.stream.drop s.cp ++ more) = .incomplete →
        step (t.send more) = step (s.send more) ∧
        ∃ u, step (t.send more) = .next u ∧ u.cp = (s.stream ++ more).length ∧ u.busy = true ∧ u.bus = s.bus ∧ u.trace = s.trace ∧
          u.misuse = s.misuse ∧ step u = .next u) ∧
      (∀ (more : List Word) (i : Instr) (len : Nat), decode (s.stream.drop s.cp ++ more) = .command i len →
        step (t.send more) = exec i { s.send more with cp := s.cp + len, busy := true }) ∧
      ∀ (more : List Word) (why : Illegal) (len : Nat), decode (s.stream.drop s.cp ++ more) = .illegal why len →
        ∃ u, step (t.send more) = .next u ∧ MisuseRun { s.send more with cp := s.cp + len } u .illegalCommand true

/-- R226: a PBE held in a primitive takes no further command and records nothing; that the hang is a state that steps to itself is the
model's form of it (log 3). -/
def Obligations.HeldPbeDoesNotMove : Prop :=
  ∀ (s : State), s.resetIn ≠ .now → s.stall ≠ none → step s = .next s

/-- R226, R96: when the environment never answers the first primitive of a command that uses the bus (SWRST's and INIT's too), the PBE
is held in that TxBegin with BUSY = 1 and nothing is recorded; when it answers some primitives and not the next, the command completes
within those it answered or is held in the primitive of its plan that exactly those precede, in that primitive's transmission, with
BUSSTATE as the table says, and nothing after. The held action and its transmission as a field of the state are the model's (log 3). -/
def Obligations.UnansweredPrimitiveHoldsThePbe : Prop :=
  ∀ (i : Instr) (s : State) (later : List (Option Byte)), s.stall = none → s.Uncut →
    (issuesTxEnd i = true → misuseOf i s = none → (∀ first, i ≠ .chspwm first []) → s.env = .oracle (none :: later) →
      ∃ bytes, (∀ old, (busPlan i s old).head? = some ⟨.prim (.txBegin (firstAddr i s)), some (firstAddr i s, bytes)⟩ ∧
          (busPlan i s old).take (2 + bytes.length) = burstPlan (firstAddr i s) bytes) ∧
        exec i s = .next { atFirstPrimitive i s with
          busy := true, env := .oracle later
          stall := some ⟨.prim (.txBegin (firstAddr i s)), some (firstAddr i s, bytes)⟩ }) ∧
    ∀ answers : List Byte, s.env = .oracle (answers.map some ++ none :: later) → StopsAtTheUnanswered i s answers later

/-- R96, R34, R215, R226, R105, R240, R243: every command, in every state, does its plan's actions in order, with BUSSTATE as the table
of R96 says and no primitive outside it, and either completes with the whole plan done, BUSY = 0 and BUSSTATE IDLE, or leaves the PBE
held in the plan's next action with BUSY = 1. When the host is to assert reset in an action of a command, and the environment answers,
the command ends in that very action, and the next step is the reset. Inside a command, an illegal one too, BUSY = 1, as STATUS and a read of
STATUS say, and BUSSTATE is the table's (R33, R253, R262). That a hang is a next state with the held action in a field is the model's choice
(log 3), and so is that a Misuse is no stop (log 6) and where a reset comes inside a command (log 11). -/
def Obligations.EveryCommandCompletesOrHolds : Prop :=
  (∀ (i : Instr) (s : State), s.stall = none →
    ∃ t evs, exec i s = .next t ∧ FollowsPlan i s t evs ∧ (s.bus = .idle → ByTheBusTable t evs) ∧
      ((t.stall = none ∧ t.busy = false ∧ t.bus = .idle) ∨ (t.stall ≠ none ∧ t.busy = true))) ∧
  (∀ (i : Instr) (s : State) (k : Nat), s.stall = none → s.NoStall → s.resetIn = .inAction k → ResetComesInAction i s k) ∧
  ∀ s t : State, s.Inside t →
    t.busy = true ∧ t.status.getLsbD 23 = true ∧ t.hostReadsStatus.1.getLsbD 23 = true ∧
      ∃ evs, t.trace = s.trace ++ evs ∧ (s.bus = .idle → ByTheBusTable t evs)

/-- R105, R246: where the environment answers every primitive and no reset comes, every command completes and the environment goes on
answering. -/
def Obligations.AnsweringEnvironmentNeverHolds : Prop :=
  ∀ (i : Instr) (s : State), s.stall = none → s.RunsThrough →
    ∃ t, exec i s = .next t ∧ t.stall = none ∧ t.busy = false ∧ t.RunsThrough

/-- R247, R262: with no word left and nothing in hand, a step changes nothing: only the host ends an idle period. That an idle period
is a step at all is the model's form (logs 8, 10). -/
def Obligations.IdlePbeStaysIdle : Prop :=
  ∀ (s : State), s.resetIn ≠ .now → s.ended → s.taken = [] → step s = .next s

/-! ## Reset -/

/-- R240, R242, R243: what a reset leaves, from every state, one in the middle of a command too. RESULT is left open (a draw), and no
TxEnd is issued for a transmission it cuts. The peer is not reset: only the registers that a cut transmission could reach are
unknown afterwards. Which these are (the whole burst's), that the configuration, the host's stream and the history stay too, and that
the reset input is a pulse, is the model's choice (log 11); the words in hand, the held action and the kept reason are the model's own
fields (logs 3, 9, 16). -/
def Obligations.ResetSetsEveryField : Prop :=
  ∀ (s : State), s.resetIn = .now → ∃ t, step s = .next t ∧
    t.cp = 0 ∧ t.addr = 0 ∧ t.bound = false ∧ t.proxy = false ∧ t.pb = s.cfg.pbStrap ∧ t.lastErr = 0 ∧ t.misuse = false ∧
    t.srstDone = false ∧ t.evMode = .unconfigured ∧ t.evN90 = 0 ∧ t.evZero = 0 ∧ t.evP90 = 0 ∧ t.busy = false ∧ t.bus = .idle ∧
    t.stall = none ∧ t.taken = [] ∧ t.misuseReason = none ∧
    t.cfg = s.cfg ∧ t.stream = s.stream ∧ t.trace = s.trace ∧ t.resetIn = .off ∧
    (s.stall = none → t.env = s.env) ∧ (∀ script, s.env = .oracle script → t.env = s.env) ∧
    ∀ r, s.env = .responder r → ∃ r', t.env = .responder r' ∧ r'.ra = r.ra ∧
      ∀ a, (¬ reachedByCut s.stall r.ra a → r'.reg a = r.reg a) ∧
        (reachedByCut s.stall r.ra a → ∃ n, s.draws < n ∧ n < t.draws ∧ r'.reg a = Config.freeByte n)

/-- R38, R240, R246: the state after reset has the reset values and is a clean entry for its configuration, and its STATUS is
`PB_STRAP << 12`. -/
def Obligations.ResetStateIsCleanEntry : Prop :=
  State.reset.CleanEntry ∧
    ∀ cfg : Config,
      let s := State.resetWith cfg
      s.CleanEntry ∧ s.cfg = cfg ∧
      s.cp = 0 ∧ s.addr = 0x00 ∧ s.bound = false ∧ s.proxy = false ∧ s.pb = cfg.pbStrap ∧ s.lastErr = 0x00 ∧ s.misuse = false ∧
      s.srstDone = false ∧ s.evMode = .unconfigured ∧ s.evN90 = 0 ∧ s.evZero = 0 ∧ s.evP90 = 0 ∧ s.busy = false ∧ s.bus = .idle ∧
      s.status = (match cfg.pbStrap with | .none => 0x00000000 | .linear => 0x00001000 | .weaved => 0x00002000)

/-- The invariant holds after reset, whatever the configuration. -/
def Obligations.InvariantHoldsAtReset : Prop :=
  State.reset.Inv ∧ ∀ cfg : Config, (State.resetWith cfg).Inv

/-- Every step and every move of the host (R262) keeps the invariant: BUSY and BUSSTATE tell the truth, PROXY implies BOUND, PB is the
strap, the calibration amounts stay in range, CP stays in the stream, and the peer's registers keep their canonical form. The words in
hand, the held action and the kept reason are the model's own fields (logs 3, 9, 16); that BUSY is 1 and BUSSTATE is not IDLE only where
the PBE waits or is held rests on one step being one command (log 8). -/
def Obligations.StepKeepsInvariant : Prop :=
  (∀ (s t : State), s.Inv → step s = .next t → t.Inv) ∧
    ∀ (s : State) (words : List Word) (k : Nat), s.Inv →
      (s.send words).Inv ∧ s.assertReset.Inv ∧ (s.assertResetIn k).Inv ∧ s.hostReadsResult.2.Inv ∧ s.hostReadsStatus.2.Inv

/-! ## Register access -/

/-- R102: WRREG sends the register address and the value in one transmission; unbound, it is a Misuse. -/
def Obligations.WrregWritesOneRegister : Prop :=
  ∀ (reg v8 : Byte) (s : State),
    (s.bound = false → Misuses (.wrreg reg v8) s .unbound) ∧
    (s.bound = true → CompletesWith (.wrreg reg v8) s id (sends s.addr [reg, v8]))

/-- R104, R107: RDREG reads one register and puts the byte in RESULT[7:0], the rest 0; it is read-dependent. -/
def Obligations.RdregReturnsTheByteRead : Prop :=
  ∀ (reg : Byte) (s : State),
    ReadGuards (.rdreg reg) s ∧
    (s.bound = true → s.proxy = false → s.RunsThrough →
      ∃ t evs v, exec (.rdreg reg) s = .next t ∧ BusRun { s with result := (0 : BitVec 24) ++ v } t evs ∧ bytesRead evs = [v] ∧
        evs.map BusEvent.action = reads s.addr reg)

/-- R100 (log 13): when the request delivers no byte, the byte RDREG returns is a draw, whatever the transport's RxRead answers. -/
def Obligations.ShortReadGivesADraw : Prop :=
  ∀ (reg b0 b1 b2 b3 : Byte) (s : State), s.bound = true → s.proxy = false → s.Uncut →
    s.env = .oracle [some b0, some b1, some b2, some 0, some b3] →
    ∃ t, exec (.rdreg reg) s = .next t ∧ t.busy = false ∧ t.lastErr = b2 ∧
      t.result = (0 : BitVec 24) ++ Config.freeByte s.draws

/-! ## Lifecycle -/

/-- R116, R221: SWRST sends 0x06 to address 0x00 and sets SRST_DONE; after a SWRST, an INIT or an INITPX it is a Misuse. -/
def Obligations.SwrstBroadcastsOnceBeforeInit : Prop :=
  ∀ (s : State),
    (s.srstDone = true ∨ s.bound = true → Misuses .swrst s .resetOrder) ∧
    (s.srstDone = false → s.bound = false →
      CompletesWith .swrst s (fun s => { s with srstDone := true }) (sends 0x00 [0x06]))

/-- R120: INIT binds to `BASE_ADDR OR clamp(off, 0, 61)`, clears PROXY, and writes MODE1 with RESTART and AI and MODE2 with the mode
byte, at the new address. -/
def Obligations.InitBindsAndWritesModeRegisters : Prop :=
  ∀ (off mode : Byte) (s : State),
    let a := s.cfg.baseAddr ||| BitVec.ofNat 7 (min off.toNat 61)
    CompletesWith (.init off mode) s (fun s => { s with addr := a, proxy := false, bound := true })
      (sends a [0x00, bitMask s.cfg.mode1.restart ||| bitMask s.cfg.mode1.ai] ++ sends a [0x01, mode])

/-- R122: INITPX binds as a proxy and issues no bus primitive. -/
def Obligations.InitpxBindsAsProxy : Prop :=
  ∀ (a7 : BusAddr) (s : State),
    exec (.initpx a7) s = .next { s with addr := a7, proxy := true, bound := true, busy := false, bus := .idle }

/-- R126: SETFREQ's sequence on MODE1 and PRE_SCALE, with the restart write exactly if the SLEEP bit read was 0 (on a
proxy RESULT is left open: log 7). -/
def Obligations.SetfreqSequence : Prop :=
  ∀ (hz : Half) (s : State),
    let sleep := bitMask s.cfg.mode1.sleep
    ReadGuards (.setfreq hz) s ∧
    (s.bound = true → s.proxy = false →
      ReadsMode1Then (.setfreq hz) s fun old =>
        sends s.addr [0x00, old ||| sleep] ++
        sends s.addr [0xFE, BitVec.ofInt 8 (prescale (min (max hz.toNat 24) 1526))] ++
        sends s.addr [0x00, old] ++ [.wait 500] ++
        if old &&& sleep = 0 then sends s.addr [0x00, old ||| bitMask s.cfg.mode1.restart] else [])

/-- R125: the prescaler's integer form, its range and its monotonicity over the legal frequencies. -/
def Obligations.PrescaleIntegerFormAndRange : Prop :=
  (∀ hz : Nat, 24 ≤ hz → hz ≤ 1526 →
    prescale hz = (((25000000 + 2048 * hz) / (4096 * hz) : Nat) : Int) - 1 ∧ 3 ≤ prescale hz ∧ prescale hz ≤ 253) ∧
  ∀ h k : Nat, 24 ≤ h → h ≤ k → k ≤ 1526 → prescale k ≤ prescale h

/-- R128 to R132: the enable commands set their MODE1 bit and then write the address register; ENALLC forces bit 0 to 0 (on a
proxy RESULT is left open: log 7). -/
def Obligations.EnableCommandsSetBitThenAddress : Prop :=
  ∀ (ab : Byte) (s : State) (i : Instr) (bit reg value : Byte),
    (i, bit, reg, value) ∈ ([
      (.enallc ab, bitMask s.cfg.mode1.allcall, 0x05, ab &&& 0xFE),
      (.ensub1 ab, bitMask s.cfg.mode1.sub1, 0x02, ab),
      (.ensub2 ab, bitMask s.cfg.mode1.sub2, 0x03, ab),
      (.ensub3 ab, bitMask s.cfg.mode1.sub3, 0x04, ab)] : List (Instr × Byte × Byte × Byte)) →
    ReadGuards i s ∧
    (s.bound = true → s.proxy = false →
      ReadsMode1Then i s fun old => sends s.addr [0x00, old ||| bit] ++ sends s.addr [reg, value])

/-- R128, R133 to R136: the disable commands clear their MODE1 bit and write no address register (on a proxy RESULT is left open:
log 7). -/
def Obligations.DisableCommandsClearBit : Prop :=
  ∀ (s : State) (i : Instr) (bit : Byte),
    (i, bit) ∈ ([
      (.disallc, bitMask s.cfg.mode1.allcall), (.dissub1, bitMask s.cfg.mode1.sub1),
      (.dissub2, bitMask s.cfg.mode1.sub2), (.dissub3, bitMask s.cfg.mode1.sub3)] : List (Instr × Byte)) →
    ReadGuards i s ∧
    (s.bound = true → s.proxy = false → ReadsMode1Then i s fun old => sends s.addr [0x00, old &&& ~~~bit])

/-- R138: ENEXTCLK's sequence on MODE1, with the restart write exactly if the SLEEP bit read was 0 (on a proxy RESULT
is left open: log 7). -/
def Obligations.EnextclkSequence : Prop :=
  ∀ (s : State),
    let sleep := bitMask s.cfg.mode1.sleep
    let extclk := bitMask s.cfg.mode1.extclk
    ReadGuards .enextclk s ∧
    (s.bound = true → s.proxy = false →
      ReadsMode1Then .enextclk s fun old =>
        sends s.addr [0x00, old ||| sleep] ++ sends s.addr [0x00, old ||| sleep ||| extclk] ++
        sends s.addr [0x00, old ||| extclk] ++ [.wait 500] ++
        if old &&& sleep = 0 then sends s.addr [0x00, old ||| extclk ||| bitMask s.cfg.mode1.restart] else [])

/-- R140, R141, R142: the getters return ADDR, PB's code (R26) and LASTERR, zero-extended, and change nothing else, bound or not. -/
def Obligations.GettersReturnTheirField : Prop :=
  ∀ (s : State),
    exec .getaddr s = .next { s with result := (0 : BitVec 25) ++ s.addr, busy := false, bus := .idle } ∧
    exec .getpb s = .next { s with
      result := (match s.pb with | .none => 0 | .linear => 1 | .weaved => 2), busy := false, bus := .idle } ∧
    exec .geterr s = .next { s with result := (0 : BitVec 24) ++ s.lastErr, busy := false, bus := .idle }

/-! ## Phase balancer -/

/-- R160: PHASEWIN returns the window of the clamped channel and amount under the scheme PB, OFF in the high half. -/
def Obligations.PhasewinReturnsTheWindow : Prop :=
  ∀ (ch : Byte) (amt : Half) (s : State),
    let w := phaseWindow s.cfg s.pb (channelOf ch) (min amt.toNat 4096)
    exec (.phasewin ch amt) s = .next { s with
      result := ((0 : BitVec 3) ++ w.off : BitVec 16) ++ ((0 : BitVec 3) ++ w.on : BitVec 16), busy := false, bus := .idle }

/-- R151, R153, R154: phase begins under None, Linear and Weaved, and their range. -/
def Obligations.PhaseBeginPerScheme : Prop :=
  ∀ (cfg : Config) (c : Fin 16),
    phaseBegin cfg .none c = 0 ∧ phaseBegin cfg .linear c = c.val * (4096 / 16) ∧
    phaseBegin cfg .weaved c = (cfg.weaved.get c).toNat ∧ ∀ scheme, phaseBegin cfg scheme c < 4096

/-- R156, R157: the values of a phase window, and its properties, for every scheme, table, channel and amount. -/
def Obligations.PhaseWindowProperties : Prop :=
  ∀ (cfg : Config) (scheme : Scheme) (c : Fin 16) (amt : Nat), amt ≤ 4096 →
    let w := phaseWindow cfg scheme c amt
    (amt = 0 → w = ⟨0x0000, 0x1000⟩ ∧ fullFlag w.off = true ∧ fullFlag w.on = false) ∧
    (amt = 4096 → w = ⟨0x1000, 0x0000⟩ ∧ fullFlag w.on = true ∧ fullFlag w.off = false) ∧
    (1 ≤ amt → amt ≤ 4095 →
      w.on.toNat = phaseBegin cfg scheme c ∧ w.off.toNat = (phaseBegin cfg scheme c + amt) % 4096 ∧
      w.on.toNat ≤ 4095 ∧ w.off.toNat ≤ 4095 ∧ (w.off.toNat + 4096 - w.on.toNat) % 4096 = amt ∧
      (w.off.toNat < w.on.toNat ↔ 4096 ≤ phaseBegin cfg scheme c + amt))

/-- R158: by the source's meaning of a window (an assumption about the peer), a window without a flag is on for `amt` ticks of the
cycle. -/
def Obligations.WindowIsOnForAmountTicks : Prop :=
  ∀ (cfg : Config) (scheme : Scheme) (c : Fin 16) (amt : Nat), 1 ≤ amt → amt ≤ 4095 →
    (List.range 4096).countP (windowOnAt (phaseWindow cfg scheme c amt)) = amt

/-! ## Channel PWM -/

/-- R170, R172: CHOFF and CHON send the flag windows to the clamped channel's block, whatever the scheme. -/
def Obligations.ChonChoffSendTheFlagWindows : Prop :=
  ∀ (ch : Byte) (s : State),
    let reg := BitVec.ofNat 8 (6 + 4 * min ch.toNat 15)
    (s.bound = false → Misuses (.chon ch) s .unbound ∧ Misuses (.choff ch) s .unbound) ∧
    (s.bound = true →
      CompletesWith (.chon ch) s id
        (sends s.addr (reg :: if s.cfg.swappedRegs then [0x10, 0x00, 0x00, 0x00] else [0x00, 0x10, 0x00, 0x00])) ∧
      CompletesWith (.choff ch) s id
        (sends s.addr (reg :: if s.cfg.swappedRegs then [0x00, 0x00, 0x10, 0x00] else [0x00, 0x00, 0x00, 0x10])))

/-- R174, R166: CHPWM sends the four bytes of the channel's window in one transmission; a proxy handle may issue it. -/
def Obligations.ChpwmSendsTheWindow : Prop :=
  ∀ (ch : Byte) (amt : Half) (s : State),
    (s.bound = false → Misuses (.chpwm ch amt) s .unbound) ∧
    (s.bound = true →
      CompletesWith (.chpwm ch amt) s id
        (sends s.addr (BitVec.ofNat 8 (6 + 4 * min ch.toNat 15) ::
          windowBytes s.cfg.swappedRegs (phaseWindow s.cfg s.pb (channelOf ch) (min amt.toNat 4096)))))

/-- R176: CHPWM with amount 0 is CHOFF, and with amount 4096 it is CHON, in every state. -/
def Obligations.ChpwmAtTheEndsIsChoffAndChon : Prop :=
  ∀ (ch : Byte) (s : State), exec (.chpwm ch 0) s = exec (.choff ch) s ∧ exec (.chpwm ch 4096) s = exec (.chon ch) s

/-- R178: CHSPWM's run: channel `first + i` gets `amt_i`, for the first `min(n, 16 - first)` amounts. -/
def Obligations.ChannelRunClampsAtChannel15 : Prop :=
  ∀ (first : Byte) (amts : List Half),
    (channelRun first amts).length = min amts.length (16 - min first.toNat 15) ∧
    ∀ (k : Nat) (p : Fin 16 × Nat), (channelRun first amts)[k]? = some p →
      p.1.val = min first.toNat 15 + k ∧ ∃ x, amts[k]? = some x ∧ p.2 = min x.toNat 4096

/-- R179, R180: CHSPWM sends nothing for an empty run (and then leaves LASTERR alone), one transmission when the burst fits the
transport's buffer, and one per channel otherwise; unbound, it is a Misuse even for an empty run. -/
def Obligations.ChspwmSendsBurstOrChannels : Prop :=
  ∀ (first : Byte) (amts : List Half) (s : State),
    let run := channelRun first amts
    let bytes := fun p : Fin 16 × Nat => windowBytes s.cfg.swappedRegs (phaseWindow s.cfg s.pb p.1 p.2)
    (s.bound = false → Misuses (.chspwm first amts) s .unbound) ∧
    (s.bound = true → amts = [] → exec (.chspwm first amts) s = .next { s with busy := false, bus := .idle }) ∧
    (s.bound = true → amts ≠ [] →
      CompletesWith (.chspwm first amts) s id
        (if 1 + 4 * run.length ≤ s.cfg.txBufferBytes then
          sends s.addr (BitVec.ofNat 8 (6 + 4 * min first.toNat 15) :: run.flatMap bytes)
        else run.flatMap fun p => sends s.addr (BitVec.ofNat 8 (6 + 4 * p.1.val) :: bytes p)))

/-- R182, R159, R166: ALLPWM sends the all-channel window to 0xFA in one transmission; it does not read PB;
unbound, it is a Misuse (R219). -/
def Obligations.AllpwmSendsTheAllWindow : Prop :=
  ∀ (amt : Half) (s : State),
    (s.bound = false → Misuses (.allpwm amt) s .unbound) ∧
    (s.bound = true →
      CompletesWith (.allpwm amt) s id
        (sends s.addr (0xFA :: windowBytes s.cfg.swappedRegs
          (if amt.toNat = 0 then ⟨0x0000, 0x1000⟩
          else if 4096 ≤ amt.toNat then ⟨0x1000, 0x0000⟩
          else ⟨0, BitVec.ofNat 13 amt.toNat⟩))))

/-- R186, R188: GETCHPWM reads the channel's four registers in ascending order and returns the decoded amount, in [0, 4096]; it is
read-dependent. -/
def Obligations.GetchpwmReadsFourRegisters : Prop :=
  ∀ (ch : Byte) (s : State),
    let base := BitVec.ofNat 8 (6 + 4 * min ch.toNat 15)
    ReadGuards (.getchpwm ch) s ∧
    (s.bound = true → s.proxy = false → s.RunsThrough →
      ∃ t evs r0 r1 r2 r3, exec (.getchpwm ch) s = .next t ∧
        BusRun { s with result := BitVec.ofNat 32 (decodeAmount
          ⟨pairValue s.cfg.swappedRegs r0 r1, pairValue s.cfg.swappedRegs r2 r3⟩) } t evs ∧
        bytesRead evs = [r0, r1, r2, r3] ∧ t.result.toNat ≤ 4096 ∧
        evs.map BusEvent.action = reads s.addr base ++ reads s.addr (base + 1) ++ reads s.addr (base + 2) ++ reads s.addr (base + 3))

/-- R185, R187: decoding: the OFF flag wins, then the ON flag, else the length of the window mod 4096. -/
def Obligations.DecodeAmountByFlags : Prop :=
  ∀ (w : Window),
    (w.off.getLsbD 12 = true → decodeAmount w = 0) ∧
    (w.off.getLsbD 12 = false → w.on.getLsbD 12 = true → decodeAmount w = 4096) ∧
    (w.off.getLsbD 12 = false → w.on.getLsbD 12 = false →
      decodeAmount w = (w.off.toNat % 4096 + 4096 - w.on.toNat % 4096) % 4096)

/-- R57, R187: the bytes of a pair in both byte orders (the low byte is bits 7:0, the high byte bits 12:8 under three zeros), the value
rebuilt from any two bytes in both orders, whose bits 7:5 of the high byte are ignored wherever that byte lies, and the round trip. -/
def Obligations.PairBytesRoundTrip : Prop :=
  (∀ v : Boundary,
    let lo : Byte := BitVec.ofNat 8 (v.toNat % 256)
    let hi : Byte := BitVec.ofNat 8 (v.toNat / 256)
    pairBytes false v = [lo, hi] ∧ pairBytes true v = [hi, lo] ∧ hi &&& 0xE0 = 0 ∧
      pairValue false lo hi = v ∧ pairValue true hi lo = v) ∧
  ∀ lo hi junk : Byte,
    (pairValue false lo hi).toNat = hi.toNat % 32 * 256 + lo.toNat ∧
    (pairValue true hi lo).toNat = hi.toNat % 32 * 256 + lo.toNat ∧
    pairValue false lo (hi ||| junk &&& 0xE0) = pairValue false lo hi ∧
    pairValue true (hi ||| junk &&& 0xE0) lo = pairValue true hi lo

/-- R189: against the reference responder, GETCHPWM after CHPWM returns the amount, for every scheme, table, byte order, channel and
amount. -/
def Obligations.ChpwmReadsBack : Prop :=
  ∀ (ch : Byte) (amt : Half) (s : State) (r : Responder), s.RefResponder s.addr r → s.Uncut → s.bound = true → s.proxy = false →
    ∃ t u, exec (.chpwm ch amt) s = .next t ∧ exec (.getchpwm ch) t = .next u ∧
      u.busy = false ∧ u.lastErr = 0 ∧ u.result = BitVec.ofNat 32 (min amt.toNat 4096)

/-- R181: with the reference responder, CHSPWM leaves the registers that its channels' single writes leave in ascending order,
whatever the buffer size. -/
def Obligations.ChspwmStoresWhatChannelWritesStore : Prop :=
  ∀ (first : Byte) (amts : List Half) (s : State) (r : Responder), s.RefResponder s.addr r → s.Uncut → s.bound = true →
    ∃ t r', exec (.chspwm first amts) s = .next t ∧ t.busy = false ∧ t.env = .responder r' ∧
      r'.regs = (channelRun first amts).foldl (fun regs p =>
        storeRun regs (BitVec.ofNat 8 (6 + 4 * p.1.val)) (windowBytes s.cfg.swappedRegs (phaseWindow s.cfg s.pb p.1 p.2))) r.regs

/-! ## The peer's registers: what each command stores, and nothing else (R59) -/

/-- WRREG, CHON, CHOFF, CHPWM and ALLPWM store their registers and no other (R102, R166, R182). -/
def Obligations.RegisterAndWindowWritesStoreExactly : Prop :=
  ∀ (reg v8 ch : Byte) (amt : Half) (s : State) (r : Responder), s.RefResponder s.addr r → s.Uncut → s.bound = true →
    StoresExactly (.wrreg reg v8) s r [(reg, v8)] ∧
    StoresExactly (.chon ch) s r (blockCells s.cfg.swappedRegs (ledBase (channelOf ch)) ⟨0x1000, 0x0000⟩) ∧
    StoresExactly (.choff ch) s r (blockCells s.cfg.swappedRegs (ledBase (channelOf ch)) ⟨0x0000, 0x1000⟩) ∧
    StoresExactly (.chpwm ch amt) s r
      (blockCells s.cfg.swappedRegs (ledBase (channelOf ch)) (phaseWindow s.cfg s.pb (channelOf ch) (min amt.toNat 4096))) ∧
    StoresExactly (.allpwm amt) s r (blockCells s.cfg.swappedRegs 0xFA (allWindow (min amt.toNat 4096)))

/-- INIT stores MODE1 and MODE2 of the peer at the new address and no other register (R120). -/
def Obligations.InitStoresExactlyTheModeRegisters : Prop :=
  ∀ (off mode : Byte) (s : State) (r : Responder), s.env = .responder r → s.Uncut →
    r.ra = s.cfg.baseAddr ||| BitVec.ofNat 7 (min off.toNat 61) →
    StoresExactly (.init off mode) s r
      [(0x00, bitMask s.cfg.mode1.restart ||| bitMask s.cfg.mode1.ai), (0x01, mode)]

/-- SETFREQ, the address commands and ENEXTCLK store MODE1, PRE_SCALE and the address registers as R126 to R138 say, keep every MODE1
bit they do not set or clear (R257), and store no other register. -/
def Obligations.Mode1CommandsStoreExactly : Prop :=
  ∀ (hz : Half) (ab : Byte) (s : State) (r : Responder), s.RefResponder s.addr r → s.Uncut → s.bound = true → s.proxy = false →
    let old := r.reg 0x00
    let m := s.cfg.mode1
    StoresExactly (.setfreq hz) s r
      [(0x00, if old &&& bitMask m.sleep = 0 then old ||| bitMask m.restart else old),
       (0xFE, BitVec.ofInt 8 (prescale (min (max hz.toNat 24) 1526)))] ∧
    StoresExactly (.enallc ab) s r [(0x00, old ||| bitMask m.allcall), (0x05, ab &&& 0xFE)] ∧
    StoresExactly (.ensub1 ab) s r [(0x00, old ||| bitMask m.sub1), (0x02, ab)] ∧
    StoresExactly (.ensub2 ab) s r [(0x00, old ||| bitMask m.sub2), (0x03, ab)] ∧
    StoresExactly (.ensub3 ab) s r [(0x00, old ||| bitMask m.sub3), (0x04, ab)] ∧
    StoresExactly .disallc s r [(0x00, old &&& ~~~bitMask m.allcall)] ∧
    StoresExactly .dissub1 s r [(0x00, old &&& ~~~bitMask m.sub1)] ∧
    StoresExactly .dissub2 s r [(0x00, old &&& ~~~bitMask m.sub2)] ∧
    StoresExactly .dissub3 s r [(0x00, old &&& ~~~bitMask m.sub3)] ∧
    StoresExactly .enextclk s r
      [(0x00, if old &&& bitMask m.sleep = 0 then old ||| bitMask m.extclk ||| bitMask m.restart else old ||| bitMask m.extclk)]

/-- A command that stores nothing leaves every register of the peer as it was, and so does every command whose handle address is not
the peer's (R59). -/
def Obligations.OtherCommandsKeepThePeer : Prop :=
  ∀ (i : Instr) (s t : State) (r : Responder), s.env = .responder r → exec i s = .next t →
    storesNothing i = true ∨ t.addr ≠ r.ra →
    ∃ r', t.env = .responder r' ∧ r'.ra = r.ra ∧ ∀ a, r'.reg a = r.reg a

/-! ## Servo evaluator -/

/-- R197, R198: EVCFG2 and EVCFG3 write the evaluator's four fields, with clamped amounts, and nothing else. -/
def Obligations.EvcfgWritesTheEvaluator : Prop :=
  ∀ (n90 zero p90 : Half) (s : State),
    let amount := fun h : Half => (BitVec.ofNat 13 (min h.toNat 4096) : Boundary)
    exec (.evcfg2 n90 p90) s = .next { s with
      evMode := .linear, evN90 := amount n90, evZero := 0, evP90 := amount p90, busy := false, bus := .idle } ∧
    exec (.evcfg3 n90 zero p90) s = .next { s with
      evMode := .cubic, evN90 := amount n90, evZero := amount zero, evP90 := amount p90, busy := false, bus := .idle }

/-- R204, R207: ANGPWM returns the configured curve's rounded and clamped value at the clamped signed angle, an amount in [0, 4096];
unconfigured, it is a Misuse. -/
def Obligations.AngpwmEvaluatesTheCurve : Prop :=
  ∀ (x : Half) (s : State),
    let angle := min 90 (max (-90) x.toInt)
    let n : Int := s.evN90.toNat
    let z : Int := s.evZero.toNat
    let p : Int := s.evP90.toNat
    (s.evMode = .unconfigured → Misuses (.angpwm x) s .unconfigured) ∧
    (s.evMode ≠ .unconfigured →
      ∃ out : Nat, out ≤ 4096 ∧
        (out : Int) = (if s.evMode = .linear then outAmount (linNum n p angle) 180 else outAmount (cubNum n z p angle) 2916000) ∧
        exec (.angpwm x) s = .next { s with result := BitVec.ofNat 32 out, busy := false, bus := .idle })

/-- R203, R11: the output is the exact quotient rounded half away from zero, then clamped to [0, 4096]. -/
def Obligations.OutputRoundsHalfAwayFromZero : Prop :=
  ∀ (num : Int) (den : Nat), 0 < den →
    let q : ℚ := (num : ℚ) / den
    outAmount num den = max 0 (min 4096 (if 0 ≤ q then ⌊q + 1 / 2⌋ else -⌊-q + 1 / 2⌋))

/-- R205: two-point mode is exact at -90 and 90 and rounds (n + p)/2 at 0; three-point mode is exact at -90, 0 and 90. -/
def Obligations.EvaluatorExactAtCalibrationAngles : Prop :=
  ∀ (n z p : Nat), n ≤ 4096 → z ≤ 4096 → p ≤ 4096 →
    evaluate .linear n 0 p (-90) = some (n : Int) ∧ evaluate .linear n 0 p 90 = some (p : Int) ∧
    evaluate .linear n 0 p 0 = some (((n + p + 1) / 2 : Nat) : Int) ∧
    evaluate .cubic n z p (-90) = some (n : Int) ∧ evaluate .cubic n z p 0 = some (z : Int) ∧
    evaluate .cubic n z p 90 = some (p : Int)

/-- R206: the two sufficient conditions for a non-decreasing map. -/
def Obligations.EvaluatorMonotoneWhenOrdered : Prop :=
  ∀ (n z p : Nat) (x y : Int), n ≤ p → p ≤ 4096 → -90 ≤ x → x ≤ y → y ≤ 90 →
    (∀ a b, evaluate .linear n 0 p x = some a → evaluate .linear n 0 p y = some b → a ≤ b) ∧
    (2 * z = n + p → ∀ a b, evaluate .cubic n z p x = some a → evaluate .cubic n z p y = some b → a ≤ b)

/-- R210: where `2*zero = n90 + p90` the cubic map is the linear one at every angle. -/
def Obligations.StraightCubicIsLinear : Prop :=
  ∀ (n z p x : Int), 2 * z = n + p → -90 ≤ x → x ≤ 90 → evaluate .cubic n z p x = evaluate .linear n 0 p x

/-- R201, R39: the cubic curve is the coefficient view's two pieces, and these meet the conditions of the natural cubic spline:
through the three points, first and second derivatives continuous at 0, second derivative 0 at both ends. -/
def Obligations.CubicCurveIsTheNaturalSpline : Prop :=
  ∀ (n z p x : Int), -90 ≤ x → x ≤ 90 →
    let k0 := cubicPiece0 n z p
    let k1 := cubicPiece1 n z p
    ((cubNum n z p x : ℚ) / 2916000 = if x ≤ 0 then k0.eval (x + 90) else k1.eval x) ∧
    ((linNum n p x : ℚ) / 180 = (linearPiece n p).eval (x + 90)) ∧
    k0.eval 0 = n ∧ k0.eval 90 = z ∧ k1.eval 0 = z ∧ k1.eval 90 = p ∧
    k0.b + 2 * k0.c * 90 + 3 * k0.d * 90 ^ 2 = k1.b ∧ 2 * k0.c + 6 * k0.d * 90 = 2 * k1.c ∧
    2 * k0.c = 0 ∧ 2 * k1.c + 6 * k1.d * 90 = 0

/-! ## The whole machine -/

/-- R216, R219 to R222, R234: exactly the listed commands raise a misuse, for the first reason in the guard order, with no bus
primitive; every other command leaves MISUSE and the kept reason alone. The machine goes on after it (log 6); the kept reason is the
model's own field (log 16); a ProxyRead leaves RESULT open whatever the command returns (R220; log 7). -/
def Obligations.MisuseExactlyByTheModeTable : Prop :=
  ∀ (i : Instr) (s : State),
    (∀ reason, misuseOf i s = some reason → Misuses i s reason) ∧
    (misuseOf i s = none → ∀ t, exec i s = .next t → t.misuse = s.misuse ∧ t.misuseReason = s.misuseReason)

/-- R28, R222, R231: nothing but a reset clears MISUSE, and the first reason stays (the reason is the model's own field, log 16; that
the machine goes on after a Misuse is the model's choice of the two R217 allows, log 6). -/
def Obligations.MisuseIsSticky : Prop :=
  ∀ (s t : State), s.resetIn ≠ .now → s.misuse = true → step s = .next t →
    t.misuse = true ∧ t.misuseReason = s.misuseReason

/-- R36, R37: which commands may write which fields; whatever the state, every other field is unchanged. R36 gives CP to every command:
that exec, which sees CP already past the words and the words in hand already used, leaves both is the model's reading (log 9). The
reset input changes only where it counts down to a reset inside the command (log 11), and a ProxyRead, by R220, leaves RESULT open
whatever the command returns (log 7). -/
def Obligations.OnlyTheListedCommandsWriteEachField : Prop :=
  ∀ (i : Instr) (s t : State), exec i s = .next t →
    ((∀ off mode, i ≠ .init off mode) → (∀ a7, i ≠ .initpx a7) → t.addr = s.addr ∧ t.bound = s.bound ∧ t.proxy = s.proxy) ∧
    (i ≠ .swrst → t.srstDone = s.srstDone) ∧
    ((∀ n p, i ≠ .evcfg2 n p) → (∀ n z p, i ≠ .evcfg3 n z p) →
      t.evMode = s.evMode ∧ t.evN90 = s.evN90 ∧ t.evZero = s.evZero ∧ t.evP90 = s.evP90) ∧
    (valueReturning i = false → misuseOf i s ≠ some .proxyRead → t.result = s.result) ∧
    (issuesTxEnd i = false → t.lastErr = s.lastErr ∧ t.trace = s.trace ∧ t.env = s.env) ∧
    t.pb = s.pb ∧ t.cfg = s.cfg ∧ t.cp = s.cp ∧ t.stream = s.stream ∧ t.taken = s.taken ∧ (s.Uncut → t.resetIn = s.resetIn)

/-- R233: nothing returns the PBE to Unbound except reset, and only INIT and INITPX choose between Direct and Proxy: a step that is no
reset keeps the handle mode, or runs an INIT and leaves Direct, or an INITPX and leaves Proxy. -/
def Obligations.OnlyResetUnbinds : Prop :=
  ∀ (s t : State), s.resetIn ≠ .now → step s = .next t →
    (s.handleMode ≠ .unbound → t.handleMode ≠ .unbound) ∧
    (t.handleMode = s.handleMode ∨
      ∃ i len, decode s.wordsAhead = .command i len ∧
        (((∃ off mode, i = .init off mode) ∧ t.handleMode = .direct) ∨ ((∃ a7, i = .initpx a7) ∧ t.handleMode = .proxy)))

/-- R32, R253, R262: STATUS shows each field at its place, PB and EVMODE by their codes (R26, R30), and its reserved byte reads 0. The
host's reads: with BUSY = 0 they give RESULT and STATUS and change nothing; with BUSY = 1 a read of STATUS shows BUSY exactly and its
reserved byte 0. That such a read's other fields are left open, and that a read with BUSY = 1 changes the count of free values alone, is the
model's reading (log 20). -/
def Obligations.StatusShowsEveryField : Prop :=
  ∀ (s : State),
    (s.status.extractLsb' 0 8 = s.lastErr ∧ s.status.getLsbD 8 = s.misuse ∧ s.status.getLsbD 9 = s.bound ∧
      s.status.getLsbD 10 = s.proxy ∧ s.status.getLsbD 11 = s.srstDone ∧
      s.status.extractLsb' 12 2 = (match s.pb with | .none => 0 | .linear => 1 | .weaved => 2) ∧
      s.status.extractLsb' 14 2 = (match s.evMode with | .unconfigured => 0 | .linear => 1 | .cubic => 2) ∧
      s.status.extractLsb' 16 7 = s.addr ∧ s.status.getLsbD 23 = s.busy ∧
      s.status.extractLsb' 24 8 = 0) ∧
    (s.busy = false → s.hostReadsResult = (s.result, s) ∧ s.hostReadsStatus = (s.status, s)) ∧
    (s.busy = true →
      s.hostReadsStatus.1.getLsbD 23 = true ∧ s.hostReadsStatus.1.extractLsb' 24 8 = 0 ∧
      s.hostReadsStatus.2 = { s with draws := s.draws + 1 } ∧ s.hostReadsResult.2 = { s with draws := s.draws + 1 })
end

