-- ==== Sys2Proof/Laws/Memory.lean ====
section
/-! SUPPORT. The byte memory: a read after a write, and that every write keeps the canonical form. -/

namespace Sys2Proof.Machine

@[simp] theorem Memory.read_nil (a : Nat) : Memory.read [] a = none := rfl

theorem Memory.read_write_same (m : Memory) (a : Nat) (b : Byte) : Memory.read (Memory.write m a b) a = some b := by
  induction m with
  | nil => simp [Memory.write, Memory.read]
  | cons c m ih =>
    obtain ⟨k, v⟩ := c
    by_cases hlt : a < k
    · simp [Memory.write, Memory.read, hlt]
    · by_cases heq : a = k
      · simp [Memory.write, Memory.read, heq]
      · have hk : ¬ k = a := fun h => heq h.symm
        simp [Memory.write, Memory.read, hlt, heq, hk, ih]

theorem Memory.read_write_other (m : Memory) (a a' : Nat) (b : Byte) (h : a' ≠ a) :
    Memory.read (Memory.write m a b) a' = Memory.read m a' := by
  have h' : ¬ a = a' := fun e => h e.symm
  induction m with
  | nil => simp [Memory.write, Memory.read, h']
  | cons c m ih =>
    obtain ⟨k, v⟩ := c
    by_cases hlt : a < k
    · simp [Memory.write, Memory.read, hlt, h']
    · by_cases heq : a = k
      · subst heq
        simp [Memory.write, Memory.read, h']
      · simp [Memory.write, Memory.read, hlt, heq, ih]

/-- The addresses a write leaves listed: the old ones and the written one. -/
theorem Memory.mem_write {m : Memory} {a : Nat} {b : Byte} {c : Host.Cell} (h : c ∈ Memory.write m a b) :
    c = (a, b) ∨ c ∈ m := by
  induction m with
  | nil => simpa [Memory.write] using h
  | cons d m ih =>
    obtain ⟨k, v⟩ := d
    unfold Memory.write at h
    split at h
    · simpa using h
    · split at h
      · simp only [List.mem_cons] at h ⊢
        tauto
      · simp only [List.mem_cons] at h ⊢
        rcases h with h | h
        · tauto
        · rcases ih h with h | h <;> tauto

theorem Memory.pairwise_write {m : Memory} (a : Nat) (b : Byte) (h : m.Pairwise fun x y => x.1 < y.1) :
    (Memory.write m a b).Pairwise fun x y => x.1 < y.1 := by
  induction m with
  | nil => simp [Memory.write]
  | cons d m ih =>
    obtain ⟨k, v⟩ := d
    obtain ⟨hd, ht⟩ := List.pairwise_cons.mp h
    unfold Memory.write
    split
    · rename_i hlt
      refine List.pairwise_cons.mpr ⟨fun c hc => ?_, h⟩
      rcases List.mem_cons.mp hc with rfl | hc
      · exact hlt
      · exact Nat.lt_trans hlt (hd c hc)
    · split
      · rename_i heq
        subst heq
        exact List.pairwise_cons.mpr ⟨hd, ht⟩
      · rename_i hge hne
        refine List.pairwise_cons.mpr ⟨fun c hc => ?_, ih ht⟩
        rcases Memory.mem_write hc with rfl | hc
        · simp only
          omega
        · exact hd c hc

/-- A write keeps the canonical form. -/
theorem Memory.wf_write {m : Memory} (a : Byte) (b : Byte) (h : Memory.wf m) : Memory.wf (Memory.write m a.toNat b) := by
  refine ⟨Memory.pairwise_write _ _ h.1, fun c hc => ?_⟩
  rcases Memory.mem_write hc with rfl | hc
  · exact a.isLt
  · exact h.2 c hc

/-- A run of stores keeps the canonical form. -/
theorem wf_storeRun {m : Memory} (reg : Byte) (bytes : List Byte) (h : Memory.wf m) : Memory.wf (storeRun m reg bytes) := by
  induction bytes generalizing m reg with
  | nil => exact h
  | cons b bs ih => exact ih _ (Memory.wf_write reg b h)

theorem storeRun_append (m : Memory) (reg : Byte) (xs ys : List Byte) :
    storeRun m reg (xs ++ ys) = storeRun (storeRun m reg xs) (reg + BitVec.ofNat 8 xs.length) ys := by
  induction xs generalizing m reg with
  | nil => simp [storeRun]
  | cons x xs ih =>
    have hreg : reg + 1 + BitVec.ofNat 8 xs.length = reg + BitVec.ofNat 8 (x :: xs).length := by
      apply BitVec.eq_of_toNat_eq
      have one : (1 : Byte).toNat = 1 := rfl
      simp only [BitVec.toNat_add, BitVec.toNat_ofNat, List.length_cons, one]
      omega
    simp only [List.cons_append, storeRun, ih, hreg]

theorem byte_add_succ (reg : Byte) (j : Nat) : reg + 1 + BitVec.ofNat 8 j = reg + BitVec.ofNat 8 (j + 1) := by
  apply BitVec.eq_of_toNat_eq
  have one : (1 : Byte).toNat = 1 := rfl
  simp only [BitVec.toNat_add, BitVec.toNat_ofNat, one]
  omega

/-- A run of stores leaves every register outside it as it was. -/
theorem read_storeRun_other (m : Memory) (reg : Byte) (bytes : List Byte) (a : Byte)
    (h : ∀ j < bytes.length, a ≠ reg + BitVec.ofNat 8 j) :
    Memory.read (storeRun m reg bytes) a.toNat = Memory.read m a.toNat := by
  induction bytes generalizing m reg with
  | nil => rfl
  | cons b bs ih =>
    have hne : a ≠ reg := by simpa using h 0 (by simp)
    refine (ih (Memory.write m reg.toNat b) (reg + 1) fun j hj => ?_).trans
      (Memory.read_write_other _ _ _ _ fun e => hne (BitVec.eq_of_toNat_eq e))
    rw [byte_add_succ]
    exact h (j + 1) (by simpa using hj)

/-- Any register reads as before a run of stores, or as one of the bytes stored. -/
theorem read_storeRun (m : Memory) (reg : Byte) (bytes : List Byte) (a : Nat) :
    Memory.read (storeRun m reg bytes) a = Memory.read m a ∨ ∃ b ∈ bytes, Memory.read (storeRun m reg bytes) a = some b := by
  induction bytes generalizing m reg with
  | nil => exact .inl rfl
  | cons b bs ih =>
    rcases ih (Memory.write m reg.toNat b) (reg + 1) with h | ⟨c, hc, h⟩
    · by_cases ha : a = reg.toNat
      · subst ha
        rw [Memory.read_write_same] at h
        exact .inr ⟨b, by simp, h⟩
      · rw [Memory.read_write_other _ _ _ _ ha] at h
        exact .inl h
    · exact .inr ⟨c, by simp [hc], h⟩

/-- A register inside a run of stores, which may wrap, reads as one of the bytes stored. -/
theorem read_storeRun_stored (m : Memory) (reg : Byte) (bytes : List Byte) (j : Nat) (hj : j < bytes.length) :
    ∃ b ∈ bytes, Memory.read (storeRun m reg bytes) (reg + BitVec.ofNat 8 j).toNat = some b := by
  induction bytes generalizing m reg j with
  | nil => simp at hj
  | cons b bs ih =>
    cases j with
    | zero =>
      rcases read_storeRun (Memory.write m reg.toNat b) (reg + 1) bs (reg + BitVec.ofNat 8 0).toNat with h | ⟨c, hc, h⟩
      · exact ⟨b, by simp, h.trans (by simp [Memory.read_write_same])⟩
      · exact ⟨c, by simp [hc], h⟩
    | succ j =>
      obtain ⟨c, hc, h⟩ := ih (Memory.write m reg.toNat b) (reg + 1) j (by simpa using hj)
      rw [byte_add_succ] at h
      exact ⟨c, by simp [hc], h⟩

/-- A store leaves every other register's reading alone. -/
theorem Responder.reg_write_other (r : Responder) (m : Memory) (a a' : Byte) (b : Byte) (h : a' ≠ a) :
    Responder.reg { r with regs := Memory.write m a.toNat b } a' = Responder.reg { r with regs := m } a' := by
  have hn : a'.toNat ≠ a.toNat := fun e => h (BitVec.eq_of_toNat_eq e)
  simp [Responder.reg, Memory.read_write_other _ _ _ _ hn]

theorem Responder.reg_write_same (r : Responder) (m : Memory) (a : Byte) (b : Byte) :
    Responder.reg { r with regs := Memory.write m a.toNat b } a = b := by
  simp [Responder.reg, Memory.read_write_same]

end Sys2Proof.Machine
end

