-- ==== Sys2Proof/Laws/State.lean ====
section
/-! SUPPORT. One lemma per field and named update of the state, so that no proof unfolds a record update. -/

namespace Sys2Proof.Machine

@[simp] theorem State.complete_cfg (s : State) : s.complete.cfg = s.cfg := rfl
@[simp] theorem State.complete_stream (s : State) : s.complete.stream = s.stream := rfl
@[simp] theorem State.complete_resetIn (s : State) : s.complete.resetIn = s.resetIn := rfl
@[simp] theorem State.complete_env (s : State) : s.complete.env = s.env := rfl
@[simp] theorem State.complete_draws (s : State) : s.complete.draws = s.draws := rfl
@[simp] theorem State.complete_cp (s : State) : s.complete.cp = s.cp := rfl
@[simp] theorem State.complete_taken (s : State) : s.complete.taken = s.taken := rfl
@[simp] theorem State.complete_addr (s : State) : s.complete.addr = s.addr := rfl
@[simp] theorem State.complete_bound (s : State) : s.complete.bound = s.bound := rfl
@[simp] theorem State.complete_proxy (s : State) : s.complete.proxy = s.proxy := rfl
@[simp] theorem State.complete_pb (s : State) : s.complete.pb = s.pb := rfl
@[simp] theorem State.complete_lastErr (s : State) : s.complete.lastErr = s.lastErr := rfl
@[simp] theorem State.complete_misuse (s : State) : s.complete.misuse = s.misuse := rfl
@[simp] theorem State.complete_misuseReason (s : State) : s.complete.misuseReason = s.misuseReason := rfl
@[simp] theorem State.complete_srstDone (s : State) : s.complete.srstDone = s.srstDone := rfl
@[simp] theorem State.complete_evMode (s : State) : s.complete.evMode = s.evMode := rfl
@[simp] theorem State.complete_evN90 (s : State) : s.complete.evN90 = s.evN90 := rfl
@[simp] theorem State.complete_evZero (s : State) : s.complete.evZero = s.evZero := rfl
@[simp] theorem State.complete_evP90 (s : State) : s.complete.evP90 = s.evP90 := rfl
@[simp] theorem State.complete_result (s : State) : s.complete.result = s.result := rfl
@[simp] theorem State.complete_busy (s : State) : s.complete.busy = false := rfl
@[simp] theorem State.complete_bus (s : State) : s.complete.bus = .idle := rfl
@[simp] theorem State.complete_stall (s : State) : s.complete.stall = s.stall := rfl
@[simp] theorem State.complete_trace (s : State) : s.complete.trace = s.trace := rfl

@[simp] theorem State.setResult_cfg (s : State) (v : Word) : (s.setResult v).cfg = s.cfg := rfl
@[simp] theorem State.setResult_stream (s : State) (v : Word) : (s.setResult v).stream = s.stream := rfl
@[simp] theorem State.setResult_resetIn (s : State) (v : Word) : (s.setResult v).resetIn = s.resetIn := rfl
@[simp] theorem State.setResult_env (s : State) (v : Word) : (s.setResult v).env = s.env := rfl
@[simp] theorem State.setResult_draws (s : State) (v : Word) : (s.setResult v).draws = s.draws := rfl
@[simp] theorem State.setResult_cp (s : State) (v : Word) : (s.setResult v).cp = s.cp := rfl
@[simp] theorem State.setResult_taken (s : State) (v : Word) : (s.setResult v).taken = s.taken := rfl
@[simp] theorem State.setResult_addr (s : State) (v : Word) : (s.setResult v).addr = s.addr := rfl
@[simp] theorem State.setResult_bound (s : State) (v : Word) : (s.setResult v).bound = s.bound := rfl
@[simp] theorem State.setResult_proxy (s : State) (v : Word) : (s.setResult v).proxy = s.proxy := rfl
@[simp] theorem State.setResult_pb (s : State) (v : Word) : (s.setResult v).pb = s.pb := rfl
@[simp] theorem State.setResult_lastErr (s : State) (v : Word) : (s.setResult v).lastErr = s.lastErr := rfl
@[simp] theorem State.setResult_misuse (s : State) (v : Word) : (s.setResult v).misuse = s.misuse := rfl
@[simp] theorem State.setResult_misuseReason (s : State) (v : Word) : (s.setResult v).misuseReason = s.misuseReason := rfl
@[simp] theorem State.setResult_srstDone (s : State) (v : Word) : (s.setResult v).srstDone = s.srstDone := rfl
@[simp] theorem State.setResult_evMode (s : State) (v : Word) : (s.setResult v).evMode = s.evMode := rfl
@[simp] theorem State.setResult_evN90 (s : State) (v : Word) : (s.setResult v).evN90 = s.evN90 := rfl
@[simp] theorem State.setResult_evZero (s : State) (v : Word) : (s.setResult v).evZero = s.evZero := rfl
@[simp] theorem State.setResult_evP90 (s : State) (v : Word) : (s.setResult v).evP90 = s.evP90 := rfl
@[simp] theorem State.setResult_result (s : State) (v : Word) : (s.setResult v).result = v := rfl
@[simp] theorem State.setResult_busy (s : State) (v : Word) : (s.setResult v).busy = s.busy := rfl
@[simp] theorem State.setResult_bus (s : State) (v : Word) : (s.setResult v).bus = s.bus := rfl
@[simp] theorem State.setResult_stall (s : State) (v : Word) : (s.setResult v).stall = s.stall := rfl
@[simp] theorem State.setResult_trace (s : State) (v : Word) : (s.setResult v).trace = s.trace := rfl

@[simp] theorem State.log_cfg (s : State) (e : BusEvent) : (s.log e).cfg = s.cfg := rfl
@[simp] theorem State.log_stream (s : State) (e : BusEvent) : (s.log e).stream = s.stream := rfl
@[simp] theorem State.log_resetIn (s : State) (e : BusEvent) : (s.log e).resetIn = s.resetIn := rfl
@[simp] theorem State.log_env (s : State) (e : BusEvent) : (s.log e).env = s.env := rfl
@[simp] theorem State.log_draws (s : State) (e : BusEvent) : (s.log e).draws = s.draws := rfl
@[simp] theorem State.log_cp (s : State) (e : BusEvent) : (s.log e).cp = s.cp := rfl
@[simp] theorem State.log_taken (s : State) (e : BusEvent) : (s.log e).taken = s.taken := rfl
@[simp] theorem State.log_addr (s : State) (e : BusEvent) : (s.log e).addr = s.addr := rfl
@[simp] theorem State.log_bound (s : State) (e : BusEvent) : (s.log e).bound = s.bound := rfl
@[simp] theorem State.log_proxy (s : State) (e : BusEvent) : (s.log e).proxy = s.proxy := rfl
@[simp] theorem State.log_pb (s : State) (e : BusEvent) : (s.log e).pb = s.pb := rfl
@[simp] theorem State.log_lastErr (s : State) (e : BusEvent) : (s.log e).lastErr = s.lastErr := rfl
@[simp] theorem State.log_misuse (s : State) (e : BusEvent) : (s.log e).misuse = s.misuse := rfl
@[simp] theorem State.log_misuseReason (s : State) (e : BusEvent) : (s.log e).misuseReason = s.misuseReason := rfl
@[simp] theorem State.log_srstDone (s : State) (e : BusEvent) : (s.log e).srstDone = s.srstDone := rfl
@[simp] theorem State.log_evMode (s : State) (e : BusEvent) : (s.log e).evMode = s.evMode := rfl
@[simp] theorem State.log_evN90 (s : State) (e : BusEvent) : (s.log e).evN90 = s.evN90 := rfl
@[simp] theorem State.log_evZero (s : State) (e : BusEvent) : (s.log e).evZero = s.evZero := rfl
@[simp] theorem State.log_evP90 (s : State) (e : BusEvent) : (s.log e).evP90 = s.evP90 := rfl
@[simp] theorem State.log_result (s : State) (e : BusEvent) : (s.log e).result = s.result := rfl
@[simp] theorem State.log_busy (s : State) (e : BusEvent) : (s.log e).busy = s.busy := rfl
@[simp] theorem State.log_bus (s : State) (e : BusEvent) : (s.log e).bus = s.bus := rfl
@[simp] theorem State.log_stall (s : State) (e : BusEvent) : (s.log e).stall = s.stall := rfl
@[simp] theorem State.log_trace (s : State) (e : BusEvent) : (s.log e).trace = s.trace ++ [e] := rfl

@[simp] theorem State.heldIn_cfg (s : State) (a : Action) : (s.heldIn a).cfg = s.cfg := rfl
@[simp] theorem State.heldIn_stream (s : State) (a : Action) : (s.heldIn a).stream = s.stream := rfl
@[simp] theorem State.heldIn_resetIn (s : State) (a : Action) : (s.heldIn a).resetIn = s.resetIn := rfl
@[simp] theorem State.heldIn_env (s : State) (a : Action) : (s.heldIn a).env = s.env := rfl
@[simp] theorem State.heldIn_draws (s : State) (a : Action) : (s.heldIn a).draws = s.draws := rfl
@[simp] theorem State.heldIn_cp (s : State) (a : Action) : (s.heldIn a).cp = s.cp := rfl
@[simp] theorem State.heldIn_taken (s : State) (a : Action) : (s.heldIn a).taken = s.taken := rfl
@[simp] theorem State.heldIn_addr (s : State) (a : Action) : (s.heldIn a).addr = s.addr := rfl
@[simp] theorem State.heldIn_bound (s : State) (a : Action) : (s.heldIn a).bound = s.bound := rfl
@[simp] theorem State.heldIn_proxy (s : State) (a : Action) : (s.heldIn a).proxy = s.proxy := rfl
@[simp] theorem State.heldIn_pb (s : State) (a : Action) : (s.heldIn a).pb = s.pb := rfl
@[simp] theorem State.heldIn_lastErr (s : State) (a : Action) : (s.heldIn a).lastErr = s.lastErr := rfl
@[simp] theorem State.heldIn_misuse (s : State) (a : Action) : (s.heldIn a).misuse = s.misuse := rfl
@[simp] theorem State.heldIn_misuseReason (s : State) (a : Action) : (s.heldIn a).misuseReason = s.misuseReason := rfl
@[simp] theorem State.heldIn_srstDone (s : State) (a : Action) : (s.heldIn a).srstDone = s.srstDone := rfl
@[simp] theorem State.heldIn_evMode (s : State) (a : Action) : (s.heldIn a).evMode = s.evMode := rfl
@[simp] theorem State.heldIn_evN90 (s : State) (a : Action) : (s.heldIn a).evN90 = s.evN90 := rfl
@[simp] theorem State.heldIn_evZero (s : State) (a : Action) : (s.heldIn a).evZero = s.evZero := rfl
@[simp] theorem State.heldIn_evP90 (s : State) (a : Action) : (s.heldIn a).evP90 = s.evP90 := rfl
@[simp] theorem State.heldIn_result (s : State) (a : Action) : (s.heldIn a).result = s.result := rfl
@[simp] theorem State.heldIn_busy (s : State) (a : Action) : (s.heldIn a).busy = true := rfl
@[simp] theorem State.heldIn_bus (s : State) (a : Action) : (s.heldIn a).bus = s.bus := rfl
@[simp] theorem State.heldIn_stall (s : State) (a : Action) : (s.heldIn a).stall = some ⟨a, none⟩ := rfl
@[simp] theorem State.heldIn_trace (s : State) (a : Action) : (s.heldIn a).trace = s.trace := rfl

@[simp] theorem State.drawResult_cfg (s : State) : s.drawResult.cfg = s.cfg := rfl
@[simp] theorem State.drawResult_stream (s : State) : s.drawResult.stream = s.stream := rfl
@[simp] theorem State.drawResult_resetIn (s : State) : s.drawResult.resetIn = s.resetIn := rfl
@[simp] theorem State.drawResult_env (s : State) : s.drawResult.env = s.env := rfl
@[simp] theorem State.drawResult_draws (s : State) : s.drawResult.draws = s.draws + 1 := rfl
@[simp] theorem State.drawResult_cp (s : State) : s.drawResult.cp = s.cp := rfl
@[simp] theorem State.drawResult_taken (s : State) : s.drawResult.taken = s.taken := rfl
@[simp] theorem State.drawResult_addr (s : State) : s.drawResult.addr = s.addr := rfl
@[simp] theorem State.drawResult_bound (s : State) : s.drawResult.bound = s.bound := rfl
@[simp] theorem State.drawResult_proxy (s : State) : s.drawResult.proxy = s.proxy := rfl
@[simp] theorem State.drawResult_pb (s : State) : s.drawResult.pb = s.pb := rfl
@[simp] theorem State.drawResult_lastErr (s : State) : s.drawResult.lastErr = s.lastErr := rfl
@[simp] theorem State.drawResult_misuse (s : State) : s.drawResult.misuse = s.misuse := rfl
@[simp] theorem State.drawResult_misuseReason (s : State) : s.drawResult.misuseReason = s.misuseReason := rfl
@[simp] theorem State.drawResult_srstDone (s : State) : s.drawResult.srstDone = s.srstDone := rfl
@[simp] theorem State.drawResult_evMode (s : State) : s.drawResult.evMode = s.evMode := rfl
@[simp] theorem State.drawResult_evN90 (s : State) : s.drawResult.evN90 = s.evN90 := rfl
@[simp] theorem State.drawResult_evZero (s : State) : s.drawResult.evZero = s.evZero := rfl
@[simp] theorem State.drawResult_evP90 (s : State) : s.drawResult.evP90 = s.evP90 := rfl
@[simp] theorem State.drawResult_result (s : State) : s.drawResult.result = Config.freeWord s.draws := rfl
@[simp] theorem State.drawResult_busy (s : State) : s.drawResult.busy = s.busy := rfl
@[simp] theorem State.drawResult_bus (s : State) : s.drawResult.bus = s.bus := rfl
@[simp] theorem State.drawResult_stall (s : State) : s.drawResult.stall = s.stall := rfl
@[simp] theorem State.drawResult_trace (s : State) : s.drawResult.trace = s.trace := rfl

@[simp] theorem State.accept_cfg (s : State) (len : Nat) : (s.accept len).cfg = s.cfg := rfl
@[simp] theorem State.accept_stream (s : State) (len : Nat) : (s.accept len).stream = s.stream := rfl
@[simp] theorem State.accept_resetIn (s : State) (len : Nat) : (s.accept len).resetIn = s.resetIn := rfl
@[simp] theorem State.accept_env (s : State) (len : Nat) : (s.accept len).env = s.env := rfl
@[simp] theorem State.accept_draws (s : State) (len : Nat) : (s.accept len).draws = s.draws := rfl
@[simp] theorem State.accept_cp (s : State) (len : Nat) : (s.accept len).cp = s.cp + (len - s.taken.length) := rfl
@[simp] theorem State.accept_taken (s : State) (len : Nat) : (s.accept len).taken = [] := rfl
@[simp] theorem State.accept_addr (s : State) (len : Nat) : (s.accept len).addr = s.addr := rfl
@[simp] theorem State.accept_bound (s : State) (len : Nat) : (s.accept len).bound = s.bound := rfl
@[simp] theorem State.accept_proxy (s : State) (len : Nat) : (s.accept len).proxy = s.proxy := rfl
@[simp] theorem State.accept_pb (s : State) (len : Nat) : (s.accept len).pb = s.pb := rfl
@[simp] theorem State.accept_lastErr (s : State) (len : Nat) : (s.accept len).lastErr = s.lastErr := rfl
@[simp] theorem State.accept_misuse (s : State) (len : Nat) : (s.accept len).misuse = s.misuse := rfl
@[simp] theorem State.accept_misuseReason (s : State) (len : Nat) : (s.accept len).misuseReason = s.misuseReason := rfl
@[simp] theorem State.accept_srstDone (s : State) (len : Nat) : (s.accept len).srstDone = s.srstDone := rfl
@[simp] theorem State.accept_evMode (s : State) (len : Nat) : (s.accept len).evMode = s.evMode := rfl
@[simp] theorem State.accept_evN90 (s : State) (len : Nat) : (s.accept len).evN90 = s.evN90 := rfl
@[simp] theorem State.accept_evZero (s : State) (len : Nat) : (s.accept len).evZero = s.evZero := rfl
@[simp] theorem State.accept_evP90 (s : State) (len : Nat) : (s.accept len).evP90 = s.evP90 := rfl
@[simp] theorem State.accept_result (s : State) (len : Nat) : (s.accept len).result = s.result := rfl
@[simp] theorem State.accept_busy (s : State) (len : Nat) : (s.accept len).busy = true := rfl
@[simp] theorem State.accept_bus (s : State) (len : Nat) : (s.accept len).bus = s.bus := rfl
@[simp] theorem State.accept_stall (s : State) (len : Nat) : (s.accept len).stall = s.stall := rfl
@[simp] theorem State.accept_trace (s : State) (len : Nat) : (s.accept len).trace = s.trace := rfl

@[simp] theorem State.awaitWords_cfg (s : State) : s.awaitWords.cfg = s.cfg := rfl
@[simp] theorem State.awaitWords_stream (s : State) : s.awaitWords.stream = s.stream := rfl
@[simp] theorem State.awaitWords_resetIn (s : State) : s.awaitWords.resetIn = s.resetIn := rfl
@[simp] theorem State.awaitWords_env (s : State) : s.awaitWords.env = s.env := rfl
@[simp] theorem State.awaitWords_draws (s : State) : s.awaitWords.draws = s.draws := rfl
@[simp] theorem State.awaitWords_cp (s : State) : s.awaitWords.cp = s.cp + (s.stream.drop s.cp).length := rfl
@[simp] theorem State.awaitWords_taken (s : State) : s.awaitWords.taken = s.wordsAhead := rfl
@[simp] theorem State.awaitWords_addr (s : State) : s.awaitWords.addr = s.addr := rfl
@[simp] theorem State.awaitWords_bound (s : State) : s.awaitWords.bound = s.bound := rfl
@[simp] theorem State.awaitWords_proxy (s : State) : s.awaitWords.proxy = s.proxy := rfl
@[simp] theorem State.awaitWords_pb (s : State) : s.awaitWords.pb = s.pb := rfl
@[simp] theorem State.awaitWords_lastErr (s : State) : s.awaitWords.lastErr = s.lastErr := rfl
@[simp] theorem State.awaitWords_misuse (s : State) : s.awaitWords.misuse = s.misuse := rfl
@[simp] theorem State.awaitWords_misuseReason (s : State) : s.awaitWords.misuseReason = s.misuseReason := rfl
@[simp] theorem State.awaitWords_srstDone (s : State) : s.awaitWords.srstDone = s.srstDone := rfl
@[simp] theorem State.awaitWords_evMode (s : State) : s.awaitWords.evMode = s.evMode := rfl
@[simp] theorem State.awaitWords_evN90 (s : State) : s.awaitWords.evN90 = s.evN90 := rfl
@[simp] theorem State.awaitWords_evZero (s : State) : s.awaitWords.evZero = s.evZero := rfl
@[simp] theorem State.awaitWords_evP90 (s : State) : s.awaitWords.evP90 = s.evP90 := rfl
@[simp] theorem State.awaitWords_result (s : State) : s.awaitWords.result = s.result := rfl
@[simp] theorem State.awaitWords_busy (s : State) : s.awaitWords.busy = true := rfl
@[simp] theorem State.awaitWords_bus (s : State) : s.awaitWords.bus = s.bus := rfl
@[simp] theorem State.awaitWords_stall (s : State) : s.awaitWords.stall = s.stall := rfl
@[simp] theorem State.awaitWords_trace (s : State) : s.awaitWords.trace = s.trace := rfl

@[simp] theorem State.applyReset_cfg (s : State) : s.applyReset.cfg = s.cfg := rfl
@[simp] theorem State.applyReset_stream (s : State) : s.applyReset.stream = s.stream := rfl
@[simp] theorem State.applyReset_resetIn (s : State) : s.applyReset.resetIn = .off := rfl
@[simp] theorem State.applyReset_env (s : State) : s.applyReset.env = s.cutEnv := rfl
@[simp] theorem State.applyReset_draws (s : State) : s.applyReset.draws = s.draws + s.resetDraws := rfl
@[simp] theorem State.applyReset_cp (s : State) : s.applyReset.cp = 0 := rfl
@[simp] theorem State.applyReset_taken (s : State) : s.applyReset.taken = [] := rfl
@[simp] theorem State.applyReset_addr (s : State) : s.applyReset.addr = 0 := rfl
@[simp] theorem State.applyReset_bound (s : State) : s.applyReset.bound = false := rfl
@[simp] theorem State.applyReset_proxy (s : State) : s.applyReset.proxy = false := rfl
@[simp] theorem State.applyReset_pb (s : State) : s.applyReset.pb = s.cfg.pbStrap := rfl
@[simp] theorem State.applyReset_lastErr (s : State) : s.applyReset.lastErr = 0 := rfl
@[simp] theorem State.applyReset_misuse (s : State) : s.applyReset.misuse = false := rfl
@[simp] theorem State.applyReset_misuseReason (s : State) : s.applyReset.misuseReason = none := rfl
@[simp] theorem State.applyReset_srstDone (s : State) : s.applyReset.srstDone = false := rfl
@[simp] theorem State.applyReset_evMode (s : State) : s.applyReset.evMode = .unconfigured := rfl
@[simp] theorem State.applyReset_evN90 (s : State) : s.applyReset.evN90 = 0 := rfl
@[simp] theorem State.applyReset_evZero (s : State) : s.applyReset.evZero = 0 := rfl
@[simp] theorem State.applyReset_evP90 (s : State) : s.applyReset.evP90 = 0 := rfl
@[simp] theorem State.applyReset_result (s : State) : s.applyReset.result = Config.freeWord s.draws := rfl
@[simp] theorem State.applyReset_busy (s : State) : s.applyReset.busy = false := rfl
@[simp] theorem State.applyReset_bus (s : State) : s.applyReset.bus = .idle := rfl
@[simp] theorem State.applyReset_stall (s : State) : s.applyReset.stall = none := rfl
@[simp] theorem State.applyReset_trace (s : State) : s.applyReset.trace = s.trace := rfl

@[simp] theorem State.raiseMisuse_cfg (s : State) (reason : MisuseReason) (vr : Bool) : (s.raiseMisuse reason vr).cfg = s.cfg := by cases vr <;> rfl
@[simp] theorem State.raiseMisuse_stream (s : State) (reason : MisuseReason) (vr : Bool) : (s.raiseMisuse reason vr).stream = s.stream := by cases vr <;> rfl
@[simp] theorem State.raiseMisuse_resetIn (s : State) (reason : MisuseReason) (vr : Bool) : (s.raiseMisuse reason vr).resetIn = s.resetIn := by cases vr <;> rfl
@[simp] theorem State.raiseMisuse_env (s : State) (reason : MisuseReason) (vr : Bool) : (s.raiseMisuse reason vr).env = s.env := by cases vr <;> rfl
@[simp] theorem State.raiseMisuse_cp (s : State) (reason : MisuseReason) (vr : Bool) : (s.raiseMisuse reason vr).cp = s.cp := by cases vr <;> rfl
@[simp] theorem State.raiseMisuse_taken (s : State) (reason : MisuseReason) (vr : Bool) : (s.raiseMisuse reason vr).taken = s.taken := by cases vr <;> rfl
@[simp] theorem State.raiseMisuse_addr (s : State) (reason : MisuseReason) (vr : Bool) : (s.raiseMisuse reason vr).addr = s.addr := by cases vr <;> rfl
@[simp] theorem State.raiseMisuse_bound (s : State) (reason : MisuseReason) (vr : Bool) : (s.raiseMisuse reason vr).bound = s.bound := by cases vr <;> rfl
@[simp] theorem State.raiseMisuse_proxy (s : State) (reason : MisuseReason) (vr : Bool) : (s.raiseMisuse reason vr).proxy = s.proxy := by cases vr <;> rfl
@[simp] theorem State.raiseMisuse_pb (s : State) (reason : MisuseReason) (vr : Bool) : (s.raiseMisuse reason vr).pb = s.pb := by cases vr <;> rfl
@[simp] theorem State.raiseMisuse_lastErr (s : State) (reason : MisuseReason) (vr : Bool) : (s.raiseMisuse reason vr).lastErr = s.lastErr := by cases vr <;> rfl
@[simp] theorem State.raiseMisuse_misuse (s : State) (reason : MisuseReason) (vr : Bool) : (s.raiseMisuse reason vr).misuse = true := by cases vr <;> rfl
@[simp] theorem State.raiseMisuse_misuseReason (s : State) (reason : MisuseReason) (vr : Bool) : (s.raiseMisuse reason vr).misuseReason = (if s.misuse then s.misuseReason else some reason) := by cases vr <;> rfl
@[simp] theorem State.raiseMisuse_srstDone (s : State) (reason : MisuseReason) (vr : Bool) : (s.raiseMisuse reason vr).srstDone = s.srstDone := by cases vr <;> rfl
@[simp] theorem State.raiseMisuse_evMode (s : State) (reason : MisuseReason) (vr : Bool) : (s.raiseMisuse reason vr).evMode = s.evMode := by cases vr <;> rfl
@[simp] theorem State.raiseMisuse_evN90 (s : State) (reason : MisuseReason) (vr : Bool) : (s.raiseMisuse reason vr).evN90 = s.evN90 := by cases vr <;> rfl
@[simp] theorem State.raiseMisuse_evZero (s : State) (reason : MisuseReason) (vr : Bool) : (s.raiseMisuse reason vr).evZero = s.evZero := by cases vr <;> rfl
@[simp] theorem State.raiseMisuse_evP90 (s : State) (reason : MisuseReason) (vr : Bool) : (s.raiseMisuse reason vr).evP90 = s.evP90 := by cases vr <;> rfl
@[simp] theorem State.raiseMisuse_busy (s : State) (reason : MisuseReason) (vr : Bool) : (s.raiseMisuse reason vr).busy = false := by cases vr <;> rfl
@[simp] theorem State.raiseMisuse_bus (s : State) (reason : MisuseReason) (vr : Bool) : (s.raiseMisuse reason vr).bus = .idle := by cases vr <;> rfl
@[simp] theorem State.raiseMisuse_stall (s : State) (reason : MisuseReason) (vr : Bool) : (s.raiseMisuse reason vr).stall = s.stall := by cases vr <;> rfl
@[simp] theorem State.raiseMisuse_trace (s : State) (reason : MisuseReason) (vr : Bool) : (s.raiseMisuse reason vr).trace = s.trace := by cases vr <;> rfl
@[simp] theorem State.raiseMisuse_result_kept (s : State) (reason : MisuseReason) : (s.raiseMisuse reason false).result = s.result := rfl

end Sys2Proof.Machine
end

