-- ==== Sys2Proof/Laws/Bus.lean ====
section
/-! SUPPORT. What the bus operations can do: their frame in every environment, and their run in one that answers. -/

namespace Sys2Proof.Machine

variable {α β : Type} {s t u : State}

/-! ## Frame: what a bus operation may change, in every environment -/

/-- From `s` to `t` only LASTERR, BUSSTATE, BUSY, the held action, the history, the environment, the count of free values and the
reset input's countdown may differ, the reset input only where it is counting down, and the peer's registers keep their canonical
form. -/
structure BusFrame (s t : State) : Prop where
  rest : t = { s with
    lastErr := t.lastErr, bus := t.bus, busy := t.busy, stall := t.stall, trace := t.trace, env := t.env, draws := t.draws,
    resetIn := t.resetIn }
  reset : s.Uncut → t.resetIn = s.resetIn
  peer : (∀ r, s.env = .responder r → Memory.wf r.regs) → ∀ r, t.env = .responder r → Memory.wf r.regs

theorem BusFrame.refl (s : State) : BusFrame s s := ⟨rfl, fun _ => rfl, id⟩

theorem State.Uncut.of_eq (h : s.Uncut) (he : t.resetIn = s.resetIn) : t.Uncut := fun k hk => h k (he ▸ hk)

theorem BusFrame.trans (h₁ : BusFrame s t) (h₂ : BusFrame t u) : BusFrame s u :=
  ⟨by rw [h₂.rest, h₁.rest], fun h => (h₂.reset (h.of_eq (h₁.reset h))).trans (h₁.reset h), fun h => h₂.peer (h₁.peer h)⟩

/-- The two ends of a bus operation started in `s`: it ran to its end, BUSY and the held action are as they were and no reset is
waiting to be sampled, or the PBE is held with BUSY = 1 (R226). -/
def Bus.Within (s : State) : Bus α → Prop
  | .done _ t => BusFrame s t ∧ t.stall = s.stall ∧ t.busy = s.busy ∧ (s.resetIn ≠ .now → t.resetIn ≠ .now)
  | .hung t => BusFrame s t ∧ t.busy = true ∧ t.stall.isSome = true

theorem Bus.Within.done (v : α) (s : State) : (Bus.done v s).Within s := ⟨.refl s, rfl, rfl, id⟩

theorem Bus.Within.andThen {x : Bus α} {k : α → State → Bus β} (hx : x.Within s)
    (hk : ∀ v t, (k v t).Within t) : (x.andThen k).Within s := by
  cases x with
  | hung t => exact hx
  | done v t =>
    obtain ⟨hf, hs, hb, hn⟩ := hx
    have := hk v t
    show (k v t).Within s
    revert this
    cases k v t with
    | done w u => exact fun ⟨f, st, b, n⟩ => ⟨hf.trans f, st.trans hs, b.trans hb, n ∘ hn⟩
    | hung u => exact fun ⟨f, b, st⟩ => ⟨hf.trans f, b, st⟩

theorem Responder.wf_after {r : Responder} (p : BusPrim) (h : Memory.wf r.regs) : Memory.wf (r.after p).regs := by
  cases p with
  | txEnd =>
    unfold Responder.after Responder.endTx
    dsimp only
    split
    · split
      · exact h
      · exact wf_storeRun _ _ h
    · exact h
  | _ => exact h

theorem ask_within (p : BusPrim) (s : State) : (ask p s).Within s := by
  unfold ask
  split
  · rename_i henv
    cases hb : Config.busAnswer s.draws with
    | none => exact ⟨⟨rfl, fun _ => rfl, fun h r hr => h r hr⟩, rfl, rfl⟩
    | some b => exact ⟨⟨rfl, fun _ => rfl, fun h r hr => h r hr⟩, rfl, rfl, id⟩
  · rename_i answer later henv
    cases answer with
    | none => exact ⟨⟨rfl, fun _ => rfl, fun _ r hr => by simp at hr⟩, rfl, rfl⟩
    | some b => exact ⟨⟨rfl, fun _ => rfl, fun _ r hr => by simp at hr⟩, rfl, rfl, id⟩
  · rename_i r henv
    refine ⟨⟨rfl, fun _ => rfl, fun h r' hr => ?_⟩, rfl, rfl, id⟩
    cases hr
    exact Responder.wf_after p (h r henv)

/-- Without a reset that counts down, the countdown leaves the reset input as it is. -/
theorem State.Uncut.countdown (h : s.Uncut) : s.resetIn.countdown = some s.resetIn := by
  cases hr : s.resetIn with
  | inAction k => exact absurd hr (h k)
  | _ => rfl

theorem startAction_uncut (a : Action) (rest : State → Bus α) (h : s.Uncut) : startAction a s rest = rest s := by
  unfold startAction
  rw [h.countdown]

/-- A bus action goes on from a state that differs in the countdown only, or reset stops it. -/
theorem startAction_within (a : Action) (s : State) (rest : State → Bus α) (h : ∀ t, (rest t).Within t) :
    (startAction a s rest).Within s := by
  by_cases hu : s.Uncut
  · rw [startAction_uncut a rest hu]
    exact h s
  · unfold startAction
    have hframe (r : ResetInput) : BusFrame s { s with resetIn := r } := ⟨rfl, fun h => absurd h hu, id⟩
    cases hr : s.resetIn with
    | off => exact absurd (fun k hk => by rw [hr] at hk; cases hk) hu
    | now => exact absurd (fun k hk => by rw [hr] at hk; cases hk) hu
    | inAction k =>
      cases k with
      | zero => exact ⟨⟨rfl, fun h => absurd h hu, id⟩, rfl, rfl⟩
      | succ k =>
        have := h { s with resetIn := .inAction k }
        show (rest { s with resetIn := .inAction k }).Within s
        revert this
        cases rest { s with resetIn := .inAction k } with
        | done v t => exact fun ⟨f, st, b, n⟩ => ⟨(hframe _).trans f, st, b, fun _ => n (by simp)⟩
        | hung t => exact fun ⟨f, b, st⟩ => ⟨(hframe _).trans f, b, st⟩

theorem issue_within (p : BusPrim) (s : State) : (issue p s).Within s := startAction_within _ s _ fun t => ask_within p t

theorem txBegin_within (a : BusAddr) (s : State) : (txBegin a s).Within s :=
  (issue_within _ s).andThen fun _ _ => ⟨⟨rfl, fun _ => rfl, id⟩, rfl, rfl, id⟩

theorem txWrite_within (b : Byte) (s : State) : (txWrite b s).Within s :=
  (issue_within _ s).andThen fun _ _ => ⟨⟨rfl, fun _ => rfl, id⟩, rfl, rfl, id⟩

theorem txEnd_within (s : State) : (txEnd s).Within s :=
  (issue_within _ s).andThen fun _ _ => ⟨⟨rfl, fun _ => rfl, id⟩, rfl, rfl, id⟩

theorem rxRequest_within (a : BusAddr) (n : Nat) (s : State) : (rxRequest a n s).Within s :=
  (issue_within _ s).andThen fun _ _ => ⟨⟨rfl, fun _ => rfl, id⟩, rfl, rfl, id⟩

theorem rxRead_within (missing : Bool) (s : State) : (rxRead missing s).Within s :=
  (issue_within _ s).andThen fun _ _ => by
    cases missing
    · exact ⟨⟨rfl, fun _ => rfl, id⟩, rfl, rfl, id⟩
    · exact ⟨⟨rfl, fun _ => rfl, id⟩, rfl, rfl, id⟩

theorem waitUs_within (us : Nat) (s : State) : (waitUs us s).Within s :=
  startAction_within _ s _ fun _ => ⟨⟨rfl, fun _ => rfl, id⟩, rfl, rfl, id⟩

theorem Bus.Within.inBurst {x : Bus α} (a : BusAddr) (bytes : List Byte) (hx : x.Within s) : (x.inBurst a bytes).Within s := by
  cases x with
  | done v t => exact hx
  | hung t =>
    obtain ⟨⟨hr, hu, hp⟩, hb, hs⟩ := hx
    refine ⟨⟨?_, hu, hp⟩, hb, by simpa using hs⟩
    generalize t.lastErr = e, t.bus = b, t.busy = y, t.stall = l, t.trace = c, t.env = v, t.draws = d, t.resetIn = n at hr
    subst hr
    rfl

@[simp] theorem Bus.inBurst_done (a : BusAddr) (bytes : List Byte) (v : α) (s : State) : (Bus.done v s).inBurst a bytes = .done v s := rfl

theorem txWrites_within (bytes : List Byte) (s : State) : (txWrites bytes s).Within s := by
  induction bytes generalizing s with
  | nil => exact .done () s
  | cons b bs ih => exact (txWrite_within b s).andThen fun _ t => ih t

theorem transmit_within (a : BusAddr) (bytes : List Byte) (s : State) : (transmit a bytes s).Within s :=
  .inBurst a bytes ((txBegin_within a s).andThen fun _ t => (txWrites_within bytes t).andThen fun _ u => txEnd_within u)

theorem memWrite_within (reg : Byte) (bytes : List Byte) (s : State) : (memWrite reg bytes s).Within s :=
  transmit_within _ _ s

theorem writeReg_within (reg v : Byte) (s : State) : (writeReg reg v s).Within s := memWrite_within _ _ s

theorem writeWindow_within (base : Byte) (w : Window) (s : State) : (writeWindow base w s).Within s := memWrite_within _ _ s

theorem readReg_within (reg : Byte) (s : State) : (readReg reg s).Within s :=
  (transmit_within _ _ s).andThen fun _ t => (rxRequest_within _ _ t).andThen fun _ u =>
    (rxRead_within _ u).andThen fun _ _ => ⟨⟨rfl, fun _ => rfl, id⟩, rfl, rfl, id⟩

/-! ## Run: in an environment that answers, an operation runs to its end with these actions -/

@[simp] theorem lastStatus_nil : lastStatus [] = none := rfl

/-- A later status hides the earlier ones (R98). -/
theorem lastStatus_append (xs ys : List BusEvent) : lastStatus (xs ++ ys) = (lastStatus ys).or (lastStatus xs) := by
  simp [lastStatus, List.filterMap_append, List.getLast?_append]

@[simp] theorem bytesRead_append (xs ys : List BusEvent) : bytesRead (xs ++ ys) = bytesRead xs ++ bytesRead ys := by
  simp [bytesRead, List.filterMap_append]

/-- A register access from `s` ran to its end in `t` with the entries `evs`: LASTERR is the last status among them, BUSSTATE is IDLE,
and nothing from outside stops the sequencer after it. -/
structure BusSpan (s t : State) (evs : List BusEvent) : Prop where
  trace : t.trace = s.trace ++ evs
  status : lastStatus evs = some t.lastErr
  rest : t = { s with lastErr := t.lastErr, trace := t.trace, env := t.env, draws := t.draws, bus := .idle }
  runsOn : t.RunsThrough

theorem BusSpan.trans {e₁ e₂ : List BusEvent} (h₁ : BusSpan s t e₁) (h₂ : BusSpan t u e₂) : BusSpan s u (e₁ ++ e₂) where
  trace := by rw [h₂.trace, h₁.trace, List.append_assoc]
  status := by rw [lastStatus_append, h₂.status]; rfl
  rest := by rw [h₂.rest, h₁.rest]
  runsOn := h₂.runsOn

/-- A wait after a register access is one more entry (R16). -/
theorem BusSpan.wait {evs : List BusEvent} (h : BusSpan s t evs) (us : Nat) : BusSpan s (t.log (.wait us)) (evs ++ [.wait us]) where
  trace := by rw [State.log_trace, h.trace, List.append_assoc]
  status := by rw [lastStatus_append, h.status]; rfl
  rest := by
    conv_lhs => rw [h.rest]
    rfl
  runsOn := h.runsOn

theorem BusSpan.finish {evs : List BusEvent} (h : BusSpan s t evs) : BusRun s t.complete evs where
  trace := h.trace
  status := h.status
  rest := by rw [h.rest]; rfl

/-- In an environment that answers, a primitive is answered and the environment goes on answering. -/
theorem ask_noStall (p : BusPrim) (h : s.NoStall) :
    ∃ b t, ask p s = .done b t ∧ t.NoStall ∧ t = { s with env := t.env, draws := t.draws } := by
  unfold ask State.NoStall BusEnv.NoStall at *
  split
  · rename_i henv
    rw [henv] at h
    obtain ⟨b, hb⟩ := Option.ne_none_iff_exists'.mp (h.2 s.draws (Nat.le_refl _))
    refine ⟨b, { s with draws := s.draws + 1 }, by rw [hb]; rfl, ?_, rfl⟩
    rw [henv]
    exact ⟨h.1, fun n hn => h.2 n (by simp only at hn; omega)⟩
  · rename_i answer later henv
    rw [henv] at h
    obtain ⟨b, hb⟩ := Option.ne_none_iff_exists'.mp (h.1 answer (by simp))
    refine ⟨b, { s with env := .oracle later }, by rw [hb]; rfl, ⟨fun a ha => h.1 a (by simp [ha]), h.2⟩, rfl⟩
  · exact ⟨_, _, rfl, trivial, rfl⟩

/-- Where nothing from outside stops the sequencer, a primitive is answered and nothing stops it after. -/
theorem issue_runs (p : BusPrim) (h : s.RunsThrough) :
    ∃ b t, issue p s = .done b t ∧ t.RunsThrough ∧ t = { s with env := t.env, draws := t.draws } := by
  obtain ⟨b, t, ht, hn, hr⟩ := ask_noStall p h.1
  exact ⟨b, t, by rw [issue, startAction_uncut _ _ h.2, ht], ⟨hn, h.2.of_eq (by rw [hr])⟩, hr⟩

theorem waitUs_uncut (us : Nat) (h : s.Uncut) : waitUs us s = .done () (s.log (.wait us)) := startAction_uncut _ _ h

theorem txBegin_runs (a : BusAddr) (h : s.RunsThrough) :
    ∃ t, txBegin a s = .done () t ∧ t.RunsThrough ∧
      t = { s with bus := .tx a 0, trace := s.trace ++ [.txBegin a], env := t.env, draws := t.draws } := by
  obtain ⟨b, t, ht, hn, hr⟩ := issue_runs (.txBegin a) h
  refine ⟨({ t with bus := .tx a 0 }.log (.txBegin a)), by rw [txBegin, ht]; rfl, hn, ?_⟩
  rw [hr]; rfl

theorem txWrite_runs (b : Byte) (h : s.RunsThrough) :
    ∃ t c, txWrite b s = .done () t ∧ t.RunsThrough ∧
      t = { s with bus := t.bus, trace := s.trace ++ [.txWrite b c], env := t.env, draws := t.draws } := by
  obtain ⟨c, t, ht, hn, hr⟩ := issue_runs (.txWrite b) h
  refine ⟨({ t with bus := t.bus.queued }.log (.txWrite b (c.toNat % 2))), c.toNat % 2, by rw [txWrite, ht]; rfl, hn, ?_⟩
  rw [hr]; rfl

theorem txWrites_runs (bytes : List Byte) (h : s.RunsThrough) :
    ∃ t evs, txWrites bytes s = .done () t ∧ t.RunsThrough ∧ evs.map BusEvent.action = bytes.map (fun b => .prim (.txWrite b)) ∧
      lastStatus evs = none ∧ bytesRead evs = [] ∧
      t = { s with bus := t.bus, trace := s.trace ++ evs, env := t.env, draws := t.draws } := by
  induction bytes generalizing s with
  | nil => exact ⟨s, [], rfl, h, rfl, rfl, rfl, by simp⟩
  | cons b bs ih =>
    obtain ⟨t, c, ht, hn, hr⟩ := txWrite_runs b h
    obtain ⟨u, evs, hu, hnu, ha, hl, hb, hru⟩ := ih hn
    refine ⟨u, .txWrite b c :: evs, by rw [txWrites, ht]; exact hu, hnu, by simp [ha, BusEvent.action], ?_, ?_, ?_⟩
    · simpa [lastStatus] using hl
    · simpa [bytesRead] using hb
    · rw [hru, hr]; simp

theorem txEnd_runs (h : s.RunsThrough) :
    ∃ t, txEnd s = .done () t ∧ t.RunsThrough ∧
      t = { s with
        bus := .idle, lastErr := t.lastErr, trace := s.trace ++ [.txEnd t.lastErr], env := t.env, draws := t.draws } := by
  obtain ⟨st, t, ht, hn, hr⟩ := issue_runs .txEnd h
  refine ⟨({ t with bus := .idle, lastErr := st }.log (.txEnd st)), by rw [txEnd, ht]; rfl, hn, ?_⟩
  rw [hr]; rfl

/-- One transmission (R62, R98): its actions, its status in LASTERR, nothing read. -/
theorem transmit_runs (a : BusAddr) (bytes : List Byte) (h : s.RunsThrough) :
    ∃ t evs, transmit a bytes s = .done () t ∧ BusSpan s t evs ∧ evs.map BusEvent.action = sends a bytes ∧ bytesRead evs = [] := by
  obtain ⟨t, ht, hn, hr⟩ := txBegin_runs a h
  obtain ⟨u, evs, hu, hnu, ha, _, hb, hru⟩ := txWrites_runs bytes hn
  obtain ⟨w, hw, hnw, hrw⟩ := txEnd_runs hnu
  refine ⟨w, .txBegin a :: evs ++ [.txEnd w.lastErr], by rw [transmit, ht]; simp only [Bus.andThen]; rw [hu]; simp only; rw [hw]; rfl, ⟨?_, ?_, ?_, hnw⟩, ?_, ?_⟩
  · rw [hrw, hru, hr]; simp
  · rw [lastStatus_append]; rfl
  · rw [hrw, hru, hr]
  · simp [sends, ha, BusEvent.action]
  · rw [bytesRead_append]
    simpa [bytesRead] using hb

theorem memWrite_runs (reg : Byte) (bytes : List Byte) (h : s.RunsThrough) :
    ∃ t evs, memWrite reg bytes s = .done () t ∧ BusSpan s t evs ∧
      evs.map BusEvent.action = sends s.addr (reg :: bytes) ∧ bytesRead evs = [] :=
  transmit_runs _ _ h

theorem writeReg_runs (reg v : Byte) (h : s.RunsThrough) :
    ∃ t evs, writeReg reg v s = .done () t ∧ BusSpan s t evs ∧
      evs.map BusEvent.action = sends s.addr [reg, v] ∧ bytesRead evs = [] :=
  transmit_runs _ _ h

theorem rxRequest_runs (a : BusAddr) (n : Nat) (h : s.RunsThrough) :
    ∃ t avail, rxRequest a n s = .done avail t ∧ t.RunsThrough ∧
      t = { s with bus := .rx a n, trace := s.trace ++ [.rxRequest a n avail], env := t.env, draws := t.draws } := by
  obtain ⟨c, t, ht, hn, hr⟩ := issue_runs (.rxRequest a n) h
  refine ⟨({ t with bus := .rx a n }.log (.rxRequest a n (min c.toNat n))), min c.toNat n, by rw [rxRequest, ht]; rfl, hn, ?_⟩
  rw [hr]; rfl

theorem BusEnv.NoStall.mono {env : BusEnv} {m n : Nat} (hmn : m ≤ n) (h : env.NoStall m) : env.NoStall n := by
  cases env with
  | responder r => trivial
  | oracle script => exact ⟨h.1, fun k hk => h.2 k (Nat.le_trans hmn hk)⟩

theorem rxRead_runs (missing : Bool) (h : s.RunsThrough) :
    ∃ t v, rxRead missing s = .done v t ∧ t.RunsThrough ∧
      t = { s with bus := t.bus, trace := s.trace ++ [.rxRead v], env := t.env, draws := t.draws } := by
  obtain ⟨c, t, ht, hn, hr⟩ := issue_runs .rxRead h
  cases missing with
  | false =>
    refine ⟨({ t with bus := t.bus.taken }.log (.rxRead c)), c, by rw [rxRead, ht]; rfl, hn, ?_⟩
    rw [hr]; rfl
  | true =>
    have hm : BusEnv.NoStall t.env (t.draws + 1) := BusEnv.NoStall.mono (Nat.le_succ _) hn.1
    refine ⟨(({ t with bus := t.bus.taken, draws := t.draws + 1 } : State).log (.rxRead (Config.freeByte t.draws))), _,
      by rw [rxRead, ht]; rfl, ⟨hm, hn.2⟩, ?_⟩
    rw [hr]; rfl

/-- The single-register read (R103, R107): its actions, the address phase's status in LASTERR, and the byte read as its value. -/
theorem readReg_runs (reg : Byte) (h : s.RunsThrough) :
    ∃ v t evs, readReg reg s = .done v t ∧ BusSpan s t evs ∧
      evs.map BusEvent.action = reads s.addr reg ∧ bytesRead evs = [v] := by
  obtain ⟨t, evs, ht, hspan, ha, hb⟩ := transmit_runs s.addr [reg] h
  obtain ⟨u, avail, hu, hnu, hru⟩ := rxRequest_runs s.addr 1 hspan.runsOn
  obtain ⟨w, v, hw, hnw, hrw⟩ := rxRead_runs (decide (avail < 1)) hnu
  have haddr : t.addr = s.addr := by rw [hspan.rest]
  refine ⟨v, rxDone w, evs ++ [.rxRequest s.addr 1 avail, .rxRead v], ?_, ⟨?_, ?_, ?_, hnw⟩, ?_, ?_⟩
  · rw [readReg, ht]
    simp only [Bus.andThen]
    rw [haddr, hu]
    simp only
    rw [hw]
  · show w.trace = _
    rw [hrw, hru, hspan.trace]; simp
  · have he : w.lastErr = t.lastErr := by rw [hrw, hru]
    rw [lastStatus_append, hspan.status]
    show some t.lastErr = some w.lastErr
    rw [he]
  · show ({ w with bus := .idle } : State) = _
    rw [hrw, hru]
    rw [hspan.rest]
    rfl
  · simp [reads, ha, BusEvent.action]
  · simp only [bytesRead_append, hb]
    rfl

end Sys2Proof.Machine
end

