-- ==== Sys2Proof/Laws/Responder.lean ====
section
/-! SUPPORT. The bus operations against the reference responder (R59): each runs to its end, and what it leaves. -/

namespace Sys2Proof.Machine

variable {s : State} {r : Responder}

/-- The history of one transmission to the responder (R59): every count is 1, the status is 0. -/
def sendEvents (a : BusAddr) (bytes : List Byte) : List BusEvent :=
  .txBegin a :: (bytes.map fun b => .txWrite b 1) ++ [.txEnd 0]

/-- The responder after one transmission (R59). -/
def Responder.sent (r : Responder) (a : BusAddr) (bytes : List Byte) : Responder :=
  Responder.endTx { r with txAddr := a, txBytes := bytes }

theorem Responder.noStall (h : s.env = .responder r) : s.NoStall := by
  unfold State.NoStall
  rw [h]
  trivial

theorem issue_responder (p : BusPrim) (h : s.env = .responder r) (hu : s.Uncut) :
    issue p s = .done (r.reply p) { s with env := .responder (r.after p) } := by
  rw [issue, startAction_uncut _ _ hu]
  unfold ask
  rw [h]

theorem txWrites_responder (bytes : List Byte) (h : s.env = .responder r) (hu : s.Uncut) :
    txWrites bytes s = .done () { s with
      bus := bytes.foldl (fun bus _ => bus.queued) s.bus
      trace := s.trace ++ bytes.map (fun b => .txWrite b 1)
      env := .responder { r with txBytes := r.txBytes ++ bytes } } := by
  induction bytes generalizing s r with
  | nil => simp [txWrites, ← h]
  | cons b bs ih =>
    rw [txWrites, txWrite, issue_responder _ h hu]
    simp only [Bus.andThen]
    rw [ih (r := { r with txBytes := r.txBytes ++ [b] }) rfl]
    · simp [State.log, Responder.reply]
    · exact hu

theorem transmit_responder (a : BusAddr) (bytes : List Byte) (h : s.env = .responder r) (hu : s.Uncut) :
    transmit a bytes s = .done () { s with
      bus := .idle
      lastErr := 0
      trace := s.trace ++ sendEvents a bytes
      env := .responder (r.sent a bytes) } := by
  rw [transmit, txBegin, issue_responder _ h hu]
  simp only [Bus.andThen]
  rw [txWrites_responder (r := { r with txAddr := a, txBytes := [] }) bytes rfl]
  · simp only [Bus.andThen, txEnd]
    rw [issue_responder _ rfl]
    · simp [State.log, Responder.reply, Responder.after, Responder.sent, sendEvents, Bus.inBurst]
    · exact hu
  · exact hu

/-- A transmission to another address stores nothing (R59). -/
theorem Responder.sent_elsewhere {a : BusAddr} (bytes : List Byte) (h : a ≠ r.ra) :
    r.sent a bytes = { r with txAddr := a, txBytes := bytes } := by
  simp [Responder.sent, Responder.endTx, h]

/-- A transmission to the responder stores its data bytes from the register address on (R59). -/
theorem Responder.sent_here (reg : Byte) (bytes : List Byte) :
    r.sent r.ra (reg :: bytes) = { r with
      txAddr := r.ra
      txBytes := reg :: bytes
      regs := storeRun r.regs reg bytes
      ptr := reg + BitVec.ofNat 8 bytes.length } := by
  simp [Responder.sent, Responder.endTx]

@[simp] theorem Responder.sent_ra (a : BusAddr) (bytes : List Byte) : (r.sent a bytes).ra = r.ra := by
  unfold Responder.sent Responder.endTx
  split
  · split <;> rfl
  · rfl

/-- A single-register read of the responder returns the register (R59, R103). -/
theorem readReg_responder (reg : Byte) (h : s.RefResponder s.addr r) (hu : s.Uncut) :
    readReg reg s = .done (r.reg reg) { s with
      bus := .idle
      lastErr := 0
      trace := s.trace ++ (sendEvents s.addr [reg] ++ [.rxRequest s.addr 1 1, .rxRead (r.reg reg)])
      env := .responder { r with txAddr := s.addr, txBytes := [reg], ptr := reg + 1 } } := by
  obtain ⟨henv, hra⟩ := h
  have hz : reg + BitVec.ofNat 8 0 = reg := by simp
  rw [readReg, transmit_responder _ _ henv hu, ← hra, Responder.sent_here]
  simp only [Bus.andThen, rxRequest, storeRun, List.length_nil, hz]
  rw [issue_responder _ rfl]
  · simp only [Bus.andThen, rxRead, State.log]
    rw [issue_responder _ rfl]
    · simp [Responder.reply, Responder.after, Responder.reg, rxDone]
    · exact hu
  · exact hu

/-- A transmission from the handle to the responder stores its data bytes (R59, R14). -/
theorem memWrite_responder (reg : Byte) (bytes : List Byte) (h : s.RefResponder s.addr r) (hu : s.Uncut) :
    memWrite reg bytes s = .done () { s with
      bus := .idle
      lastErr := 0
      trace := s.trace ++ sendEvents s.addr (reg :: bytes)
      env := .responder { r with
        txAddr := s.addr
        txBytes := reg :: bytes
        regs := storeRun r.regs reg bytes
        ptr := reg + BitVec.ofNat 8 bytes.length } } := by
  rw [memWrite, transmit_responder _ _ h.1 hu, ← h.2, Responder.sent_here]

/-! ## Reset (R242, R243) -/

/-- A reset between commands leaves the bus environment (R242). -/
theorem State.cutEnv_between (h : s.stall = none) : s.cutEnv = s.env := by
  unfold State.cutEnv
  rw [h]
  cases s.env <;> rfl

/-- The oracle's answers are its own, whatever a reset cuts. -/
theorem State.cutEnv_oracle {script : List (Option Byte)} (h : s.env = .oracle script) : s.cutEnv = s.env := by
  unfold State.cutEnv
  rw [h]

/-- What a reset in the middle of an action leaves of the responder (R243). -/
theorem State.cutEnv_responder {held : Held} (h : s.env = .responder r) (hs : s.stall = some held) :
    s.cutEnv = .responder { r with
      regs := r.cutRegs held (s.draws + 1), ptr := Config.freeByte (s.draws + 1 + held.burstData) } := by
  unfold State.cutEnv
  rw [h, hs]

theorem Responder.wf_cutRegs (held : Held) (draws : Nat) (h : Memory.wf r.regs) : Memory.wf (r.cutRegs held draws) := by
  unfold Responder.cutRegs
  split
  · split
    · exact wf_storeRun _ _ h
    · exact h
  · exact h

/-- A reset keeps the canonical form of the peer's registers. -/
theorem State.wf_cutEnv (h : ∀ r, s.env = .responder r → Memory.wf r.regs) : ∀ r, s.cutEnv = .responder r → Memory.wf r.regs := by
  intro r' hr'
  cases hs : s.stall with
  | none => exact h r' (by rw [← State.cutEnv_between hs, hr'])
  | some held =>
    cases he : s.env with
    | oracle script => rw [State.cutEnv_oracle he, he] at hr'; cases hr'
    | responder r =>
      rw [State.cutEnv_responder he hs] at hr'
      cases hr'
      exact Responder.wf_cutRegs held _ (h r he)

end Sys2Proof.Machine
end

