-- ==== Sys2Proof/Laws/Commands.lean ====
section
/-! SUPPORT. What a command's shared forms can do: the guards, a finished or held bus sequence, a Misuse. -/

namespace Sys2Proof.Machine

open Host (Outcome)

variable {s t : State}

/-- A raised Misuse has the effects of R223 and no other. -/
theorem raiseMisuse_run (s : State) (reason : MisuseReason) (vr : Bool) : MisuseRun s (s.raiseMisuse reason vr) reason vr := by
  cases vr
  · exact ⟨rfl, fun _ => rfl⟩
  · exact ⟨rfl, fun h => by cases h⟩

@[simp] theorem Bus.finish_done (s : State) : (Bus.done () s).finish = .next s.complete := rfl

@[simp] theorem Bus.finish_hung (s : State) : (Bus.hung s).finish = .next s := rfl

@[simp] theorem Bus.andThen_done {α β : Type} (v : α) (s : State) (k : α → State → Bus β) : (Bus.done v s).andThen k = k v s := rfl

@[simp] theorem Bus.andThen_hung {α β : Type} (s : State) (k : α → State → Bus β) : (Bus.hung s).andThen k = .hung s := rfl

theorem onHandle_unbound (vr : Bool) (body : State → Bus Unit) (h : s.bound = false) :
    onHandle vr s body = .next (s.raiseMisuse .unbound vr) := by simp [onHandle, h]

theorem onHandle_bound (vr : Bool) (body : State → Bus Unit) (h : s.bound = true) :
    onHandle vr s body = (body s).finish := by simp [onHandle, h]

theorem onDirect_unbound (vr : Bool) (body : State → Bus Unit) (h : s.bound = false) :
    onDirect vr s body = .next (s.raiseMisuse .unbound vr) := by simp [onDirect, h]

theorem onDirect_proxy (vr : Bool) (body : State → Bus Unit) (hb : s.bound = true) (hp : s.proxy = true) :
    onDirect vr s body = .next (s.raiseMisuse .proxyRead true) := by simp [onDirect, hb, hp]

theorem onDirect_direct (vr : Bool) (body : State → Bus Unit) (hb : s.bound = true) (hp : s.proxy = false) :
    onDirect vr s body = (body s).finish := by simp [onDirect, hb, hp]

/-! ## How a command on the bus can end -/

/-- What a command on the bus may change from `s` to `t`: RESULT if it returns a value, SRST_DONE if it is SWRST, and the bus's own
fields; the peer's registers keep their canonical form. -/
structure CommandFrame (i : Instr) (s t : State) : Prop where
  rest : t = { s with
    result := t.result, srstDone := t.srstDone,
    lastErr := t.lastErr, bus := t.bus, busy := t.busy, stall := t.stall, trace := t.trace, env := t.env, draws := t.draws,
    resetIn := t.resetIn }
  reset : s.Uncut → t.resetIn = s.resetIn
  result : valueReturning i = false → t.result = s.result
  srstDone : i ≠ .swrst → t.srstDone = s.srstDone
  peer : (∀ r, s.env = .responder r → Memory.wf r.regs) → ∀ r, t.env = .responder r → Memory.wf r.regs

variable {i : Instr}

theorem BusFrame.command (h : BusFrame s t) : CommandFrame i s t := by
  obtain ⟨hrest, hreset, hpeer⟩ := h
  refine ⟨?_, hreset, fun _ => by rw [hrest], fun _ => by rw [hrest], hpeer⟩
  generalize t.lastErr = e, t.bus = b, t.busy = y, t.stall = l, t.trace = c, t.env = v, t.draws = d, t.resetIn = n at hrest
  subst hrest
  rfl

theorem CommandFrame.trans {u : State} (h₁ : CommandFrame i s t) (h₂ : CommandFrame i t u) : CommandFrame i s u :=
  ⟨by rw [h₂.rest, h₁.rest], fun h => (h₂.reset (h.of_eq (h₁.reset h))).trans (h₁.reset h), fun h => (h₂.result h).trans (h₁.result h), fun h => (h₂.srstDone h).trans (h₁.srstDone h),
    fun h => h₂.peer (h₁.peer h)⟩

/-- `Bus.Within` with the fields of `CommandFrame` let change. -/
def Bus.Runs {α : Type} (i : Instr) (s : State) : Bus α → Prop
  | .done _ t => CommandFrame i s t ∧ t.stall = s.stall ∧ t.busy = s.busy ∧ (s.resetIn ≠ .now → t.resetIn ≠ .now)
  | .hung t => CommandFrame i s t ∧ t.busy = true ∧ t.stall.isSome = true

theorem Bus.Within.runs {α : Type} {x : Bus α} (h : x.Within s) : x.Runs i s := by
  cases x with
  | done v t => exact ⟨h.1.command, h.2⟩
  | hung t => exact ⟨h.1.command, h.2⟩

theorem Bus.Runs.andThen {α β : Type} {x : Bus α} {k : α → State → Bus β} (hx : x.Runs i s) (hk : ∀ v t, (k v t).Runs i t) :
    (x.andThen k).Runs i s := by
  cases x with
  | hung t => exact hx
  | done v t =>
    obtain ⟨hf, hs, hb, hn⟩ := hx
    have := hk v t
    show (k v t).Runs i s
    revert this
    cases k v t with
    | done w u => exact fun ⟨f, st, b, n⟩ => ⟨hf.trans f, st.trans hs, b.trans hb, n ∘ hn⟩
    | hung u => exact fun ⟨f, b, st⟩ => ⟨hf.trans f, b, st⟩

theorem Bus.Runs.setResult (h : valueReturning i = true) (s : State) (v : Word) : (Bus.done () (s.setResult v)).Runs i s :=
  ⟨⟨rfl, fun _ => rfl, fun h' => (by rw [h] at h'; cases h'), fun _ => rfl, id⟩, rfl, rfl, id⟩

theorem Bus.Runs.srstDone (s : State) : (Bus.done () { s with srstDone := true }).Runs .swrst s :=
  ⟨⟨rfl, fun _ => rfl, fun _ => rfl, fun h => absurd rfl h, id⟩, rfl, rfl, id⟩

/-- The three ends of a command on the bus (R215): a Misuse, completion, or held in a primitive. -/
def Ends (i : Instr) (s : State) : Prop :=
  ∃ t, exec i s = .next t ∧
    ((∃ reason, misuseOf i s = some reason ∧ t = s.raiseMisuse reason (misuseDraws i reason)) ∨
      (misuseOf i s = none ∧
        ((∃ u, CommandFrame i s u ∧ u.stall = s.stall ∧ (s.resetIn ≠ .now → u.resetIn ≠ .now) ∧ t = u.complete) ∨
          (CommandFrame i s t ∧ t.busy = true ∧ t.stall.isSome = true))))

theorem Bus.Runs.ends {x : Bus Unit} (hx : x.Runs i s) :
    ∃ t, x.finish = .next t ∧
      ((∃ u, CommandFrame i s u ∧ u.stall = s.stall ∧ (s.resetIn ≠ .now → u.resetIn ≠ .now) ∧ t = u.complete) ∨
        (CommandFrame i s t ∧ t.busy = true ∧ t.stall.isSome = true)) := by
  cases x with
  | done v u => exact ⟨_, rfl, .inl ⟨u, hx.1, hx.2.1, hx.2.2.2, rfl⟩⟩
  | hung u => exact ⟨_, rfl, .inr ⟨hx.1, hx.2.1, hx.2.2⟩⟩

theorem onHandle_ends {vr : Bool} (body : State → Bus Unit) (he : exec i s = onHandle vr s body)
    (hv : valueReturning i = vr) (hm : misuseOf i s = if s.bound = false then some .unbound else none) (hb : (body s).Runs i s) : Ends i s := by
  unfold Ends
  subst hv
  rw [he, hm]
  by_cases h : s.bound = false
  · exact ⟨_, onHandle_unbound _ _ h, .inl ⟨_, by simp [h], rfl⟩⟩
  · obtain ⟨t, ht, hc⟩ := hb.ends
    exact ⟨t, by rw [onHandle_bound _ _ (by simpa using h), ht], .inr ⟨by simp [h], hc⟩⟩

theorem onDirect_ends {vr : Bool} (body : State → Bus Unit) (he : exec i s = onDirect vr s body)
    (hv : valueReturning i = vr) (hm : misuseOf i s = if s.bound = false then some .unbound else if s.proxy = true then some .proxyRead else none)
    (hb : (body s).Runs i s) : Ends i s := by
  unfold Ends
  subst hv
  rw [he, hm]
  by_cases h : s.bound = false
  · exact ⟨_, onDirect_unbound _ _ h, .inl ⟨_, by simp [h], rfl⟩⟩
  · have h' : s.bound = true := by simpa using h
    by_cases hp : s.proxy = true
    · exact ⟨_, onDirect_proxy _ _ h' hp, .inl ⟨_, by simp [h, hp], rfl⟩⟩
    · obtain ⟨t, ht, hc⟩ := hb.ends
      exact ⟨t, by rw [onDirect_direct _ _ h' (by simpa using hp), ht], .inr ⟨by simp [h, hp], hc⟩⟩

/-! ## The bodies -/

theorem Bus.Within.ite {α : Type} {c : Prop} [Decidable c] {x y : Bus α} (hx : x.Within s) (hy : y.Within s) :
    (if c then x else y).Within s := by
  split
  · exact hx
  · exact hy

theorem rdregBody_runs (reg : Byte) (s : State) : (rdregBody reg s).Runs (.rdreg reg) s :=
  (readReg_within _ s).runs.andThen fun _ _ => Bus.Runs.setResult rfl _ _

theorem swrstBody_runs (s : State) : (swrstBody s).Runs .swrst s :=
  (transmit_within _ _ s).runs.andThen fun _ _ => Bus.Runs.srstDone _

theorem initBody_within (mode : Byte) (s : State) : (initBody mode s).Within s :=
  (writeReg_within _ _ s).andThen fun _ _ => writeReg_within _ _ _

theorem setfreqBody_within (hz : Half) (s : State) : (setfreqBody hz s).Within s :=
  (readReg_within _ s).andThen fun _ _ => (writeReg_within _ _ _).andThen fun _ _ => (writeReg_within _ _ _).andThen fun _ _ =>
    (writeReg_within _ _ _).andThen fun _ _ => (waitUs_within _ _).andThen fun _ _ => (writeReg_within _ _ _).ite (.done _ _)

theorem enextclkBody_within (s : State) : (enextclkBody s).Within s :=
  (readReg_within _ s).andThen fun _ _ => (writeReg_within _ _ _).andThen fun _ _ => (writeReg_within _ _ _).andThen fun _ _ =>
    (writeReg_within _ _ _).andThen fun _ _ => (waitUs_within _ _).andThen fun _ _ => (writeReg_within _ _ _).ite (.done _ _)

theorem enableBody_within (bit reg value : Byte) (s : State) : (enableBody bit reg value s).Within s :=
  (readReg_within _ s).andThen fun _ _ => (writeReg_within _ _ _).andThen fun _ _ => writeReg_within _ _ _

theorem disableBody_within (bit : Byte) (s : State) : (disableBody bit s).Within s :=
  (readReg_within _ s).andThen fun _ _ => writeReg_within _ _ _

theorem writeChannel_within (ch : Fin 16) (amt : Nat) (s : State) : (writeChannel ch amt s).Within s := writeWindow_within _ _ s

theorem writeChannels_within (run : List (Fin 16 × Nat)) (s : State) : (writeChannels run s).Within s := by
  induction run generalizing s with
  | nil => exact .done () s
  | cons p run ih => exact (writeChannel_within _ _ s).andThen fun _ t => ih t

theorem chspwmBody_within (first : Byte) (run : List (Fin 16 × Nat)) (s : State) : (chspwmBody first run s).Within s :=
  .ite (.done _ _) (.ite (memWrite_within _ _ _) (writeChannels_within _ _))

theorem getchpwmBody_runs (ch base : Byte) (s : State) : (getchpwmBody base s).Runs (.getchpwm ch) s :=
  (readReg_within _ s).runs.andThen fun _ _ => (readReg_within _ _).runs.andThen fun _ _ =>
    (readReg_within _ _).runs.andThen fun _ _ => (readReg_within _ _).runs.andThen fun _ _ => Bus.Runs.setResult rfl _ _

/-! ## The commands -/

theorem misuseOf_addresses {i : Instr} (h : addressesHandle i = true) (s : State) : misuseOf i s = handleMisuse i s := by
  cases i <;> first | rfl | cases h

theorem misuseOf_onHandle {i : Instr} (h : addressesHandle i = true) (hr : readDependent i = false)
    (s : State) : misuseOf i s = if s.bound = false then some .unbound else none := by
  rw [misuseOf_addresses h, handleMisuse, hr]
  simp

theorem misuseOf_onDirect {i : Instr} (h : readDependent i = true) (s : State) :
    misuseOf i s = if s.bound = false then some .unbound else if s.proxy = true then some .proxyRead else none := by
  rw [misuseOf_addresses (by simp [addressesHandle, h]), handleMisuse, h]
  simp

theorem execSwrst_ends (s : State) : Ends .swrst s := by
  unfold Ends
  by_cases h : s.srstDone = true ∨ s.bound = true
  · exact ⟨s.raiseMisuse .resetOrder false, by show execSwrst s = _; rw [execSwrst, if_pos h],
      .inl ⟨.resetOrder, by simp [misuseOf, h], rfl⟩⟩
  · obtain ⟨t, ht, hc⟩ := (swrstBody_runs s).ends
    exact ⟨t, by show execSwrst s = _; rw [execSwrst, if_neg h, ht], .inr ⟨by simp [misuseOf, h], hc⟩⟩

/-- How every command that issues a TxEnd, INIT apart, can end. -/
theorem exec_ends (i : Instr) (s : State) (hi : addressesHandle i = true ∨ i = .swrst) : Ends i s := by
  have direct {i : Instr} {vr : Bool} {body : State → Bus Unit} (he : exec i s = onDirect vr s body)
      (hv : valueReturning i = vr) (hr : readDependent i = true) (hb : (body s).Runs i s) : Ends i s :=
    onDirect_ends body he hv (misuseOf_onDirect hr s) hb
  have handle {i : Instr} {body : State → Bus Unit} (he : exec i s = onHandle false s body) (hv : valueReturning i = false)
      (ha : addressesHandle i = true) (hr : readDependent i = false) (hb : (body s).Within s) : Ends i s :=
    onHandle_ends body he hv (misuseOf_onHandle ha hr s) hb.runs
  cases i with
  | wrreg reg v8 => exact handle (body := writeReg reg v8) rfl rfl rfl rfl (writeReg_within _ _ s)
  | rdreg reg => exact direct (body := rdregBody reg) rfl rfl rfl (rdregBody_runs _ s)
  | swrst => exact execSwrst_ends s
  | setfreq hz => exact direct (body := setfreqBody hz) rfl rfl rfl (setfreqBody_within _ s).runs
  | enallc ab => exact direct (body := enableBody _ _ _) rfl rfl rfl (enableBody_within _ _ _ s).runs
  | ensub1 ab => exact direct (body := enableBody _ _ _) rfl rfl rfl (enableBody_within _ _ _ s).runs
  | ensub2 ab => exact direct (body := enableBody _ _ _) rfl rfl rfl (enableBody_within _ _ _ s).runs
  | ensub3 ab => exact direct (body := enableBody _ _ _) rfl rfl rfl (enableBody_within _ _ _ s).runs
  | disallc => exact direct (body := disableBody _) rfl rfl rfl (disableBody_within _ s).runs
  | dissub1 => exact direct (body := disableBody _) rfl rfl rfl (disableBody_within _ s).runs
  | dissub2 => exact direct (body := disableBody _) rfl rfl rfl (disableBody_within _ s).runs
  | dissub3 => exact direct (body := disableBody _) rfl rfl rfl (disableBody_within _ s).runs
  | enextclk => exact direct (body := enextclkBody) rfl rfl rfl (enextclkBody_within s).runs
  | chon ch => exact handle (body := writeWindow _ _) rfl rfl rfl rfl (writeWindow_within _ _ s)
  | choff ch => exact handle (body := writeWindow _ _) rfl rfl rfl rfl (writeWindow_within _ _ s)
  | chpwm ch amt => exact handle (body := writeChannel _ _) rfl rfl rfl rfl (writeChannel_within _ _ s)
  | chspwm first amts => exact handle (body := chspwmBody _ _) rfl rfl rfl rfl (chspwmBody_within _ _ s)
  | allpwm amt => exact handle (body := writeWindow _ _) rfl rfl rfl rfl (writeWindow_within _ _ s)
  | getchpwm ch => exact direct (body := getchpwmBody _) rfl rfl rfl (getchpwmBody_runs _ _ s)
  | init off mode => rcases hi with h | h <;> cases h
  | initpx a7 => rcases hi with h | h <;> cases h
  | getaddr => rcases hi with h | h <;> cases h
  | getpb => rcases hi with h | h <;> cases h
  | geterr => rcases hi with h | h <;> cases h
  | phasewin ch amt => rcases hi with h | h <;> cases h
  | evcfg2 n90 p90 => rcases hi with h | h <;> cases h
  | evcfg3 n90 zero p90 => rcases hi with h | h <;> cases h
  | angpwm x => rcases hi with h | h <;> cases h

/-- How INIT can end: its own fields are written first (R120). -/
theorem execInit_ends (off mode : Byte) (s : State) :
    ∃ t, exec (.init off mode) s = .next t ∧
      ((∃ u, CommandFrame (.init off mode) (s.bindDirect off) u ∧ u.stall = s.stall ∧ (s.resetIn ≠ .now → u.resetIn ≠ .now) ∧
          t = u.complete) ∨
        (CommandFrame (.init off mode) (s.bindDirect off) t ∧ t.busy = true ∧ t.stall.isSome = true)) :=
  (initBody_within mode (s.bindDirect off)).runs.ends

/-- The three kinds of commands: those of `exec_ends`, INIT, and those that use no bus. -/
theorem instr_kinds (i : Instr) :
    (addressesHandle i = true ∨ i = .swrst) ∨ (∃ off mode, i = .init off mode) ∨ issuesTxEnd i = false := by
  cases i
  case init off mode => exact .inr (.inl ⟨off, mode, rfl⟩)
  case swrst => exact .inl (.inr rfl)
  all_goals first | exact .inl (.inl rfl) | exact .inr (.inr rfl)

/-- From `s` to `t` only the fields that a command without bus traffic may write differ (R36). -/
structure LocalFrame (s t : State) : Prop where
  rest : t = { s with
    addr := t.addr, bound := t.bound, proxy := t.proxy, result := t.result,
    evMode := t.evMode, evN90 := t.evN90, evZero := t.evZero, evP90 := t.evP90, busy := false, bus := .idle }

theorem execAngpwm_unconfigured (x : Half) (h : s.evMode = .unconfigured) :
    execAngpwm x s = .next (s.raiseMisuse .unconfigured true) := by
  unfold execAngpwm
  rw [h]
  rfl

theorem execAngpwm_configured (x : Half) (h : s.evMode ≠ .unconfigured) :
    ∃ amt, execAngpwm x s = .next (s.setResult (BitVec.ofInt 32 amt)).complete := by
  unfold execAngpwm
  cases hm : s.evMode with
  | unconfigured => exact absurd hm h
  | linear => exact ⟨_, rfl⟩
  | cubic => exact ⟨_, rfl⟩

/-- How a command that uses no bus can end: a Misuse, or completion. -/
theorem exec_local_ends (i : Instr) (s : State) (h : issuesTxEnd i = false) :
    ∃ t, exec i s = .next t ∧
      ((∃ reason, misuseOf i s = some reason ∧ t = s.raiseMisuse reason (misuseDraws i reason)) ∨
        (misuseOf i s = none ∧ LocalFrame s t)) := by
  cases i <;> try (exact Bool.noConfusion (show true = false from h))
  case angpwm x =>
    by_cases hm : s.evMode = .unconfigured
    · exact ⟨_, execAngpwm_unconfigured x hm, .inl ⟨.unconfigured, by simp [misuseOf, hm], rfl⟩⟩
    · obtain ⟨amt, h⟩ := execAngpwm_configured x hm
      exact ⟨_, h, .inr ⟨by simp [misuseOf, hm], ⟨rfl⟩⟩⟩
  all_goals exact ⟨_, rfl, .inr ⟨rfl, ⟨rfl⟩⟩⟩

end Sys2Proof.Machine
end

