-- ==== Sys2Proof/Laws/Encoding.lean ====
section
/-! SUPPORT. The fields and the reserved bits of the words the encoder writes, and what `decodeWhole` makes of them. -/

namespace Sys2Proof

/-! ## Halves of a word -/

theorem fieldOp_halves (x : Half) (a op : Byte) : fieldOp (x ++ (a ++ op : Half) : Word) = op :=
  (BitVec.extractLsb'_append_eq_of_add_le (xhi := x) (xlo := (a ++ op : Half)) (start := 0) (len := 8) (by decide)).trans
    (BitVec.extractLsb'_append_eq_right (a := a) (b := op))

theorem fieldA_halves (x : Half) (a op : Byte) : fieldA (x ++ (a ++ op : Half) : Word) = a :=
  (BitVec.extractLsb'_append_eq_of_add_le (xhi := x) (xlo := (a ++ op : Half)) (start := 8) (len := 8) (by decide)).trans
    (BitVec.extractLsb'_append_eq_left (a := a) (b := op))

@[simp] theorem fieldB_halves (x y : Half) : fieldB (x ++ y : Word) = x :=
  BitVec.extractLsb'_append_eq_left (a := x) (b := y)

@[simp] theorem fieldC_halves (x y : Half) : fieldC (x ++ y : Word) = y :=
  BitVec.extractLsb'_append_eq_right (a := x) (b := y)

theorem and_halves (x y u v : Half) : (x ++ y : Word) &&& (u ++ v : Word) = ((x &&& u) ++ (y &&& v) : Word) :=
  BitVec.and_append

/-! ## The opcode and the operands of each format's word -/

@[simp] theorem fieldOp_wordN (op : Byte) : fieldOp (wordN op) = op :=
  BitVec.extractLsb'_append_eq_right (a := (0 : BitVec 24)) (b := op)

@[simp] theorem fieldOp_wordA (op a : Byte) : fieldOp (wordA op a) = op := fieldOp_halves _ _ _

@[simp] theorem fieldA_wordA (op a : Byte) : fieldA (wordA op a) = a := fieldA_halves _ _ _

@[simp] theorem fieldOp_wordA7 (op : Byte) (a : BusAddr) : fieldOp (wordA7 op a) = op :=
  (BitVec.extractLsb'_append_eq_of_add_le (xhi := (0 : BitVec 17)) (xlo := (a ++ op : BitVec 15)) (start := 0) (len := 8)
    (by decide)).trans (BitVec.extractLsb'_append_eq_right (a := a) (b := op))

@[simp] theorem fieldA7_wordA7 (op : Byte) (a : BusAddr) : fieldA7 (wordA7 op a) = a :=
  (BitVec.extractLsb'_append_eq_of_add_le (xhi := (0 : BitVec 17)) (xlo := (a ++ op : BitVec 15)) (start := 8) (len := 7)
    (by decide)).trans (BitVec.extractLsb'_append_eq_left (a := a) (b := op))

@[simp] theorem fieldOp_wordAB (op a : Byte) (b : Half) : fieldOp (wordAB op a b) = op := fieldOp_halves _ _ _

@[simp] theorem fieldA_wordAB (op a : Byte) (b : Half) : fieldA (wordAB op a b) = a := fieldA_halves _ _ _

@[simp] theorem fieldB_wordAB (op a : Byte) (b : Half) : fieldB (wordAB op a b) = b := fieldB_halves _ _

@[simp] theorem fieldOp_wordAB8 (op a b8 : Byte) : fieldOp (wordAB8 op a b8) = op := fieldOp_halves _ _ _

@[simp] theorem fieldA_wordAB8 (op a b8 : Byte) : fieldA (wordAB8 op a b8) = a := fieldA_halves _ _ _

@[simp] theorem fieldB8_wordAB8 (op a b8 : Byte) : fieldB8 (wordAB8 op a b8) = b8 :=
  (BitVec.extractLsb'_append_eq_of_le (xhi := ((0 : Byte) ++ b8 : Half)) (xlo := (a ++ op : Half)) (start := 16) (len := 8)
    (by decide)).trans (BitVec.extractLsb'_append_eq_right (a := (0 : Byte)) (b := b8))

@[simp] theorem fieldOp_wordB (op : Byte) (b : Half) : fieldOp (wordB op b) = op := fieldOp_halves _ _ _

@[simp] theorem fieldB_wordB (op : Byte) (b : Half) : fieldB (wordB op b) = b := fieldB_halves _ _

@[simp] theorem fieldB_wordX (d c : Half) : fieldB (wordX d c) = d := fieldB_halves _ _

@[simp] theorem fieldC_wordX (d c : Half) : fieldC (wordX d c) = c := fieldC_halves _ _

/-! ## Reserved bits are written 0 -/

@[simp] theorem reserved_wordN (op : Byte) : wordN op &&& reservedMask .n = 0 := by
  have h : reservedMask .n = ((0xFFFFFF : BitVec 24) ++ (0 : Byte) : Word) := by decide
  rw [h, wordN]
  exact (BitVec.and_append (x₁ := (0 : BitVec 24)) (y₁ := op)).trans (by simp)

@[simp] theorem reserved_wordA (op a : Byte) : wordA op a &&& reservedMask .a = 0 := by
  have h : reservedMask .a = ((0xFFFF : Half) ++ (0 : Half) : Word) := by decide
  rw [h, wordA, and_halves]
  simp

@[simp] theorem reserved_wordA7 (op : Byte) (a : BusAddr) : wordA7 op a &&& reservedMask .a7 = 0 := by
  have h : reservedMask .a7 = ((0x1FFFF : BitVec 17) ++ (0 : BitVec 15) : Word) := by decide
  rw [h, wordA7]
  exact (BitVec.and_append (x₁ := (0 : BitVec 17)) (y₁ := (a ++ op : BitVec 15))).trans (by simp)

@[simp] theorem reserved_wordAB (op a : Byte) (b : Half) : wordAB op a b &&& reservedMask .ab = 0 := by
  have h : reservedMask .ab = 0 := rfl
  rw [h]
  simp

theorem reserved_highByte (op a b8 : Byte) : wordAB8 op a b8 &&& 0xFF000000 = 0 := by
  have h : (0xFF000000 : Word) = (((0xFF : Byte) ++ (0 : Byte) : BitVec (8 + 8)) ++ (0 : Half) : Word) := by decide
  have hx : ((0 : Byte) ++ b8 : BitVec (8 + 8)) &&& ((0xFF : Byte) ++ (0 : Byte) : BitVec (8 + 8)) = 0 :=
    BitVec.and_append.trans (by simp)
  rw [h, wordAB8]
  refine (and_halves _ _ _ _).trans ?_
  rw [hx]
  simp

@[simp] theorem reserved_wordAB8 (op a b8 : Byte) : wordAB8 op a b8 &&& reservedMask .ab8 = 0 := reserved_highByte op a b8

@[simp] theorem reserved_wordM (op a b8 : Byte) : wordAB8 op a b8 &&& reservedMask .m = 0 := reserved_highByte op a b8

theorem reserved_secondByte (op : Byte) (b : Half) : wordB op b &&& 0x0000FF00 = 0 := by
  have h : (0x0000FF00 : Word) = ((0 : Half) ++ ((0xFF : Byte) ++ (0 : Byte) : BitVec (8 + 8)) : Word) := by decide
  have hx : ((0 : Byte) ++ op : BitVec (8 + 8)) &&& ((0xFF : Byte) ++ (0 : Byte) : BitVec (8 + 8)) = 0 :=
    BitVec.and_append.trans (by simp)
  rw [h, wordB]
  refine (and_halves _ _ _ _).trans ?_
  rw [hx]
  simp

@[simp] theorem reserved_wordB (op : Byte) (b : Half) : wordB op b &&& reservedMask .b = 0 := reserved_secondByte op b

@[simp] theorem reserved_wordE2 (op : Byte) (b : Half) : wordB op b &&& reservedMask .e2 = 0 := reserved_secondByte op b

@[simp] theorem reserved_wordE3 (op : Byte) (b : Half) : wordB op b &&& reservedMask .e3 = 0 := reserved_secondByte op b

/-- An extension word with `[31:16] = 0` has no reserved bit set in any format. -/
@[simp] theorem extReserved_wordX (f : Format) (c : Half) : wordX 0#16 c &&& extReservedMask f = 0#32 := by
  have h : (0xFFFF0000 : Word) = ((0xFFFF : Half) ++ (0 : Half) : Word) := by decide
  have hx : wordX 0 c &&& 0xFFFF0000 = 0 := by
    rw [h, wordX, and_halves]
    simp
  have h0 : wordX 0 c &&& 0 = 0 := by simp
  cases f <;> first | exact hx | exact h0

/-! ## Decode on a word with a known format -/

/-- R92 for a word whose opcode is assigned, with no reserved bit set in it or in its extension words. -/
theorem decodeWhole_legal {w : Word} {ext : List Word} {f : Format} {i : Instr} (hf : formatOf (fieldOp w) = some f)
    (hw : w &&& reservedMask f = 0) (he : ∀ e ∈ ext, e &&& extReservedMask f = 0) (hi : commandOf w ext = some i) :
    decodeWhole w ext = .command i (1 + extCount w) := by
  simp only [decodeWhole, hf, hw, hi]
  simpa using he

/-- The decoder looks at the words of the command in hand and no further (R92). -/
theorem decode_cons {w : Word} {ext rest : List Word} (h : ext.length = extCount w) :
    decode (w :: (ext ++ rest)) = decodeWhole w ext := by
  have hlen : ¬ (ext ++ rest).length < extCount w := by simp [h]
  have htake : (ext ++ rest).take (extCount w) = ext := by rw [← h]; simp
  simp [decode, htake, h]

end Sys2Proof
end

