-- ==== Sys2Proof/Laws/PerInstr.lean ====
section
/-! SUPPORT. Statements about every command as syntax: the encoder writes as many words as the base word calls for (R76). -/

namespace Sys2Proof.Laws.EncodedLength

/-- A command that has an encoding is encoded in 1 word and as many extension words as its base word calls for (R76). -/
def Statement (i : Instr) : Prop := i.wellFormed = true → (encode i).length = 1 + extCount ((encode i).headD 0)

/-- One base word whose format has no extension words. -/
theorem single {w : Word} (h : extCount w = 0) : [w].length = 1 + extCount (([w] : List Word).headD 0) := by simp [h]

theorem wrreg (reg v8 : Byte) : Statement (.wrreg reg v8) := fun _ => single (by simp [extCount, formatOf])
theorem rdreg (reg : Byte) : Statement (.rdreg reg) := fun _ => single (by simp [extCount, formatOf])
theorem swrst : Statement .swrst := fun _ => single (by simp [extCount, formatOf])
theorem init (off mode : Byte) : Statement (.init off mode) := fun _ => single (by simp [extCount, formatOf])
theorem initpx (a7 : BusAddr) : Statement (.initpx a7) := fun _ => single (by simp [extCount, formatOf])
theorem setfreq (hz : Half) : Statement (.setfreq hz) := fun _ => single (by simp [extCount, formatOf])
theorem enallc (ab : Byte) : Statement (.enallc ab) := fun _ => single (by simp [extCount, formatOf])
theorem ensub1 (ab : Byte) : Statement (.ensub1 ab) := fun _ => single (by simp [extCount, formatOf])
theorem ensub2 (ab : Byte) : Statement (.ensub2 ab) := fun _ => single (by simp [extCount, formatOf])
theorem ensub3 (ab : Byte) : Statement (.ensub3 ab) := fun _ => single (by simp [extCount, formatOf])
theorem disallc : Statement .disallc := fun _ => single (by simp [extCount, formatOf])
theorem dissub1 : Statement .dissub1 := fun _ => single (by simp [extCount, formatOf])
theorem dissub2 : Statement .dissub2 := fun _ => single (by simp [extCount, formatOf])
theorem dissub3 : Statement .dissub3 := fun _ => single (by simp [extCount, formatOf])
theorem enextclk : Statement .enextclk := fun _ => single (by simp [extCount, formatOf])
theorem getaddr : Statement .getaddr := fun _ => single (by simp [extCount, formatOf])
theorem getpb : Statement .getpb := fun _ => single (by simp [extCount, formatOf])
theorem geterr : Statement .geterr := fun _ => single (by simp [extCount, formatOf])
theorem phasewin (ch : Byte) (amt : Half) : Statement (.phasewin ch amt) := fun _ => single (by simp [extCount, formatOf])
theorem chon (ch : Byte) : Statement (.chon ch) := fun _ => single (by simp [extCount, formatOf])
theorem choff (ch : Byte) : Statement (.choff ch) := fun _ => single (by simp [extCount, formatOf])
theorem chpwm (ch : Byte) (amt : Half) : Statement (.chpwm ch amt) := fun _ => single (by simp [extCount, formatOf])
theorem allpwm (amt : Half) : Statement (.allpwm amt) := fun _ => single (by simp [extCount, formatOf])
theorem getchpwm (ch : Byte) : Statement (.getchpwm ch) := fun _ => single (by simp [extCount, formatOf])
theorem angpwm (x : Half) : Statement (.angpwm x) := fun _ => single (by simp [extCount, formatOf])

theorem evcfg2 (n90 p90 : Half) : Statement (.evcfg2 n90 p90) := fun _ => by
  simp [encode, extCount, formatOf]

theorem evcfg3 (n90 zero p90 : Half) : Statement (.evcfg3 n90 zero p90) := fun _ => by
  simp [encode, extCount, formatOf]

theorem chspwm (first : Byte) (amts : List Half) : Statement (.chspwm first amts) := fun h => by
  have hlen : amts.length ≤ 255 := by simpa [Instr.wellFormed] using h
  have hmod : amts.length % 256 = amts.length := Nat.mod_eq_of_lt (by omega)
  simp [encode, extCount, formatOf, hmod]
  omega

end Sys2Proof.Laws.EncodedLength
end

