-- ==== Sys2Proof/Laws/Script.lean ====
section
/-! SUPPORT. What a command does against an oracle that answers some primitives and then leaves one unanswered (R58, R226). -/

namespace Sys2Proof.Machine

variable {α β : Type} {s t : State} {answers : List Byte} {later : List (Option Byte)}

/-- The oracle answers `answers` and then nothing to the next primitive, and no reset comes. -/
structure Scripted (answers : List Byte) (later : List (Option Byte)) (s : State) : Prop where
  env : s.env = .oracle (answers.map some ++ none :: later)
  uncut : s.Uncut

@[simp] theorem primitives_append (xs ys : List BusEvent) : primitives (xs ++ ys) = primitives xs ++ primitives ys := by
  simp [primitives, List.filterMap_append]

/-- A bus operation under such an oracle: it runs to its end on the first of the answers, one for each primitive, or it is held with
exactly the answered primitives completed. -/
def Bus.Follows (answers : List Byte) (later : List (Option Byte)) (s : State) : Bus α → Prop
  | .done _ t => ∃ used rest evs, answers = used ++ rest ∧ (primitives evs).length = used.length ∧ t.trace = s.trace ++ evs ∧
      Scripted rest later t
  | .hung t => ∃ evs, (primitives evs).length = answers.length ∧ t.trace = s.trace ++ evs ∧ t.env = .oracle later

theorem Bus.Follows.done (v : α) (h : Scripted answers later s) : (Bus.done v s).Follows answers later s :=
  ⟨[], answers, [], rfl, rfl, by simp, h⟩

theorem Bus.Follows.andThen {x : Bus α} {k : α → State → Bus β} (hx : x.Follows answers later s)
    (hk : ∀ v t rest, Scripted rest later t → (k v t).Follows rest later t) : (x.andThen k).Follows answers later s := by
  cases x with
  | hung t => exact hx
  | done v t =>
    obtain ⟨used, rest, evs, ha, hn, ht, hs⟩ := hx
    have := hk v t rest hs
    show (k v t).Follows answers later s
    revert this
    cases k v t with
    | done w u =>
      rintro ⟨used', rest', evs', ha', hn', hu, hs'⟩
      exact ⟨used ++ used', rest', evs ++ evs', by rw [ha, ha', List.append_assoc], by simp [hn, hn'], by rw [hu, ht, List.append_assoc], hs'⟩
    | hung u =>
      rintro ⟨evs', hn', hu, he⟩
      exact ⟨evs ++ evs', by simp [ha, hn, hn'], by rw [hu, ht, List.append_assoc], he⟩

/-- One primitive: `log` is what its completion adds to the history. -/
theorem issue_follows (p : BusPrim) (h : Scripted answers later s) (k : Byte → State → Bus α)
    (hk : ∀ b t, t.Uncut → ∃ v u e, k b t = .done v u ∧ primitives [e] = [p] ∧ u.trace = t.trace ++ [e] ∧ u.env = t.env ∧ u.resetIn = t.resetIn) :
    ((issue p s).andThen k).Follows answers later s := by
  rw [issue, startAction_uncut _ _ h.uncut]
  cases answers with
  | nil =>
    have he : s.env = .oracle (none :: later) := h.env
    have : ask p s = .hung ({ s with env := .oracle later }.heldIn (.prim p)) := by
      unfold ask
      rw [he]
      rfl
    rw [this]
    exact ⟨[], rfl, by simp [State.heldIn], rfl⟩
  | cons b rest =>
    have he : s.env = .oracle (some b :: (rest.map some ++ none :: later)) := h.env
    have : ask p s = .done b { s with env := .oracle (rest.map some ++ none :: later) } := by
      unfold ask
      rw [he]
      rfl
    rw [this]
    obtain ⟨v, u, e, hu, hp, ht, hv, hr⟩ := hk b { s with env := .oracle (rest.map some ++ none :: later) } h.uncut
    show (k b _).Follows _ _ _
    rw [hu]
    exact ⟨[b], rest, [e], rfl, by rw [hp]; rfl, ht, hv, h.uncut.of_eq hr⟩

theorem txBegin_follows (a : BusAddr) (h : Scripted answers later s) : (txBegin a s).Follows answers later s :=
  issue_follows _ h _ fun _ _ _ => ⟨_, _, _, rfl, rfl, rfl, rfl, rfl⟩

theorem txWrite_follows (b : Byte) (h : Scripted answers later s) : (txWrite b s).Follows answers later s :=
  issue_follows _ h _ fun _ _ _ => ⟨_, _, _, rfl, rfl, rfl, rfl, rfl⟩

theorem txEnd_follows (h : Scripted answers later s) : (txEnd s).Follows answers later s :=
  issue_follows _ h _ fun _ _ _ => ⟨_, _, _, rfl, rfl, rfl, rfl, rfl⟩

theorem rxRequest_follows (a : BusAddr) (n : Nat) (h : Scripted answers later s) : (rxRequest a n s).Follows answers later s :=
  issue_follows _ h _ fun _ _ _ => ⟨_, _, _, rfl, rfl, rfl, rfl, rfl⟩

theorem rxRead_follows (missing : Bool) (h : Scripted answers later s) : (rxRead missing s).Follows answers later s :=
  issue_follows _ h _ fun _ _ _ => by
    cases missing
    · exact ⟨_, _, _, rfl, rfl, rfl, rfl, rfl⟩
    · exact ⟨_, _, _, rfl, rfl, rfl, rfl, rfl⟩

theorem waitUs_follows (us : Nat) (h : Scripted answers later s) : (waitUs us s).Follows answers later s := by
  rw [waitUs_uncut us h.uncut]
  exact ⟨[], answers, [.wait us], rfl, rfl, rfl, h.env, h.uncut⟩

theorem Bus.Follows.inBurst {x : Bus α} (a : BusAddr) (bytes : List Byte) (hx : x.Follows answers later s) :
    (x.inBurst a bytes).Follows answers later s := by
  cases x with
  | done v t => exact hx
  | hung t => exact hx

theorem txWrites_follows (bytes : List Byte) (h : Scripted answers later s) : (txWrites bytes s).Follows answers later s := by
  induction bytes generalizing s answers with
  | nil => exact .done () h
  | cons b bs ih => exact (txWrite_follows b h).andThen fun _ _ _ h => ih h

theorem transmit_follows (a : BusAddr) (bytes : List Byte) (h : Scripted answers later s) : (transmit a bytes s).Follows answers later s :=
  .inBurst a bytes ((txBegin_follows a h).andThen fun _ _ _ h => (txWrites_follows bytes h).andThen fun _ _ _ h => txEnd_follows h)

theorem readReg_follows (reg : Byte) (h : Scripted answers later s) : (readReg reg s).Follows answers later s :=
  (transmit_follows _ _ h).andThen fun _ _ _ h => (rxRequest_follows _ _ h).andThen fun _ _ _ h =>
    (rxRead_follows _ h).andThen fun v t _ h => Bus.Follows.done (s := rxDone t) v ⟨h.env, h.uncut⟩

end Sys2Proof.Machine
end

