-- ==== Sys2Proof/Laws/Plan.lean ====
section
/-! SUPPORT. How far a bus operation comes in its sequence of actions, and where it stands on the bus (R96, R226, R243). -/

namespace Sys2Proof.Machine

variable {α β : Type} {s t : State} {b₀ b₁ b₂ : BusState} {plan plan' : List Held}

/-! ## The terms, piece by piece -/

theorem busAfter_append {ps qs : List BusPrim} (h : busAfter b₀ ps = some b₁) : busAfter b₀ (ps ++ qs) = busAfter b₁ qs := by
  unfold busAfter at *
  rw [List.foldlM_append, h]
  rfl

/-- One move of the table, from the entry that records it. -/
theorem busAfter_entry {e : BusEvent} {p : BusPrim} (h : e.action = .prim p) (b : BusState) : busAfter b (primitives [e]) = busMove b p := by
  have : primitives [e] = [p] := by simp [primitives, h]
  rw [this]
  show (busMove b p >>= some) = _
  cases busMove b p <;> rfl

/-- A bus operation with the actions `plan`, which moves BUSSTATE from `b₀` to `b₁`. It runs to its end with all of them recorded and the
reset input counted down by as many; or it is held in the one that the recorded ones precede, by a reset that was to come in it or, if
it is a primitive, by an environment that does not answer. -/
def Bus.Plays (b₀ b₁ : BusState) (plan : List Held) (s : State) : Bus α → Prop
  | .done _ t => ∃ evs, t.trace = s.trace ++ evs ∧ evs.map BusEvent.action = plan.map Held.action ∧ t.stall = s.stall ∧
      (s.NoStall → t.NoStall) ∧ (∀ k, s.resetIn = .inAction k → plan.length ≤ k) ∧
      (∀ k, t.resetIn = .inAction k ↔ s.resetIn = .inAction (k + plan.length)) ∧
      (s.bus = b₀ → busAfter b₀ (primitives evs) = some b₁ ∧ t.bus = b₁)
  | .hung t => ∃ evs h, t.trace = s.trace ++ evs ∧ evs.map BusEvent.action = (plan.take evs.length).map Held.action ∧
      plan[evs.length]? = some h ∧ t.stall = some h ∧
      (s.resetIn = .inAction evs.length ∧ t.resetIn = .now ∨ (∃ p, h.action = .prim p) ∧ ¬ s.NoStall) ∧
      (s.bus = b₀ → busAfter b₀ (primitives evs) = some t.bus ∧ ∀ p, h.action = .prim p → busMove t.bus p ≠ none)

theorem Bus.Plays.done (v : α) (s : State) : (Bus.done v s).Plays b₀ b₀ [] s :=
  ⟨[], by simp, rfl, rfl, id, fun _ _ => Nat.zero_le _, fun _ => Iff.rfl, fun h => ⟨rfl, h⟩⟩

theorem Bus.Plays.andThen {x : Bus α} {k : α → State → Bus β} (hx : x.Plays b₀ b₁ plan s)
    (hk : ∀ v t, x = .done v t → (k v t).Plays b₁ b₂ plan' t) : (x.andThen k).Plays b₀ b₂ (plan ++ plan') s := by
  cases x with
  | hung t =>
    obtain ⟨evs, h, ht, ha, hp, hs, hr, hb⟩ := hx
    have hlt : evs.length < plan.length := (List.getElem?_eq_some_iff.mp hp).1
    exact ⟨evs, h, ht, by rw [ha, List.take_append_of_le_length (Nat.le_of_lt hlt)], by rw [List.getElem?_append_left hlt, hp], hs, hr, hb⟩
  | done v t =>
    obtain ⟨evs, ht, ha, hs, hn, hle, hr, hb⟩ := hx
    have hlen : evs.length = plan.length := by simpa using congrArg List.length ha
    have := hk v t rfl
    show (k v t).Plays b₀ b₂ (plan ++ plan') s
    revert this
    cases k v t with
    | done w u =>
      rintro ⟨evs', hu, ha', hs', hn', hle', hr', hb'⟩
      refine ⟨evs ++ evs', by rw [hu, ht, List.append_assoc], by simp [ha, ha'], hs'.trans hs, hn' ∘ hn, fun k hk => ?_, fun k => ?_,
        fun h => ?_⟩
      · have h₁ := hle k hk
        have h₂ := hle' (k - plan.length) ((hr _).mpr (by rw [hk, Nat.sub_add_cancel h₁]))
        rw [List.length_append]
        omega
      · rw [hr', hr, List.length_append, Nat.add_assoc, Nat.add_comm plan'.length]
      · obtain ⟨h₁, h₂⟩ := hb h
        rw [primitives_append, busAfter_append h₁]
        exact hb' h₂
    | hung u =>
      rintro ⟨evs', h, hu, ha', hp, hs', hc', hb'⟩
      have hl : (evs ++ evs').length = plan.length + evs'.length := by rw [List.length_append, hlen]
      refine ⟨evs ++ evs', h, by rw [hu, ht, List.append_assoc], ?_, ?_, hs', ?_, fun h => ?_⟩
      · rw [List.map_append, ha, ha', hl, List.take_append, List.map_append, List.take_of_length_le (Nat.le_add_right _ _),
          Nat.add_sub_cancel_left]
      · rw [hl, List.getElem?_append_right (Nat.le_add_right _ _), Nat.add_sub_cancel_left, hp]
      · rw [hl, Nat.add_comm]
        exact hc'.imp (fun ⟨h, h'⟩ => ⟨(hr _).mp h, h'⟩) fun ⟨hp, h⟩ => ⟨hp, fun h' => h (hn h')⟩
      · obtain ⟨h₁, h₂⟩ := hb h
        rw [primitives_append, busAfter_append h₁]
        exact hb' h₂

/-! ## The operations -/

/-- An action that reset does not stop goes on; its part of `Bus.Plays` is shown from the state after the countdown. -/
theorem startAction_plays (h : Held) (rest : State → Bus α) (hb : h.burst = none)
    (hp : ∀ p, h.action = .prim p → busMove b₀ p ≠ none)
    (hd : ∀ s', s' = { s with resetIn := s'.resetIn } → (∀ k, s'.resetIn = .inAction k ↔ s.resetIn = .inAction (k + 1)) →
      (∀ k, s.resetIn = .inAction k → 1 ≤ k) → (rest s').Plays b₀ b₁ [h] s) :
    (startAction h.action s rest).Plays b₀ b₁ [h] s := by
  obtain ⟨action, burst⟩ := h
  cases hb
  unfold startAction
  cases hr : s.resetIn with
  | off => exact hd _ rfl (fun k => by simp [hr]) fun k hk => by rw [hr] at hk; cases hk
  | now => exact hd _ rfl (fun k => by simp [hr]) fun k hk => by rw [hr] at hk; cases hk
  | inAction n =>
    cases n with
    | zero => exact ⟨[], ⟨action, none⟩, by simp [State.heldIn], rfl, rfl, rfl, .inl ⟨hr, rfl⟩, fun h => ⟨by rw [show busAfter b₀ _ = some b₀ from rfl, ← h]; rfl, fun p hp' => by rw [show State.bus _ = s.bus from rfl, h]; exact hp p hp'⟩⟩
    | succ n => exact hd { s with resetIn := .inAction n } rfl (fun k => by simp [hr]) fun k hk => by rw [hr] at hk; cases hk; omega

/-- One primitive, of which `k` records the completion. -/
theorem issue_plays {p : BusPrim} {k : Byte → State → Bus α} (hm : busMove b₀ p = some b₁)
    (hk : ∀ b t, ∃ v u e, k b t = .done v u ∧ e.action = .prim p ∧ u.trace = t.trace ++ [e] ∧ u.stall = t.stall ∧
      u.resetIn = t.resetIn ∧ (t.NoStall → u.NoStall) ∧ (t.bus = b₀ → u.bus = b₁)) (s : State) :
    ((issue p s).andThen k).Plays b₀ b₁ [⟨.prim p, none⟩] s := by
  have hmove : busMove b₀ p ≠ none := by rw [hm]; simp
  have hall : (startAction (.prim p) s fun s => (ask p s).andThen k).Plays b₀ b₁ [⟨.prim p, none⟩] s := by
    refine startAction_plays ⟨.prim p, none⟩ _ rfl (fun q hq => by cases hq; exact hmove) fun s' he hr hle => ?_
    have hkeep : s'.trace = s.trace ∧ s'.stall = s.stall ∧ s'.bus = s.bus ∧ (s'.NoStall ↔ s.NoStall) := by rw [he]; exact ⟨rfl, rfl, rfl, Iff.rfl⟩
    obtain ⟨htr, hst, hbus, hns⟩ := hkeep
    have hask : (∃ b t, ask p s' = .done b t ∧ t = { s' with env := t.env, draws := t.draws } ∧ (s'.NoStall → t.NoStall)) ∨
        (∃ t, ask p s' = .hung t ∧ t = { s' with busy := true, stall := some ⟨.prim p, none⟩, env := t.env, draws := t.draws } ∧ ¬ s'.NoStall) := by
      by_cases hns : s'.NoStall
      · obtain ⟨b, t, ht, hn, hr⟩ := ask_noStall p hns
        exact .inl ⟨b, t, ht, hr, fun _ => hn⟩
      · unfold ask
        split
        · cases Config.busAnswer s'.draws with
          | none => exact .inr ⟨_, rfl, rfl, hns⟩
          | some b => exact .inl ⟨_, _, rfl, rfl, fun h => absurd h hns⟩
        · rename_i answer later henv
          cases answer with
          | none => exact .inr ⟨_, rfl, rfl, hns⟩
          | some b => exact .inl ⟨_, _, rfl, rfl, fun h => absurd h hns⟩
        · exact .inl ⟨_, _, rfl, rfl, fun h => absurd h hns⟩
    rcases hask with ⟨b, t, ht, hrest, hn⟩ | ⟨t, ht, hrest, hn⟩
    · obtain ⟨v, u, e, hu, hact, htrace, hstall, hreset, hnext, hb⟩ := hk b t
      rw [ht]
      show (k b t).Plays _ _ _ _
      rw [hu]
      have h₁ : t.trace = s.trace ∧ t.stall = s.stall ∧ t.bus = s.bus ∧ t.resetIn = s'.resetIn := by rw [hrest]; exact ⟨htr, hst, hbus, rfl⟩
      refine ⟨[e], by rw [htrace, h₁.1], by simp [hact], by rw [hstall, h₁.2.1], fun h => hnext (hn (hns.mpr h)), hle,
        fun k => by rw [hreset, h₁.2.2.2]; exact hr k, fun h => ⟨by rw [busAfter_entry hact, hm], hb (by rw [h₁.2.2.1, h])⟩⟩
    · rw [ht]
      have h₁ : t.trace = s.trace ∧ t.bus = s.bus := by rw [hrest]; exact ⟨htr, hbus⟩
      exact ⟨[], ⟨.prim p, none⟩, by simp [h₁.1], rfl, rfl, by rw [hrest], .inr ⟨⟨p, rfl⟩, fun h => hn (hns.mpr h)⟩,
        fun h => ⟨by rw [h₁.2, h]; rfl, fun q hq => by cases hq; rw [h₁.2, h]; exact hmove⟩⟩
  have : (issue p s).andThen k = startAction (.prim p) s fun s => (ask p s).andThen k := by
    unfold issue startAction
    cases s.resetIn.countdown <;> rfl
  rw [this]
  exact hall

theorem txBegin_plays (a : BusAddr) (s : State) : (txBegin a s).Plays .idle (.tx a 0) [⟨.prim (.txBegin a), none⟩] s :=
  by
  unfold txBegin
  exact issue_plays rfl (fun _ t => by exact ⟨_, _, .txBegin a, rfl, rfl, rfl, rfl, rfl, id, fun _ => rfl⟩) s

theorem txWrite_plays (b : Byte) (a : BusAddr) (k : Nat) (s : State) :
    (txWrite b s).Plays (.tx a k) (.tx a (k + 1)) [⟨.prim (.txWrite b), none⟩] s :=
by
  unfold txWrite
  refine issue_plays rfl (fun c t => ?_) s
  exact ⟨_, _, .txWrite b (c.toNat % 2), rfl, rfl, rfl, rfl, rfl, id, fun h => by
    show t.bus.queued = _
    rw [h]
    rfl⟩

theorem txEnd_plays (a : BusAddr) (k : Nat) (s : State) : (txEnd s).Plays (.tx a k) .idle [⟨.prim .txEnd, none⟩] s :=
  by
  unfold txEnd
  exact issue_plays rfl (fun st _ => by exact ⟨_, _, .txEnd st, rfl, rfl, rfl, rfl, rfl, id, fun _ => rfl⟩) s

theorem txWrites_plays (bytes : List Byte) (a : BusAddr) (k : Nat) (s : State) :
    (txWrites bytes s).Plays (.tx a k) (.tx a (k + bytes.length)) (bytes.map fun b => ⟨.prim (.txWrite b), none⟩) s := by
  induction bytes generalizing k s with
  | nil => exact .done () s
  | cons b bs ih =>
    have := (txWrite_plays b a k s).andThen fun _ t _ => ih (k + 1) t
    rwa [show k + 1 + bs.length = k + (b :: bs).length by simp only [List.length_cons]; omega] at this

/-- Inside a transmission every action in progress knows it. -/
theorem Bus.Plays.inBurst {x : Bus α} (a : BusAddr) (bytes : List Byte) (hx : x.Plays b₀ b₁ plan s) :
    (x.inBurst a bytes).Plays b₀ b₁ (plan.map fun h => { h with burst := some (a, bytes) }) s := by
  have hmap (l : List Held) : (l.map fun h => { h with burst := some (a, bytes) }).map Held.action = l.map Held.action := by
    simp [Function.comp_def]
  cases x with
  | done v t =>
    obtain ⟨evs, ht, ha, hs, hn, hle, hr, hb⟩ := hx
    exact ⟨evs, ht, by rw [hmap, ha], hs, hn, by rwa [List.length_map], by rwa [List.length_map], hb⟩
  | hung t =>
    obtain ⟨evs, h, ht, ha, hp, hs, hc, hb⟩ := hx
    exact ⟨evs, { h with burst := some (a, bytes) }, ht, by rw [← List.map_take, hmap, ha], by rw [List.getElem?_map, hp]; rfl,
      by show t.stall.map _ = _; rw [hs]; rfl, hc, hb⟩

theorem transmit_plays (a : BusAddr) (bytes : List Byte) (s : State) :
    (transmit a bytes s).Plays .idle .idle (burstPlan a bytes) s := by
  have := ((txBegin_plays a s).andThen fun _ t _ => (txWrites_plays bytes a 0 t).andThen fun _ u _ => txEnd_plays a _ u).inBurst a bytes
  simpa [burstPlan, sends, transmit, Function.comp_def] using this

theorem waitUs_plays (us : Nat) (s : State) : (waitUs us s).Plays b₀ b₀ (waitPlan us) s := by
  refine startAction_plays ⟨.wait us, none⟩ _ rfl (fun p hp => by cases hp) fun s' he hr hle => ?_
  rw [he]
  exact ⟨[.wait us], rfl, rfl, rfl, id, hle, hr, fun h => ⟨rfl, h⟩⟩

theorem rxRequest_plays (a : BusAddr) (s : State) : (rxRequest a 1 s).Plays .idle (.rx a 1) [⟨.prim (.rxRequest a 1), none⟩] s := by
  unfold rxRequest
  exact issue_plays rfl (fun c _ => by exact ⟨_, _, .rxRequest a 1 (min c.toNat 1), rfl, rfl, rfl, rfl, rfl, id, fun _ => rfl⟩) s

/-- A read's last byte, and the end of the read. -/
theorem rxLast_plays (a : BusAddr) (missing : Bool) (s : State) :
    ((rxRead missing s).andThen fun v s => .done v (rxDone s)).Plays (.rx a 1) .idle [⟨.prim .rxRead, none⟩] s := by
  have : ((rxRead missing s).andThen fun v s => .done v (rxDone s)) = (issue .rxRead s).andThen fun b s =>
      if missing = true then
        .done (Config.freeByte s.draws)
          (rxDone ({ s with bus := s.bus.taken, draws := s.draws + 1 }.log (.rxRead (Config.freeByte s.draws))))
      else .done b (rxDone ({ s with bus := s.bus.taken }.log (.rxRead b))) := by
    unfold rxRead
    cases issue .rxRead s with
    | hung _ => rfl
    | done _ _ => cases missing <;> rfl
  rw [this]
  refine issue_plays rfl (fun b w => ?_) s
  cases missing
  · exact ⟨_, _, .rxRead b, rfl, rfl, rfl, rfl, rfl, id, fun _ => rfl⟩
  · exact ⟨_, _, .rxRead _, rfl, rfl, rfl, rfl, rfl, fun h => BusEnv.NoStall.mono (Nat.le_succ _) h, fun _ => rfl⟩

/-- The single-register read (R103), whose request and byte go to the handle's address as it stood. -/
theorem readReg_plays (reg : Byte) (s : State) : (readReg reg s).Plays .idle .idle (readPlan s.addr reg) s := by
  unfold readReg
  refine (transmit_plays _ _ s).andThen (plan' := [⟨.prim (.rxRequest s.addr 1), none⟩] ++ [⟨.prim .rxRead, none⟩]) fun _ t ht => ?_
  have haddr : t.addr = s.addr := by
    have := transmit_within s.addr [reg] s
    rw [ht] at this
    rw [this.1.rest]
  rw [haddr]
  refine Bus.Plays.andThen (b₁ := .rx s.addr 1) (rxRequest_plays _ t) fun avail u _ => ?_
  exact rxLast_plays _ _ u

/-! ## The byte a read returns -/

theorem ask_trace {p : BusPrim} {b : Byte} (h : ask p s = .done b t) : t.trace = s.trace := by
  unfold ask at h
  split at h
  · cases ha : Config.busAnswer s.draws <;> rw [ha] at h <;> cases h
    rfl
  · rename_i answer later _
    cases answer <;> cases h
    rfl
  · cases h
    rfl

theorem issue_trace {p : BusPrim} {b : Byte} (h : issue p s = .done b t) : t.trace = s.trace := by
  unfold issue startAction at h
  split at h
  · rename_i r _
    exact ask_trace (s := { s with resetIn := r }) h
  · cases h

theorem Bus.andThen_eq_done {x : Bus α} {k : α → State → Bus β} {w : β} (h : x.andThen k = .done w t) :
    ∃ v u, x = .done v u ∧ k v u = .done w t := by
  cases x with
  | done v u => exact ⟨v, u, rfl, h⟩
  | hung u => cases h

/-- Entries among which no byte was read. -/
theorem bytesRead_eq_nil {evs : List BusEvent} (h : Action.prim .rxRead ∉ evs.map BusEvent.action) : bytesRead evs = [] := by
  induction evs with
  | nil => rfl
  | cons e evs ih =>
    simp only [List.map_cons, List.mem_cons, not_or] at h
    have := ih h.2
    cases e <;> first | exact this | exact absurd rfl h.1

theorem rxRead_not_mem_burstPlan (a : BusAddr) (bytes : List Byte) :
    Action.prim .rxRead ∉ (burstPlan a bytes).map Held.action := by
  simp [burstPlan, sends]

/-- A single-register read that runs to its end has recorded the byte it returns, and no other. -/
theorem readReg_reads {reg v : Byte} (h : readReg reg s = .done v t) : ∃ evs, t.trace = s.trace ++ evs ∧ bytesRead evs = [v] := by
  obtain ⟨_, t₁, h₁, h⟩ := Bus.andThen_eq_done h
  obtain ⟨avail, t₂, h₂, h⟩ := Bus.andThen_eq_done h
  obtain ⟨w, t₃, h₃, h⟩ := Bus.andThen_eq_done h
  cases h
  obtain ⟨c, u₂, hc, h⟩ := Bus.andThen_eq_done h₂
  cases h
  have hp := transmit_plays s.addr [reg] s
  rw [h₁] at hp
  obtain ⟨evs, ht, ha, _⟩ := hp
  obtain ⟨b, u₃, hb, h⟩ := Bus.andThen_eq_done h₃
  have h₅ := issue_trace hb
  have h₄ := issue_trace hc
  have hnil : bytesRead evs = [] := bytesRead_eq_nil (by rw [ha]; exact rxRead_not_mem_burstPlan _ _)
  refine ⟨evs ++ [.rxRequest t₁.addr 1 (min c.toNat 1), .rxRead v], ?_, by rw [bytesRead_append, hnil]; rfl⟩
  split at h <;> cases h <;> simp [rxDone, State.log, h₅, h₄, ht]

end Sys2Proof.Machine
end

