-- ==== Sys2Proof/Laws/Step.lean ====
section
/-! SUPPORT. What one step can do, and how many words a decoded command takes. -/

namespace Sys2Proof

/-- A decoded command, legal or not, takes no more words than are there (R76, R88). -/
theorem decode_length_le {ws : List Word} {len : Nat}
    (h : (∃ i, decode ws = .command i len) ∨ ∃ why, decode ws = .illegal why len) : len ≤ ws.length := by
  cases ws with
  | nil => rcases h with ⟨_, h⟩ | ⟨_, h⟩ <;> cases h
  | cons w rest =>
    have one : 1 ≤ (w :: rest).length := by simp
    by_cases hlen : rest.length < extCount w
    · rcases h with ⟨_, h⟩ | ⟨_, h⟩ <;> simp [decode, hlen] at h
    · have hle : 1 + extCount w ≤ (w :: rest).length := by simp only [List.length_cons]; omega
      simp only [decode, if_neg hlen, decodeWhole] at h
      rcases h with ⟨_, h⟩ | ⟨_, h⟩
      all_goals
        split at h
        · cases h
          try exact one
        · split at h
          · cases h
            try exact hle
          · split at h
            · cases h
              try exact hle
            · split at h <;> cases h
              first | exact one | exact hle

end Sys2Proof

namespace Sys2Proof.Machine

/-- Without reset, a step leaves the state as it is, waits for words, raises IllegalCommand, or runs the command its words decode to. -/
theorem step_cases {s t : State} (hr : s.resetIn ≠ .now) (ht : step s = .next t) :
    t = s ∨
    (s.blocked = false ∧ s.wordsAhead ≠ [] ∧ t = s.awaitWords) ∨
    (s.blocked = false ∧ ∃ why len, decode s.wordsAhead = .illegal why len ∧ t = (s.accept len).raiseMisuse .illegalCommand true) ∨
    (s.blocked = false ∧ ∃ i len, decode s.wordsAhead = .command i len ∧ exec i (s.accept len) = .next t) := by
  unfold step intake at ht
  rw [if_neg hr] at ht
  by_cases hb : s.blocked = true
  · simp only [hb, if_true] at ht
    cases ht
    exact .inl rfl
  · have hb' : s.blocked = false := by simpa using hb
    by_cases he : s.wordsAhead.isEmpty = true
    · simp only [hb', he, Bool.false_eq_true, if_false, if_true] at ht
      cases ht
      exact .inl rfl
    · have hne : s.wordsAhead ≠ [] := by simpa using he
      simp only [hb', he, Bool.false_eq_true, if_false] at ht
      cases hd : decode s.wordsAhead with
      | incomplete =>
        simp only [hd] at ht
        cases ht
        exact .inr (.inl ⟨hb', hne, rfl⟩)
      | illegal why len =>
        simp only [hd] at ht
        cases ht
        exact .inr (.inr (.inl ⟨hb', why, len, rfl, rfl⟩))
      | command i len =>
        simp only [hd] at ht
        exact .inr (.inr (.inr ⟨hb', i, len, rfl, ht⟩))

/-- In the state with a command's words taken BUSY is 1, and nothing else that the host or the bus can see has changed (R33). -/
theorem accepted_frame {s t : State} (h : s.accepted = some t) :
    t = { s with cp := t.cp, taken := [], busy := true } ∧ s.stall = none := by
  unfold State.accepted at h
  split at h
  · cases h
  · rename_i hn
    have hb : s.blocked = false := by simpa using fun hb => hn (.inr hb)
    have hs : s.stall = none := by
      cases hs : s.stall <;> simp_all [State.blocked]
    split at h <;> cases h
    · exact ⟨rfl, hs⟩
    · exact ⟨rfl, hs⟩

/-- With reset asserted, a step is the reset (R240). -/
theorem step_reset {s : State} (hr : s.resetIn = .now) : step s = .next s.applyReset := by simp [step, intake, hr]

end Sys2Proof.Machine
end

