-- ==== Sys2Proof/Machine/Assembler.lean ====
section
/-! DEFINITION. The assembler's lines and the words it emits (R87, R89, R93). The text of a line is no part of the machine. -/

namespace Sys2Proof.Machine

/-- One line (R87, R89). -/
inductive AsmLine where
  /-- A command with all of its operands; for CHSPWM the count is the list's length (R87). -/
  | command (i : Instr)
  /-- `INIT off`, the mode byte left to the assembler (R89). -/
  | initDefault (off : Byte)
  /-- `.word v`: a raw word, which may be illegal (R87). -/
  | word (w : Word)
  deriving DecidableEq, Repr

/-- The words of a line. -/
def AsmLine.words (cfg : Config) : AsmLine → List Word
  | .command i => encode i
  | .initDefault off => encode (.init off (defaultModeByte cfg))
  | .word w => [w]

/-- The words of a program, line by line (R87). -/
def assemble (cfg : Config) (lines : List AsmLine) : List Word := lines.flatMap fun line => line.words cfg

end Sys2Proof.Machine
end

