-- ==== Sys2Proof/Tests/Slice0.lean ====
section
/-! SUPPORT. The model's own tests: ill-formed terms, words written out from the spec's formats, single steps whose expected values are the
spec's own vectors, and a witness for the hypotheses of every statement. -/

namespace Sys2Proof.Tests

open Sys2Proof.Machine

/-! ## Small states -/

/-- The parameters of the notation section of 95_test_vectors.md. -/
def linear : Config := { pbStrap := .linear }

/-- The reference responder at 0x40 with `R[0]` given. -/
def peer (mode1 : Byte) : Responder := { ra := 0x40, regs := [(0, mode1)], ptr := 0, txAddr := 0, txBytes := [] }

/-- A clean entry under a configuration, against that responder. -/
def entry (cfg : Config) (mode1 : Byte) : State := { State.resetWith cfg with env := .responder (peer mode1) }

/-- A Direct handle at 0x40 under a configuration. -/
def directIn (cfg : Config) (mode1 : Byte) : State := { entry cfg mode1 with addr := 0x40, bound := true }

def direct : State := directIn linear 0xA0

/-- A Proxy handle at 0x70. -/
def proxied : State := { direct with addr := 0x70, proxy := true }

def onNext (o : Host.Outcome State Fault Refusal) (p : State → Bool) : Bool :=
  match o with
  | .next t => p t
  | _ => false

/-- What a step did on the bus. -/
def did (o : Host.Outcome State Fault Refusal) : List Action :=
  match o with
  | .next t => t.trace.map BusEvent.action
  | _ => []

/-- RESULT, LASTERR and MISUSE after a step. -/
def left (o : Host.Outcome State Fault Refusal) : Option (Word × Byte × Bool) :=
  match o with
  | .next t => some (t.result, t.lastErr, t.misuse)
  | _ => none

/-- The misuse a step raised without any bus action, if it raised one. -/
def raised (o : Host.Outcome State Fault Refusal) : Option MisuseReason :=
  match o with
  | .next t => if t.misuse = true ∧ t.trace = [] ∧ t.busy = false then t.misuseReason else none
  | _ => none

/-! ## WellFormed: the one check, and the term it refuses -/

theorem test_ill_formed_count : (Instr.chspwm 0 (List.replicate 256 0)).wellFormed = false := by
  rw [Instr.wellFormed, List.length_replicate]; rfl

theorem test_well_formed_count : (Instr.chspwm 0 (List.replicate 255 0)).wellFormed = true := by
  rw [Instr.wellFormed, List.length_replicate]; rfl

/-! ## Decoding: one word per constructor, written out from R73 to R81 (values of R90 and of the L2 tables where they have one) -/

theorem test_decode_register_access :
    decode [0x0079FE01] = .command (.wrreg 0xFE 0x79) 1 ∧ decode [0x0000FE02] = .command (.rdreg 0xFE) 1 := by decide

theorem test_decode_lifecycle :
    decode [0x00000010] = .command .swrst 1 ∧ decode [0x00040511] = .command (.init 5 4) 1 ∧
    decode [0x00007F12] = .command (.initpx 0x7F) 1 ∧ decode [0x00320013] = .command (.setfreq 50) 1 ∧
    decode [0x0000E114] = .command (.enallc 0xE1) 1 ∧ decode [0x0000E315] = .command (.ensub1 0xE3) 1 ∧
    decode [0x0000E416] = .command (.ensub2 0xE4) 1 ∧ decode [0x0000E817] = .command (.ensub3 0xE8) 1 := by decide

theorem test_decode_lifecycle_no_operand :
    decode [0x00000018] = .command .disallc 1 ∧ decode [0x00000019] = .command .dissub1 1 ∧
    decode [0x0000001A] = .command .dissub2 1 ∧ decode [0x0000001B] = .command .dissub3 1 ∧
    decode [0x0000001C] = .command .enextclk 1 ∧ decode [0x0000001D] = .command .getaddr 1 ∧
    decode [0x0000001E] = .command .getpb 1 ∧ decode [0x0000001F] = .command .geterr 1 := by decide

theorem test_decode_channel :
    decode [0x01F40F20] = .command (.phasewin 15 500) 1 ∧ decode [0x00000730] = .command (.chon 7) 1 ∧
    decode [0x00000731] = .command (.choff 7) 1 ∧ decode [0x03E80332] = .command (.chpwm 3 1000) 1 ∧
    decode [0x00030E33, 0x64, 0x1000, 0x0] = .command (.chspwm 14 [100, 4096, 0]) 4 ∧
    decode [0x00000333, 0xFFFFFFFF] = .command (.chspwm 3 []) 1 ∧
    decode [0x08000034] = .command (.allpwm 2048) 1 ∧ decode [0x00000F35] = .command (.getchpwm 15) 1 := by decide

theorem test_decode_evaluator :
    decode [0x00660040, 0x00000200] = .command (.evcfg2 102 512) 2 ∧
    decode [0x00640041, 0x0190012C] = .command (.evcfg3 100 300 400) 2 ∧
    decode [0xFFD30042] = .command (.angpwm (-45)) 1 := by decide

/-- The illegal words of R91 and L2.1, with the words they take. -/
theorem test_decode_illegal :
    decode [0x00000000] = .illegal .unassignedOpcode 1 ∧ decode [0x000000FF] = .illegal .unassignedOpcode 1 ∧
    decode [0x00000110] = .illegal .reservedBaseBit 1 ∧ decode [0x00008012] = .illegal .reservedBaseBit 1 ∧
    decode [0x01000011] = .illegal .reservedBaseBit 1 ∧ decode [0x00660040, 0x00010200] = .illegal .reservedExtBit 2 ∧
    decode [0x01020033, 0, 0] = .illegal .reservedBaseBit 3 ∧ decode [0x00010033, 0x00011000] = .illegal .reservedExtBit 2 ∧
    decode [0x00000142] = .illegal .reservedBaseBit 1 := by decide

/-- A command is decided only once all of its words are there (R88, R254). -/
theorem test_decode_waits : decode [0x01020033, 0] = .incomplete ∧ decode [0x00640041] = .incomplete := by decide

/-- The byte link is little-endian (R71). -/
theorem test_byte_link : wordsOfBytes [0x32, 0x03, 0xE8, 0x03, 0x10] = [0x03E80332] := by decide

/-- The assembler's default mode byte sets OUTDRV alone (R89, R93). -/
theorem test_assemble_default : assemble linear [.initDefault 0, .word 0xFF, .command (.chpwm 3 1000)] =
    [0x00040011, 0xFF, 0x03E80332] := by decide

/-- The table's numbering: the extension words of a row count on from bit 32, and are 0 where the table gives them no bits. -/
theorem test_table_word : decodeTableWord 32 0x00020033 = some (.chspwm 0 [0, 0]) ∧
    decodeTableWord 64 0x0190012C00640041 = some (.evcfg3 100 300 400) ∧ decodeTableWord 32 0x00000021 = none := by decide

/-! ## Register access (L2.2) -/

theorem test_wrreg : did (exec (.wrreg 0xFE 121) direct) = sends 0x40 [0xFE, 0x79] ∧
    raised (exec (.wrreg 0 0) (entry linear 0)) = some .unbound := by decide

/-- LASTERR keeps the status 2, which is no misuse (R98). -/
theorem test_wrreg_status :
    (left (exec (.wrreg 1 4) { direct with env := .oracle [some 0, some 1, some 1, some 2] })).map (·.2) = some (2, false) := by decide

theorem test_rdreg : did (exec (.rdreg 0) direct) = reads 0x40 0 ∧ left (exec (.rdreg 0) direct) = some (0xA0, 0, false) ∧
    raised (exec (.rdreg 0) proxied) = some .proxyRead := by decide

/-! ## Lifecycle (L2.3) -/

theorem test_swrst : did (exec .swrst (entry linear 0)) = sends 0 [6] ∧ onNext (exec .swrst (entry linear 0)) (·.srstDone) = true ∧
    raised (exec .swrst direct) = some .resetOrder ∧
    raised (exec .swrst { entry linear 0 with srstDone := true }) = some .resetOrder := by decide

theorem test_init : did (exec (.init 0 4) (entry linear 0)) = sends 0x40 [0, 0xA0] ++ sends 0x40 [1, 4] ∧
    did (exec (.init 99 4) (entry linear 0)) = sends 0x7D [0, 0xA0] ++ sends 0x7D [1, 4] ∧
    onNext (exec (.init 0 4) proxied) (fun t => t.addr = 0x40 ∧ t.bound = true ∧ t.proxy = false) = true := by decide

/-- C3: the address is an OR, not a sum. -/
theorem test_init_or : onNext (exec (.init 3 4) (entry { baseAddr := 0x41 } 0)) (·.addr = 0x43) = true := by decide

theorem test_initpx : did (exec (.initpx 0x70) direct) = [] ∧
    onNext (exec (.initpx 0x70) direct) (fun t => t.addr = 0x70 ∧ t.bound = true ∧ t.proxy = true) = true := by decide

theorem test_setfreq : did (exec (.setfreq 50) direct) = reads 0x40 0 ++ sends 0x40 [0, 0xB0] ++ sends 0x40 [0xFE, 0x79] ++
    sends 0x40 [0, 0xA0] ++ [.wait 500] ++ sends 0x40 [0, 0xA0] := by decide

/-- Asleep: no restart write; and both clamps of hz. -/
theorem test_setfreq_asleep : did (exec (.setfreq 0) (directIn linear 0x30)) = reads 0x40 0 ++ sends 0x40 [0, 0x30] ++
    sends 0x40 [0xFE, 0xFD] ++ sends 0x40 [0, 0x30] ++ [.wait 500] ∧ prescale (hzOf 2000) = 3 := by decide

theorem test_enallc : did (exec (.enallc 0xE1) direct) = reads 0x40 0 ++ sends 0x40 [0, 0xA1] ++ sends 0x40 [5, 0xE0] := by decide

theorem test_ensub1 : did (exec (.ensub1 0xE3) (directIn linear 0xA1)) =
    reads 0x40 0 ++ sends 0x40 [0, 0xA9] ++ sends 0x40 [2, 0xE3] := by decide

theorem test_ensub2 : did (exec (.ensub2 0xE4) direct) = reads 0x40 0 ++ sends 0x40 [0, 0xA4] ++ sends 0x40 [3, 0xE4] := by decide

theorem test_ensub3 : did (exec (.ensub3 0xE8) direct) = reads 0x40 0 ++ sends 0x40 [0, 0xA2] ++ sends 0x40 [4, 0xE8] := by decide

theorem test_disallc : did (exec .disallc (directIn linear 0xA9)) = reads 0x40 0 ++ sends 0x40 [0, 0xA8] := by decide

theorem test_dissub1 : did (exec .dissub1 (directIn linear 0xAF)) = reads 0x40 0 ++ sends 0x40 [0, 0xA7] := by decide

theorem test_dissub2 : did (exec .dissub2 (directIn linear 0xAF)) = reads 0x40 0 ++ sends 0x40 [0, 0xAB] := by decide

theorem test_dissub3 : did (exec .dissub3 (directIn linear 0xAF)) = reads 0x40 0 ++ sends 0x40 [0, 0xAD] := by decide

theorem test_enextclk : did (exec .enextclk (directIn linear 0xA8)) = reads 0x40 0 ++ sends 0x40 [0, 0xB8] ++
    sends 0x40 [0, 0xF8] ++ sends 0x40 [0, 0xE8] ++ [.wait 500] ++ sends 0x40 [0, 0xE8] := by decide

theorem test_enextclk_asleep : did (exec .enextclk (directIn linear 0x30)) = reads 0x40 0 ++ sends 0x40 [0, 0x30] ++
    sends 0x40 [0, 0x70] ++ sends 0x40 [0, 0x70] ++ [.wait 500] := by decide

theorem test_getters : left (exec .getaddr proxied) = some (0x70, 0, false) ∧
    left (exec .getpb (State.resetWith { pbStrap := .weaved })) = some (2, 0, false) ∧
    left (exec .geterr { direct with lastErr := 4 }) = some (4, 4, false) := by decide

/-- A ProxyRead draws RESULT though SETFREQ returns no value (R220); an Unbound SETFREQ keeps it (R223). -/
theorem test_proxy_read_result : raised (exec (.setfreq 50) proxied) = some .proxyRead ∧
    onNext (exec (.setfreq 50) proxied) (·.draws = proxied.draws + 1) = true ∧ raised (exec (.setfreq 50) (entry linear 0)) = some .unbound ∧
    onNext (exec (.setfreq 50) { entry linear 0 with result := 7 }) (·.result = 7) = true := by decide

/-! ## Phase balancer and channels (E6, E7, L2.4, L2.5) -/

theorem test_phasewin : (left (exec (.phasewin 15 500) (State.resetWith linear))).map (·.1) = some 0x00F40F00 ∧
    (left (exec (.phasewin 15 256) (State.resetWith linear))).map (·.1) = some 0x00000F00 ∧
    (left (exec (.phasewin 20 100) (State.resetWith linear))).map (·.1) = some 0x0F640F00 ∧
    (left (exec (.phasewin 3 1000) (State.resetWith {}))).map (·.1) = some 0x03E80000 := by decide

theorem test_phasewin_flags : (left (exec (.phasewin 15 0) (State.resetWith linear))).map (·.1) = some 0x10000000 ∧
    (left (exec (.phasewin 0 4096) (State.resetWith linear))).map (·.1) = some 0x00001000 := by decide

theorem test_chon_choff : did (exec (.chon 7) direct) = sends 0x40 [0x22, 0, 0x10, 0, 0] ∧
    did (exec (.choff 7) direct) = sends 0x40 [0x22, 0, 0, 0, 0x10] ∧
    did (exec (.choff 200) (directIn { swappedRegs := true } 0)) = sends 0x40 [0x42, 0, 0, 0x10, 0] := by decide

theorem test_chpwm : did (exec (.chpwm 3 1000) direct) = sends 0x40 [0x12, 0, 3, 0xE8, 6] ∧
    did (exec (.chpwm 15 500) direct) = sends 0x40 [0x42, 0, 0x0F, 0xF4, 0] ∧
    did (exec (.chpwm 5 9999) direct) = sends 0x40 [0x1A, 0, 0x10, 0, 0] := by decide

/-- Swapped registers, and the sample Weaved table of L2.4. -/
theorem test_chpwm_parameters :
    did (exec (.chpwm 3 1000) (directIn { swappedRegs := true, pbStrap := .linear } 0)) = sends 0x40 [0x12, 3, 0, 6, 0xE8] ∧
    did (exec (.chpwm 2 100) (directIn
      { pbStrap := .weaved, weaved := #v[0, 16, 48, 96, 0, 0, 0, 0, 0, 0, 0, 0, 0, 0, 0, 0] } 0)) =
      sends 0x40 [0x0E, 0x30, 0, 0x94, 0] := by decide

theorem test_chspwm : did (exec (.chspwm 14 [100, 4096, 0]) direct) = sends 0x40 [0x3E, 0, 0x0E, 0x64, 0x0E, 0, 0x10, 0, 0] ∧
    did (exec (.chspwm 200 [2000]) direct) = sends 0x40 [0x42, 0, 0x0F, 0xD0, 6] ∧ did (exec (.chspwm 3 []) direct) = [] ∧
    raised (exec (.chspwm 3 []) (entry linear 0)) = some .unbound := by decide

/-- The per-channel fallback with a buffer of 8 bytes. -/
theorem test_chspwm_fallback : did (exec (.chspwm 14 [100, 4096, 0]) (directIn { txBufferBytes := 8, pbStrap := .linear } 0)) =
    sends 0x40 [0x3E, 0, 0x0E, 0x64, 0x0E] ++ sends 0x40 [0x42, 0, 0x10, 0, 0] := by decide

theorem test_allpwm : did (exec (.allpwm 100) proxied) = sends 0x70 [0xFA, 0, 0, 0x64, 0] ∧
    did (exec (.allpwm 2048) direct) = sends 0x40 [0xFA, 0, 0, 0, 8] ∧
    did (exec (.allpwm 0) direct) = sends 0x40 [0xFA, 0, 0, 0, 0x10] := by decide

/-- Channel 3's registers 00 03 E8 06 read back as 1000; with bits 7:5 of a high byte set they still do (R187). -/
theorem test_getchpwm : did (exec (.getchpwm 3) direct) = reads 0x40 0x12 ++ reads 0x40 0x13 ++ reads 0x40 0x14 ++ reads 0x40 0x15 ∧
    (left (exec (.getchpwm 3) { direct with env := .responder { peer 0 with
      regs := [(0x12, 0), (0x13, 0xE3), (0x14, 0xE8), (0x15, 0x06)] } })).map (·.1) = some 1000 := by decide

/-- R185: the OFF flag wins over the ON flag. -/
theorem test_decode_amount : decodeAmount ⟨0x1000, 0x1000⟩ = 0 ∧ decodeAmount ⟨0x1000, 5⟩ = 4096 ∧
    decodeAmount ⟨3840, 244⟩ = 500 ∧ decodeAmount ⟨7, 7⟩ = 0 := by decide

/-! ## Servo evaluator (E2, E3, L2.6) -/

theorem test_evcfg2 : evaluate .linear 102 0 512 0 = some 307 ∧ evaluate .linear 0 0 1 0 = some 1 ∧
    onNext (exec (.evcfg2 102 512) (entry linear 0))
      (fun t => t.evMode = .linear ∧ t.evN90 = 102 ∧ t.evZero = 0 ∧ t.evP90 = 512) = true := by decide

theorem test_evcfg3 : onNext (exec (.evcfg3 5000 0 5000) (entry linear 0))
    (fun t => t.evMode = .cubic ∧ t.evN90 = 4096 ∧ t.evZero = 0 ∧ t.evP90 = 4096) = true := by decide

/-- An evaluator configured by EVCFG3 100, 300, 400. -/
def servo : State := { entry linear 0 with evMode := .cubic, evN90 := 100, evZero := 300, evP90 := 400 }

theorem test_angpwm : left (exec (.angpwm (-45)) servo) = some (209, 0, false) ∧
    left (exec (.angpwm 45) servo) = some (359, 0, false) ∧ left (exec (.angpwm 0x8000) servo) = some (100, 0, false) ∧
    left (exec (.angpwm 0x7FFF) servo) = some (400, 0, false) := by decide

/-- The counter-vectors of E2, and the guard. -/
theorem test_angpwm_falls : evaluate .cubic 100 100 4096 (-90) = some 100 ∧ evaluate .cubic 100 100 4096 (-60) = some 0 ∧
    raised (exec (.angpwm 0) (entry linear 0)) = some .unconfigured := by decide

/-! ## Steps, faults, reset (L2.7, L2.8, P1, P3) -/

/-- A whole step: the words are taken, CP moves past them, BUSY is 0 again. -/
theorem test_step_takes_words : onNext (step (direct.placeCommand [0x00030E33, 0x64, 0x1000, 0x0]))
    (fun t => t.cp = 4 ∧ t.busy = false ∧ t.misuse = false) = true := by decide

/-- An illegal word comes before the Unbound guard (L2.7). -/
theorem test_illegal_before_unbound :
    onNext (step ((entry linear 0).placeCommand [0x00010030])) (fun t => t.misuseReason = some .illegalCommand ∧ t.cp = 1) = true := by
  decide

/-- An environment that never answers RxRequest leaves BUSY = 1 for good (L2.7, R226). -/
theorem test_hang : onNext (exec (.rdreg 0) { direct with env := .oracle [some 0, some 1, some 0, none] })
    (fun t => t.busy = true ∧ t.stall = some ⟨.prim (.rxRequest 0x40 1), none⟩ ∧ t.lastErr = 0 ∧ t.bus = .idle ∧
      onNext (step t) (fun u => u.busy = true ∧ u.stall = t.stall ∧ u.trace = t.trace ∧ u.cp = t.cp)) = true := by decide

/-- L2.8: a reset during `TX(0x40) 12 00 03 ...` sends no TxEnd and leaves R[0x12..0x15] unknown (listed, with free bytes), R[0] as it
was, and the PBE Unbound. -/
theorem test_reset_cuts_burst : onNext (exec (.chpwm 3 1000) (direct.assertResetIn 4))
    (fun t => t.busy = true ∧ t.bus = .tx 0x40 3 ∧
      t.trace = [.txBegin 0x40, .txWrite 0x12 1, .txWrite 0x00 1, .txWrite 0x03 1] ∧
      onNext (step t) (fun u =>
        decide (u.trace = t.trace ∧ u.busy = false ∧ u.bus = .idle ∧ u.handleMode = .unbound ∧ u.resetIn = .off) &&
        match u.env with
        | .responder r => decide (r.regs.map (·.1) = [0x00, 0x12, 0x13, 0x14, 0x15] ∧ r.reg 0 = 0xA0)
        | .oracle _ => false) = true) = true := by decide

/-- Reset in the wait of ENEXTCLK: five actions of the read, three writes of four, and then the wait. -/
theorem test_reset_in_wait : onNext (exec .enextclk (direct.assertResetIn 17))
    (fun t => t.stall = some ⟨.wait 500, none⟩ ∧ t.busy = true ∧ t.resetIn = .now) = true := by decide

/-- A reset that is to come after the command's last action does not come in it. -/
theorem test_reset_after_command : onNext (exec (.wrreg 1 4) (direct.assertResetIn 4))
    (fun t => t.stall = none ∧ t.busy = false ∧ t.resetIn = .inAction 0) = true := by decide

/-- Inside a command STATUS shows BUSY = 1, and a read of RESULT there uses up its draw (R253). -/
theorem test_status_inside : onNext (step ({ direct with stream := [0x03E80332] }.assertResetIn 2))
    (fun t => t.status = 0x00C01200 ∧ t.hostReadsResult.2.draws = t.draws + 1) = true := by decide

/-- An illegal command, too, has a moment with its words taken and BUSY = 1 (R33, R84), and none is there while words are missing. -/
theorem test_status_inside_illegal :
    ({ direct with stream := [0x01020033, 0, 0] } : State).accepted.map (fun t => (t.status, t.cp, t.misuse)) =
      some (0x00C01200, 3, false) ∧
    ({ direct with stream := [0x01020033, 0] } : State).accepted = none := by decide

/-- R96's table, row by row, and three moves outside it: a nested TxBegin, a write outside a transmission, a read of no bytes. -/
theorem test_bus_table :
    busAfter .idle [.txBegin 0x40, .txWrite 0] = some (.tx 0x40 1) ∧ busAfter .idle [.txBegin 0x40, .txWrite 0, .txEnd] = some .idle ∧
    busAfter .idle [.rxRequest 0x40 2, .rxRead] = some (.rx 0x40 1) ∧ busAfter .idle [.rxRequest 0x40 1, .rxRead] = some .idle ∧
    busAfter .idle [.txBegin 0x40, .txBegin 0x41] = none ∧ busAfter .idle [.txWrite 0] = none ∧
    busAfter .idle [.rxRequest 0x40 0] = none := by decide

/-- SETFREQ 50's plan, awake and asleep, is L2.3's trace, and a misuse's plan is empty. -/
theorem test_bus_plan :
    (busPlan (.setfreq 50) direct 0xA0).map Held.action = reads 0x40 0 ++ sends 0x40 [0, 0xB0] ++ sends 0x40 [0xFE, 0x79] ++
      sends 0x40 [0, 0xA0] ++ [.wait 500] ++ sends 0x40 [0, 0xA0] ∧
    (busPlan (.setfreq 50) direct 0x30)[17]? = some ⟨.wait 500, none⟩ ∧ (busPlan (.setfreq 50) direct 0x30).length = 18 ∧
    busPlan (.setfreq 50) proxied 0xA0 = [] := by decide

/-- BUSSTATE where an answer does not come: after a TxBegin, before an address phase's TxEnd, and in a read. -/
theorem test_bus_state_held :
    onNext (exec .swrst { entry linear 0 with env := .oracle [some 0, none] }) (·.bus = .tx 0 0) = true ∧
    onNext (exec (.rdreg 0) { direct with env := .oracle [some 0, some 1, none] }) (·.bus = .tx 0x40 1) = true ∧
    onNext (exec (.rdreg 0) { direct with env := .oracle [some 0, some 1, some 0, some 1, none] }) (·.bus = .rx 0x40 1) = true := by decide

/-- STATUS after reset, and at the ends of P1 and P3. -/
theorem test_status : (State.resetWith linear).status = 0x00001000 ∧ { direct with srstDone := true }.status = 0x00401A00 ∧
    { proxied with misuse := true, evMode := .cubic }.status = 0x00709700 := by decide

/-- The first instruction after reset, placed by `withFetchWord`, runs. -/
theorem test_first_instruction : onNext (step (State.reset.withFetchWord 32 0x01F40F20)) (fun t => t.cp = 1 ∧ t.misuse = false) = true ∧
    raised (step (State.reset.withFetchWord 32 0x00000030)) = some .unbound := by decide

/-! ## Witnesses: every statement's hypotheses are met, each clause at a boundary -/

theorem direct_peer : direct.RefResponder direct.addr (peer 0xA0) := ⟨rfl, rfl⟩

theorem direct_uncut : direct.Uncut := fun k h => by cases h

theorem direct_runs : direct.RunsThrough := ⟨trivial, direct_uncut⟩

theorem entry_runs : (entry linear 0).RunsThrough := ⟨trivial, fun k h => by cases h⟩

theorem proxied_runs : proxied.RunsThrough := ⟨trivial, fun k h => by cases h⟩

theorem witness_DecodeInvertsEncode : (Instr.chspwm 15 (List.replicate 255 0xFFFF)).wellFormed = true := by
  rw [Instr.wellFormed, List.length_replicate]; rfl

theorem witness_LegalWordsAreEncodings : decode [0x0001FF33, 0x0000FFFF, 0xFFFFFFFF] = .command (.chspwm 255 [0xFFFF]) 2 := by decide

/-- The ends of every range of opcodes, unassigned and assigned. -/
theorem witness_UnassignedOpcodesAreIllegal :
    (decode [0x03] = .illegal .unassignedOpcode 1 ∧ decode [0xFF] = .illegal .unassignedOpcode 1) ∧
    (∀ op ∈ ([0x00, 0x03, 0x0F, 0x21, 0x2F, 0x36, 0x3F, 0x43, 0xFF] : List Byte), formatOf op = none) ∧
    ∀ op ∈ ([0x01, 0x02, 0x10, 0x20, 0x30, 0x35, 0x40, 0x42] : List Byte), formatOf op ≠ none := by decide

/-- A reserved bit of the base word alone, and of an extension word alone. -/
theorem witness_ReservedBitsAreIllegal :
    (formatOf (fieldOp 0x80000011) = some .ab8 ∧ ([] : List Word).length = extCount 0x80000011 ∧
      (0x80000011 : Word) &&& reservedMask .ab8 ≠ 0) ∧
    (formatOf (fieldOp 0x00010033) = some .m ∧ [(0x00010000 : Word)].length = extCount 0x00010033 ∧
      (0x00010000 : Word) &&& extReservedMask .m ≠ 0) := by decide

/-- A ready PBE with the given words ahead. -/
def ready (words : List Word) : State := { direct with stream := words }

theorem witness_StepRunsDecodedCommand : (ready [0x03E80332]).resetIn = .off ∧ (ready [0x03E80332]).stall = none ∧
    (ready [0x03E80332]).busy = false ∧ (ready [0x03E80332]).taken = [] ∧
    decode ((ready [0x03E80332]).stream.drop (ready [0x03E80332]).cp) = .command (.chpwm 3 1000) 1 := by decide

theorem witness_IllegalCommandRaisesMisuse : (ready [0x01020033, 0, 0]).stall = none ∧ (ready [0x01020033, 0, 0]).taken = [] ∧
    (ready [0x01020033, 0, 0]).resetIn = .off ∧ (ready [0x01020033, 0, 0]).busy = false ∧
    decode ((ready [0x01020033, 0, 0]).stream.drop 0) = .illegal .reservedBaseBit 3 := by decide

theorem witness_UnfinishedCommandWaitsForItsWords : (ready [0x00640041]).resetIn = .off ∧ (ready [0x00640041]).stall = none ∧
    (ready [0x00640041]).busy = false ∧ (ready [0x00640041]).taken = [] ∧
    (ready [0x00640041]).cp < (ready [0x00640041]).stream.length ∧
    decode ((ready [0x00640041]).stream.drop 0) = .incomplete ∧
    decode ((ready [0x00640041]).stream.drop 0 ++ [0x0190012C]) = .command (.evcfg3 100 300 400) 2 ∧
    decode ((ready [0x01020033, 0]).stream.drop 0) = .incomplete ∧
    decode ((ready [0x01020033, 0]).stream.drop 0 ++ [0]) = .illegal .reservedBaseBit 3 ∧
    decode ((ready [0x00030E33]).stream.drop 0) = .incomplete ∧ decode ((ready [0x00030E33]).stream.drop 0 ++ [0x64]) = .incomplete ∧
    decode ((ready [0x00030E33]).stream.drop 0 ++ [0x64, 0x1000]) = .incomplete := by decide

/-- One word of CHSPWM's three at a time: the PBE waits on, and then runs the command. -/
theorem test_waits_on :
    onNext (step (ready [0x00030E33])) (fun t => t.cp = 1 ∧ t.busy = true ∧
      onNext (step (t.send [0x64])) (fun u => u.cp = 2 ∧ u.busy = true ∧ u.trace = [] ∧
        onNext (step (u.send [0x1000, 0])) (fun v => v.cp = 4 ∧ v.busy = false ∧ v.trace.length = 11))) = true := by decide

theorem witness_HeldPbeDoesNotMove : (direct.heldIn (.prim .rxRead)).resetIn = .off ∧ (direct.heldIn (.prim .rxRead)).stall ≠ none := by decide

theorem witness_UnansweredPrimitiveHoldsThePbe :
    let s := { entry linear 0 with env := .oracle [none] }
    s.stall = none ∧ s.Uncut ∧ s.env = .oracle (none :: []) ∧
    (issuesTxEnd .swrst = true ∧ misuseOf .swrst s = none ∧ ∀ first, Instr.swrst ≠ .chspwm first []) ∧
    (issuesTxEnd (.init 61 4) = true ∧ misuseOf (.init 61 4) s = none) ∧
    (issuesTxEnd (.chspwm 0 [1]) = true ∧ misuseOf (.chspwm 0 [1]) { proxied with env := .oracle [none] } = none) :=
  ⟨rfl, fun k h => (by cases h), rfl, ⟨rfl, rfl, fun _ h => (by cases h)⟩, ⟨rfl, rfl⟩, rfl, rfl⟩

/-- An answered primitive and then an unanswered one; and a command that completes before the unanswered one. -/
theorem witness_StopsAtTheUnanswered :
    onNext (exec .swrst { entry linear 0 with env := .oracle [some 0, none] })
      (fun t => t.stall = some ⟨.prim (.txWrite 6), some (0, [6])⟩ ∧ t.trace = [.txBegin 0] ∧ t.env = .oracle []) = true ∧
    onNext (exec .swrst { entry linear 0 with env := .oracle [some 0, some 1, some 0, some 9, none] })
      (fun t => t.stall = none ∧ t.env = .oracle [some 9, none]) = true := by decide

/-- The first and the last action of CHPWM's seven, and the first past them, meet the premises of the reset clause. -/
theorem witness_ResetComesInAction : (∀ k, (direct.assertResetIn k).stall = none ∧ (direct.assertResetIn k).NoStall ∧
      (direct.assertResetIn k).resetIn = .inAction k ∧ (direct.assertResetIn k).bus = .idle) ∧
    (busPlan (.chpwm 3 1000) direct 0).length = 7 ∧
    onNext (exec (.chpwm 3 1000) (direct.assertResetIn 0))
      (fun t => t.trace = [] ∧ t.resetIn = .now ∧
        t.stall = some ⟨.prim (.txBegin 0x40), some (0x40, [0x12, 0x00, 0x03, 0xE8, 0x06])⟩) = true ∧
    onNext (exec (.chpwm 3 1000) (direct.assertResetIn 6)) (fun t => t.trace.length = 6 ∧ t.resetIn = .now ∧ t.busy = true) = true ∧
    onNext (exec (.chpwm 3 1000) (direct.assertResetIn 7)) (fun t => t.resetIn = .inAction 0 ∧ t.busy = false) = true :=
  ⟨fun _ => ⟨rfl, trivial, rfl, rfl⟩, by decide⟩

theorem witness_EveryCommandCompletesOrHolds : direct.stall = none ∧ direct.bus = .idle ∧
    (∃ t, (ready [0x03E80332]).Inside t) ∧ onNext (step ((ready [0x03E80332]).assertResetIn 5)) (·.resetIn = .now) = true :=
  ⟨rfl, rfl, ⟨_, .inl rfl⟩, by decide⟩

theorem witness_AnsweringEnvironmentNeverHolds : direct.stall = none ∧ direct.RunsThrough := ⟨rfl, direct_runs⟩

theorem witness_IdlePbeStaysIdle : State.reset.resetIn = .off ∧ State.reset.ended ∧ State.reset.taken = [] :=
  ⟨rfl, ⟨rfl, rfl, rfl⟩, rfl⟩

/-- A held PBE, and a reset that cuts a burst to the peer. -/
theorem witness_ResetSetsEveryField : (direct.heldIn (.prim .rxRead)).assertReset.resetIn = .now ∧
    onNext (exec (.chpwm 3 1000) (direct.assertResetIn 4))
      (fun t => t.resetIn = .now ∧ t.stall = some ⟨.prim (.txWrite 0xE8), some (0x40, [0x12, 0x00, 0x03, 0xE8, 0x06])⟩) = true := by decide

/-- `CleanEntry` and `RefResponder(RA)` with RA = 0x40 hold together (R246, P1). -/
theorem witness_clean_entry_with_responder : (entry linear 0).CleanEntry ∧ (entry linear 0).RefResponder 0x40 (peer 0) :=
  ⟨⟨rfl, rfl, rfl, rfl, rfl, rfl, rfl, rfl, rfl, rfl, ⟨rfl, rfl, rfl⟩, rfl, rfl, ⟨rfl, rfl⟩, rfl⟩, rfl, rfl⟩

/-- A state in the middle of its run that meets the invariant. -/
theorem witness_StepKeepsInvariant : (ready [0x03E80332]).Inv ∧ onNext (step (ready [0x03E80332])) (fun _ => true) = true :=
  ⟨⟨by decide, by decide, by decide, by decide, by decide, by decide, by decide, by decide, by decide, by decide,
    fun r h => by cases h; decide⟩, by decide⟩

theorem witness_WrregWritesOneRegister : (entry linear 0).bound = false ∧ direct.bound = true ∧ direct.RunsThrough := ⟨rfl, rfl, direct_runs⟩

/-- The three handle modes the guards tell apart, for every read-dependent command's statement. -/
theorem witness_handle_modes : (entry linear 0).bound = false ∧ (proxied.bound = true ∧ proxied.proxy = true) ∧
    (direct.bound = true ∧ direct.proxy = false) := by decide

theorem witness_RdregReturnsTheByteRead : direct.bound = true ∧ direct.proxy = false ∧ direct.RunsThrough := ⟨rfl, rfl, direct_runs⟩

theorem witness_ShortReadGivesADraw :
    onNext (exec (.rdreg 0) { direct with env := .oracle [some 0, some 1, some 4, some 0, some 0xFF] })
      (fun t => t.lastErr = 4 ∧ t.busy = false) = true := by decide

theorem witness_SwrstBroadcastsOnceBeforeInit : direct.bound = true ∧ { entry linear 0 with srstDone := true }.srstDone = true ∧
    ((entry linear 0).srstDone = false ∧ (entry linear 0).bound = false) ∧ (entry linear 0).RunsThrough := ⟨rfl, rfl, ⟨rfl, rfl⟩, entry_runs⟩

theorem witness_InitBindsAndWritesModeRegisters : (entry linear 0).RunsThrough ∧ offsetOf 61 = 61 ∧ offsetOf 62 = 61 := ⟨entry_runs, by decide⟩

theorem witness_SetfreqSequence : direct.bound = true ∧ direct.proxy = false ∧ direct.RunsThrough ∧
    hzOf 23 = 24 ∧ hzOf 24 = 24 ∧ hzOf 1526 = 1526 ∧ hzOf 1527 = 1526 := ⟨rfl, rfl, direct_runs, by decide⟩

theorem witness_PrescaleIntegerFormAndRange : prescale 24 = 253 ∧ prescale 1526 = 3 ∧ prescale 50 = 121 := by decide

theorem witness_EnableCommandsSetBitThenAddress : direct.bound = true ∧ direct.proxy = false ∧ direct.RunsThrough := ⟨rfl, rfl, direct_runs⟩

theorem witness_DisableCommandsClearBit : direct.bound = true ∧ direct.proxy = false ∧ direct.RunsThrough := ⟨rfl, rfl, direct_runs⟩

theorem witness_EnextclkSequence : direct.bound = true ∧ direct.proxy = false ∧ direct.RunsThrough := ⟨rfl, rfl, direct_runs⟩

/-- Amounts 0, 1, 4095 and 4096, and a window that wraps. -/
theorem witness_PhaseWindowProperties : phaseWindow linear .linear 15 0 = ⟨0, 0x1000⟩ ∧ phaseWindow linear .linear 15 4096 = ⟨0x1000, 0⟩ ∧
    phaseWindow linear .linear 15 1 = ⟨3840, 3841⟩ ∧ phaseWindow linear .linear 15 4095 = ⟨3840, 3839⟩ ∧
    phaseWindow linear .linear 15 256 = ⟨3840, 0⟩ := by decide

theorem witness_WindowIsOnForAmountTicks : windowOnAt (phaseWindow linear .linear 15 500) 3840 = true ∧
    windowOnAt (phaseWindow linear .linear 15 500) 243 = true ∧ windowOnAt (phaseWindow linear .linear 15 500) 244 = false := by decide

theorem witness_ChonChoffSendTheFlagWindows : (entry linear 0).bound = false ∧ direct.bound = true ∧ direct.RunsThrough := ⟨rfl, rfl, direct_runs⟩

theorem witness_ChpwmSendsTheWindow : (entry linear 0).bound = false ∧ proxied.bound = true ∧ proxied.RunsThrough := ⟨rfl, rfl, proxied_runs⟩

theorem witness_ChannelRunClampsAtChannel15 : channelRun 14 [100, 4096, 0] = [(14, 100), (15, 4096)] ∧ channelRun 255 [5000] = [(15, 4096)] ∧
    channelRun 0 [] = [] := by decide

theorem witness_ChspwmSendsBurstOrChannels : (entry linear 0).bound = false ∧ direct.bound = true ∧ direct.RunsThrough ∧
    1 + 4 * (channelRun 8 [1, 1, 1, 1, 1, 1, 1]).length ≤ direct.cfg.txBufferBytes ∧
    ¬ 1 + 4 * (channelRun 8 [1, 1, 1, 1, 1, 1, 1, 1]).length ≤ direct.cfg.txBufferBytes := ⟨rfl, rfl, direct_runs, by decide⟩

/-- Bound and unbound, and the bytes at amounts 1, 4095, 4096 and above. -/
theorem witness_AllpwmSendsTheAllWindow : ((entry linear 0).bound = false ∧ direct.bound = true ∧ direct.RunsThrough) ∧
    did (exec (.allpwm 1) direct) = sends 0x40 [0xFA, 0, 0, 1, 0] ∧ did (exec (.allpwm 4095) direct) = sends 0x40 [0xFA, 0, 0, 0xFF, 0x0F] ∧
    did (exec (.allpwm 4096) direct) = sends 0x40 [0xFA, 0, 0x10, 0, 0] ∧
    did (exec (.allpwm 0xFFFF) direct) = sends 0x40 [0xFA, 0, 0x10, 0, 0] := ⟨⟨rfl, rfl, direct_runs⟩, by decide⟩

theorem witness_GetchpwmReadsFourRegisters : direct.bound = true ∧ direct.proxy = false ∧ direct.RunsThrough := ⟨rfl, rfl, direct_runs⟩

theorem witness_DecodeAmountByFlags : fullFlag 0x1000 = true ∧ fullFlag 0x0FFF = false := by decide

/-- Tick 0xF12 and the full-on flag, low byte first and high byte first; junk in bits 7:5 of the high byte. -/
theorem witness_PairBytesRoundTrip : pairBytes false 0x0F12 = [0x12, 0x0F] ∧ pairBytes true 0x0F12 = [0x0F, 0x12] ∧
    pairBytes false 0x1000 = [0x00, 0x10] ∧ pairValue true 0xEF 0x12 = 0x0F12 ∧ pairValue false 0x12 0xEF = 0x0F12 := by decide

theorem witness_ChpwmReadsBack : direct.RefResponder direct.addr (peer 0xA0) ∧ direct.Uncut ∧ direct.bound = true ∧ direct.proxy = false :=
  ⟨direct_peer, direct_uncut, rfl, rfl⟩

theorem witness_ChspwmStoresWhatChannelWritesStore : direct.RefResponder direct.addr (peer 0xA0) ∧ direct.Uncut ∧ direct.bound = true := ⟨direct_peer, direct_uncut, rfl⟩

theorem witness_RegisterAndWindowWritesStoreExactly : direct.RefResponder direct.addr (peer 0xA0) ∧ direct.Uncut ∧ direct.bound = true := ⟨direct_peer, direct_uncut, rfl⟩

theorem witness_InitStoresExactlyTheModeRegisters : (entry linear 0).env = .responder (peer 0) ∧ (entry linear 0).Uncut ∧
    (peer 0).ra = (entry linear 0).cfg.baseAddr ||| BitVec.ofNat 7 (min (0 : Byte).toNat 61) := ⟨rfl, entry_runs.2, by decide⟩

theorem witness_Mode1CommandsStoreExactly : direct.RefResponder direct.addr (peer 0xA0) ∧ direct.Uncut ∧ direct.bound = true ∧ direct.proxy = false :=
  ⟨direct_peer, direct_uncut, rfl, rfl⟩

/-- A reading command at the peer's address, and a writing one at another address. -/
theorem witness_OtherCommandsKeepThePeer : direct.env = .responder (peer 0xA0) ∧ storesNothing (.getchpwm 3) = true ∧
    onNext (exec (.getchpwm 3) direct) (fun _ => true) = true ∧
    onNext (exec (.allpwm 100) proxied) (fun t => t.addr ≠ (peer 0xA0).ra) = true := ⟨rfl, by decide⟩

theorem witness_AngpwmEvaluatesTheCurve : (entry linear 0).evMode = .unconfigured ∧ servo.evMode ≠ .unconfigured ∧
    angleOf 0xFFA6 = -90 ∧ angleOf 0xFFA5 = -90 ∧ angleOf 91 = 90 := by decide

theorem witness_OutputRoundsHalfAwayFromZero : outAmount 1 2 = 1 ∧ roundDiv (-1) 2 = -1 ∧ roundDiv (-1) 3 = 0 ∧ outAmount (-5) 1 = 0 ∧
    outAmount 5000 1 = 4096 := by decide

theorem witness_EvaluatorExactAtCalibrationAngles : evaluate .cubic 100 300 400 0 = some 300 ∧ evaluate .linear 4096 0 0 (-90) = some 4096 := by
  decide

/-- The premises of both clauses together: n = 100, z = 250, p = 400. -/
theorem witness_EvaluatorMonotoneWhenOrdered : (100 ≤ 400 ∧ 400 ≤ 4096 ∧ 2 * 250 = 100 + 400) ∧
    evaluate .cubic 100 250 400 (-90) = some 100 ∧ evaluate .cubic 100 250 400 90 = some 400 ∧
    evaluate .linear 100 0 400 (-90) = some 100 := by decide

theorem witness_StraightCubicIsLinear : (2 * 250 : Int) = 100 + 400 ∧ evaluate .cubic 100 250 400 37 = evaluate .linear 100 250 400 37 := by
  decide

/-- Both pieces are met, and their common point. -/
theorem witness_CubicCurveIsTheNaturalSpline : cubNum 100 300 400 (-90) = 291600000 ∧ cubNum 100 300 400 0 = 874800000 ∧
    cubNum 100 300 400 90 = 1166400000 := by decide

/-- Every reason of R216 but the first, which no legal command raises. -/
theorem witness_MisuseExactlyByTheModeTable : misuseOf (.chon 0) (entry linear 0) = some .unbound ∧
    misuseOf (.getchpwm 0) proxied = some .proxyRead ∧ misuseOf .swrst proxied = some .resetOrder ∧
    misuseOf (.angpwm 0) direct = some .unconfigured ∧ misuseOf (.chon 0) proxied = none := by decide

theorem witness_MisuseIsSticky : onNext (step { ready [0x0000001D] with misuse := true, misuseReason := some .unbound })
    (fun t => t.misuse = true ∧ t.misuseReason = some .unbound) = true := by decide

theorem witness_OnlyTheListedCommandsWriteEachField : onNext (exec .getaddr direct) (fun t => t.srstDone = false) = true := by decide

theorem witness_OnlyResetUnbinds : direct.handleMode ≠ .unbound ∧ proxied.handleMode ≠ .unbound ∧ direct.resetIn = .off ∧
    onNext (step (ready [0x00007012])) (fun t => t.handleMode = .proxy) = true := by decide

/-- The host's reads with BUSY = 0, and with BUSY = 1. -/
theorem witness_StatusShowsEveryField : direct.busy = false ∧ (direct.heldIn (.prim .rxRead)).busy = true := ⟨rfl, rfl⟩

end Sys2Proof.Tests
end

section
/-! SUPPORT. How every command ends; O57 (what a Misuse leaves) and O58 (the fields each command writes). -/

namespace Sys2Proof.Machine

variable {s t : State} {i : Instr}

/-- A command ends in a Misuse, completes, or holds the PBE; INIT writes the handle first (R215, R223, R226). -/
theorem exec_outcome {i : Instr} {s t : State} (h : exec i s = .next t) :
    (∃ reason, misuseOf i s = some reason ∧ t = s.raiseMisuse reason (misuseDraws i reason)) ∨
      (misuseOf i s = none ∧ issuesTxEnd i = false ∧ LocalFrame s t) ∨
      ∃ s₀, (s₀ = s ∨ ∃ off mode, i = .init off mode ∧ s₀ = s.bindDirect off) ∧ misuseOf i s = none ∧ issuesTxEnd i = true ∧
        ((∃ u, CommandFrame i s₀ u ∧ u.stall = s.stall ∧ t = u.complete) ∨
          (CommandFrame i s₀ t ∧ t.busy = true ∧ t.stall.isSome = true)) := by
  rcases instr_kinds i with hi | ⟨off, mode, rfl⟩ | hi
  · have htx : issuesTxEnd i = true := by
      rcases hi with hi | rfl
      · simp [issuesTxEnd, hi]
      · rfl
    obtain ⟨t', ht, hend⟩ := exec_ends i s hi
    obtain rfl : t' = t := by rw [ht] at h; cases h; rfl
    rcases hend with hmis | ⟨hnone, ⟨u, hu, hs, -, rfl⟩ | hheld⟩
    · exact .inl hmis
    · exact .inr (.inr ⟨s, .inl rfl, hnone, htx, .inl ⟨u, hu, hs, rfl⟩⟩)
    · exact .inr (.inr ⟨s, .inl rfl, hnone, htx, .inr hheld⟩)
  · obtain ⟨t', ht, hend⟩ := execInit_ends off mode s
    obtain rfl : t' = t := by rw [ht] at h; cases h; rfl
    refine .inr (.inr ⟨s.bindDirect off, .inr ⟨off, mode, rfl, rfl⟩, rfl, rfl, hend.imp_left ?_⟩)
    rintro ⟨u, hu, hs, -, ht⟩
    exact ⟨u, hu, hs, ht⟩
  · obtain ⟨t', ht, hend⟩ := exec_local_ends i s hi
    obtain rfl : t' = t := by rw [ht] at h; cases h; rfl
    exact hend.imp_right fun ⟨hnone, hframe⟩ => .inl ⟨hnone, hi, hframe⟩

/-! ## Misuse -/

/-- No command that decodes raises IllegalCommand (R216). -/
theorem misuseOf_ne_illegalCommand (i : Instr) (s : State) : misuseOf i s ≠ some .illegalCommand := by
  have hhandle : handleMisuse i s ≠ some .illegalCommand := by
    unfold handleMisuse
    split_ifs <;> simp
  unfold misuseOf
  split
  · split_ifs <;> simp
  · split_ifs <;> simp
  · split_ifs
    · exact hhandle
    · simp

/-- A Misuse other than a ProxyRead draws RESULT only where the command returns a value (R223; log 7). -/
theorem misuseDraws_eq {reason : MisuseReason} (h : misuseOf i s = some reason) (hproxy : reason ≠ .proxyRead) :
    misuseDraws i reason = valueReturning i := by
  cases reason with
  | illegalCommand => exact absurd h (misuseOf_ne_illegalCommand i s)
  | proxyRead => exact absurd rfl hproxy
  | unbound | resetOrder | unconfigured => rfl

/-- A Misuse after the first changes neither MISUSE nor the kept reason (R222). -/
theorem raiseMisuse_of_misuse (h : s.misuse = true) (reason : MisuseReason) (draws : Bool) :
    (s.raiseMisuse reason draws).misuse = true ∧ (s.raiseMisuse reason draws).misuseReason = s.misuseReason := by
  simp [h]

/-- A command that raises no Misuse leaves MISUSE and the kept reason alone. -/
theorem exec_misuse_frame (h : exec i s = .next t) (hnone : misuseOf i s = none) :
    t.misuse = s.misuse ∧ t.misuseReason = s.misuseReason := by
  rcases exec_outcome h with ⟨reason, hr, -⟩ | ⟨-, -, hf⟩ | ⟨s₀, hs₀, -, -, hend⟩
  · rw [hnone] at hr; cases hr
  · rw [hf.rest]; exact ⟨rfl, rfl⟩
  · have h₀ : s₀.misuse = s.misuse ∧ s₀.misuseReason = s.misuseReason := by
      rcases hs₀ with rfl | ⟨off, -, -, rfl⟩ <;> exact ⟨rfl, rfl⟩
    rcases hend with ⟨u, hf, -, rfl⟩ | ⟨hf, -, -⟩ <;> rw [hf.rest] <;> exact h₀

/-- Once MISUSE is set no command changes it or the reason (R28, R222). -/
theorem exec_misuse_sticky (h : exec i s = .next t) (hm : s.misuse = true) :
    t.misuse = true ∧ t.misuseReason = s.misuseReason := by
  cases hmis : misuseOf i s with
  | none =>
    obtain ⟨hkeep, hreason⟩ := exec_misuse_frame h hmis
    exact ⟨hkeep.trans hm, hreason⟩
  | some reason =>
    rcases exec_outcome h with ⟨reason', -, rfl⟩ | ⟨hnone, -⟩ | ⟨-, -, hnone, -⟩
    · exact raiseMisuse_of_misuse hm _ _
    · rw [hmis] at hnone; cases hnone
    · rw [hmis] at hnone; cases hnone

/-! ## Which fields a command writes (R36) -/

/-- From `s` to `t` the command `i` wrote no field that R36 does not list for it. -/
structure WritesListed (i : Instr) (s t : State) : Prop where
  handle : (∀ off mode, i ≠ .init off mode) → (∀ a7, i ≠ .initpx a7) →
    t.addr = s.addr ∧ t.bound = s.bound ∧ t.proxy = s.proxy
  srstDone : i ≠ .swrst → t.srstDone = s.srstDone
  evaluator : (∀ n p, i ≠ .evcfg2 n p) → (∀ n z p, i ≠ .evcfg3 n z p) →
    t.evMode = s.evMode ∧ t.evN90 = s.evN90 ∧ t.evZero = s.evZero ∧ t.evP90 = s.evP90
  result : valueReturning i = false → misuseOf i s ≠ some .proxyRead → t.result = s.result
  bus : issuesTxEnd i = false → t.lastErr = s.lastErr ∧ t.trace = s.trace ∧ t.env = s.env
  unlisted : t.pb = s.pb ∧ t.cfg = s.cfg ∧ t.cp = s.cp ∧ t.stream = s.stream ∧ t.taken = s.taken ∧
    (s.Uncut → t.resetIn = s.resetIn)

theorem raiseMisuse_writesListed {reason : MisuseReason} (h : misuseOf i s = some reason) :
    WritesListed i s (s.raiseMisuse reason (misuseDraws i reason)) where
  handle := by simp
  srstDone := by simp
  evaluator := by simp
  result := fun hv hproxy => by
    rw [misuseDraws_eq h fun hr => hproxy (hr ▸ h), hv]
    rfl
  bus := by simp
  unlisted := by simp

theorem WritesListed.complete (h : WritesListed i s t) : WritesListed i s t.complete := ⟨h.1, h.2, h.3, h.4, h.5, h.6⟩

/-- A command that returns a value at once writes RESULT. -/
theorem setResult_writesListed (hv : valueReturning i = true) (v : Word) : WritesListed i s (s.setResult v).complete where
  handle := fun _ _ => ⟨rfl, rfl, rfl⟩
  srstDone := fun _ => rfl
  evaluator := fun _ _ => ⟨rfl, rfl, rfl, rfl⟩
  result := fun hn => by simp [hv] at hn
  bus := fun _ => ⟨rfl, rfl, rfl⟩
  unlisted := ⟨rfl, rfl, rfl, rfl, rfl, fun _ => rfl⟩

/-- A command on the bus writes RESULT, SRST_DONE and the bus's own fields; INIT has written the handle before. -/
theorem CommandFrame.writesListed {s₀ : State} (hf : CommandFrame i s₀ t) (htx : issuesTxEnd i = true)
    (hs₀ : s₀ = s ∨ ∃ off mode, i = .init off mode ∧ s₀ = s.bindDirect off) : WritesListed i s t := by
  have hkeep : t.evMode = s₀.evMode ∧ t.evN90 = s₀.evN90 ∧ t.evZero = s₀.evZero ∧ t.evP90 = s₀.evP90 ∧ t.pb = s₀.pb ∧
      t.cfg = s₀.cfg ∧ t.cp = s₀.cp ∧ t.stream = s₀.stream ∧ t.taken = s₀.taken ∧
      t.addr = s₀.addr ∧ t.bound = s₀.bound ∧ t.proxy = s₀.proxy := by
    rw [hf.rest]; simp
  obtain ⟨hmode, hn90, hzero, hp90, hpb, hcfg, hcp, hstream, htaken, hhandle⟩ := hkeep
  have hres := hf.result
  have hsrst := hf.srstDone
  have hreset := hf.reset
  rcases hs₀ with rfl | ⟨off, mode, rfl, rfl⟩
  · exact ⟨fun _ _ => hhandle, hsrst, fun _ _ => ⟨hmode, hn90, hzero, hp90⟩, fun hv _ => hres hv,
      fun h => by simp [h] at htx, hpb, hcfg, hcp, hstream, htaken, hreset⟩
  · exact ⟨fun h => absurd rfl (h off mode), hsrst, fun _ _ => ⟨hmode, hn90, hzero, hp90⟩, fun hv _ => hres hv,
      fun h => by simp [h] at htx, hpb, hcfg, hcp, hstream, htaken, hreset⟩

/-- The commands without bus traffic, one by one: INITPX writes the handle, EVCFG2 and EVCFG3 the evaluator, the others RESULT. -/
theorem exec_local_writesListed (h : issuesTxEnd i = false) (he : exec i s = .next t) : WritesListed i s t := by
  cases i with
  | initpx a7 =>
    cases he
    exact ⟨fun _ h => absurd rfl (h a7), fun _ => rfl, fun _ _ => ⟨rfl, rfl, rfl, rfl⟩, fun _ _ => rfl,
      fun _ => ⟨rfl, rfl, rfl⟩, rfl, rfl, rfl, rfl, rfl, fun _ => rfl⟩
  | evcfg2 n90 p90 =>
    cases he
    exact ⟨fun _ _ => ⟨rfl, rfl, rfl⟩, fun _ => rfl, fun h => absurd rfl (h n90 p90), fun _ _ => rfl,
      fun _ => ⟨rfl, rfl, rfl⟩, rfl, rfl, rfl, rfl, rfl, fun _ => rfl⟩
  | evcfg3 n90 zero p90 =>
    cases he
    exact ⟨fun _ _ => ⟨rfl, rfl, rfl⟩, fun _ => rfl, fun _ h => absurd rfl (h n90 zero p90), fun _ _ => rfl,
      fun _ => ⟨rfl, rfl, rfl⟩, rfl, rfl, rfl, rfl, rfl, fun _ => rfl⟩
  | angpwm x =>
    by_cases hm : s.evMode = .unconfigured
    · cases (execAngpwm_unconfigured x hm).symm.trans he
      exact raiseMisuse_writesListed (i := .angpwm x) (by simp [misuseOf, hm])
    · obtain ⟨amt, hx⟩ := execAngpwm_configured x hm
      cases hx.symm.trans he
      exact setResult_writesListed rfl _
  | getaddr | getpb | geterr | phasewin =>
    cases he
    exact setResult_writesListed rfl _
  | _ => cases h

theorem exec_writesListed (he : exec i s = .next t) : WritesListed i s t := by
  rcases exec_outcome he with ⟨reason, hr, rfl⟩ | ⟨-, hi, -⟩ | ⟨s₀, hs₀, -, htx, ⟨u, hf, -, rfl⟩ | ⟨hf, -, -⟩⟩
  · exact raiseMisuse_writesListed hr
  · exact exec_local_writesListed hi he
  · exact (hf.writesListed htx hs₀).complete
  · exact hf.writesListed htx hs₀

end Sys2Proof.Machine

namespace Sys2Proof

open Machine

/-- Settles O57: of the ways a step without reset can go, only a Misuse writes MISUSE, and it keeps an earlier reason. -/
theorem misuseIsSticky : Obligations.MisuseIsSticky := by
  intro s t hr hm ht
  rcases step_cases hr ht with rfl | ⟨-, -, rfl⟩ | ⟨-, why, len, -, rfl⟩ | ⟨-, i, len, -, he⟩
  · exact ⟨hm, rfl⟩
  · exact ⟨hm, rfl⟩
  · exact raiseMisuse_of_misuse (s := s.accept len) hm _ _
  · exact exec_misuse_sticky (s := s.accept len) he hm

/-- Settles O58: in each way a command can end it wrote no field that R36 does not list for it. -/
theorem onlyTheListedCommandsWriteEachField : Obligations.OnlyTheListedCommandsWriteEachField := fun _ _ _ he =>
  let h := exec_writesListed he
  ⟨h.handle, h.srstDone, h.evaluator, h.result, h.bus, h.unlisted⟩

end Sys2Proof
end

section
/-! SUPPORT. O16 and O17: the invariant holds at reset, and every step and every move of the host keeps it. -/

namespace Sys2Proof.Machine

variable {s t : State} {i : Instr}

/-! ## The part of the invariant that no command touches while it runs -/

/-- The invariant without its clauses on BUSY, BUSSTATE and the held action, which say where the PBE stands between steps. -/
structure State.Sound (s : State) : Prop where
  cpLe : s.cp ≤ s.stream.length
  takenBehind : s.taken <:+ s.stream.take s.cp
  proxyBound : s.proxy = true → s.bound = true
  pbStrap : s.pb = s.cfg.pbStrap
  reasonKept : s.misuse = s.misuseReason.isSome
  amounts : s.evN90.toNat ≤ 4096 ∧ s.evZero.toNat ≤ 4096 ∧ s.evP90.toNat ≤ 4096
  zeroUnused : s.evMode ≠ .cubic → s.evZero = 0
  peerWf : ∀ r, s.env = .responder r → Memory.wf r.regs

theorem State.Inv.sound (h : s.Inv) : s.Sound :=
  ⟨h.cpLe, h.takenBehind, h.proxyBound, h.pbStrap, h.reasonKept, h.amounts, h.zeroUnused, h.peerWf⟩

/-- A PBE that is neither held nor waiting is idle in the invariant. -/
theorem State.Sound.inv_of_ready (h : s.Sound) (hbusy : s.busy = false) (hbus : s.bus = .idle) (hstall : s.stall = none)
    (htaken : s.taken = []) : s.Inv where
  __ := h
  busy := by simp [hbusy, hstall, htaken]
  stallTaken := fun _ => htaken
  busIdle := fun _ => hbus

/-- A held PBE has BUSY = 1 and no word in hand. -/
theorem State.Sound.inv_of_held (h : s.Sound) (hbusy : s.busy = true) (hstall : s.stall.isSome = true) (htaken : s.taken = []) :
    s.Inv where
  __ := h
  busy := by simp [hbusy, hstall]
  stallTaken := fun _ => htaken
  busIdle := fun hn => by simp [hn] at hstall

theorem State.Sound.complete (h : s.Sound) : s.complete.Sound := ⟨h.1, h.2, h.3, h.4, h.5, h.6, h.7, h.8⟩

theorem State.Sound.bindDirect (h : s.Sound) (off : Byte) : (s.bindDirect off).Sound where
  __ := h
  proxyBound := fun hp => by cases hp

theorem State.Sound.raiseMisuse (h : s.Sound) (reason : MisuseReason) (draws : Bool) : (s.raiseMisuse reason draws).Sound where
  cpLe := by simpa using h.cpLe
  takenBehind := by simpa using h.takenBehind
  proxyBound := by simpa using h.proxyBound
  pbStrap := by simpa using h.pbStrap
  reasonKept := by
    have := h.reasonKept
    cases hm : s.misuse <;> simp_all
  amounts := by simpa using h.amounts
  zeroUnused := by simpa using h.zeroUnused
  peerWf := by simpa using h.peerWf

/-- A command on the bus touches none of these fields but the peer's registers. -/
theorem State.Sound.of_commandFrame (h : s.Sound) (hf : CommandFrame i s t) : t.Sound := by
  have hpeer := hf.peer h.peerWf
  rw [hf.rest]
  exact { h with peerWf := hpeer }

theorem toNat_amountOf_le (b : Half) : (BitVec.ofNat 13 (amountOf b)).toNat ≤ 4096 :=
  (Nat.mod_le _ _).trans (Nat.min_le_right _ _)

/-- A command without bus traffic binds what it makes a proxy, and writes amounts in range (R30, R122, R197, R198). -/
theorem State.Sound.exec_local (h : s.Sound) (hi : issuesTxEnd i = false) (he : exec i s = .next t) : t.Sound := by
  cases i with
  | initpx a7 =>
    cases he
    exact { h with proxyBound := fun _ => rfl }
  | evcfg2 n90 p90 =>
    cases he
    exact { h with
      amounts := ⟨toNat_amountOf_le n90, Nat.zero_le _, toNat_amountOf_le p90⟩
      zeroUnused := fun _ => rfl }
  | evcfg3 n90 zero p90 =>
    cases he
    exact { h with
      amounts := ⟨toNat_amountOf_le n90, toNat_amountOf_le zero, toNat_amountOf_le p90⟩
      zeroUnused := fun hne => absurd rfl hne }
  | angpwm x =>
    by_cases hm : s.evMode = .unconfigured
    · cases (execAngpwm_unconfigured x hm).symm.trans he
      exact h.raiseMisuse _ _
    · obtain ⟨amt, hx⟩ := execAngpwm_configured x hm
      cases hx.symm.trans he
      exact { h with }
  | getaddr | getpb | geterr | phasewin =>
    cases he
    exact { h with }
  | _ => cases hi

/-! ## Steps -/

/-- A command run by a ready PBE leaves the invariant. -/
theorem State.Sound.exec_inv (h : s.Sound) (hstall : s.stall = none) (htaken : s.taken = []) (he : exec i s = .next t) : t.Inv := by
  rcases exec_outcome he with ⟨reason, -, rfl⟩ | ⟨-, hi, hlocal⟩ | ⟨s₀, hs₀, -, -, hend⟩
  · exact (h.raiseMisuse reason _).inv_of_ready (by simp) (by simp) (by simpa using hstall) (by simpa using htaken)
  · have hsound := h.exec_local hi he
    rw [hlocal.rest] at hsound ⊢
    exact hsound.inv_of_ready rfl rfl hstall htaken
  · have h₀ : s₀.Sound ∧ s₀.taken = [] := by
      rcases hs₀ with rfl | ⟨off, -, -, rfl⟩
      · exact ⟨h, htaken⟩
      · exact ⟨h.bindDirect off, htaken⟩
    obtain ⟨h₀, htaken₀⟩ := h₀
    rcases hend with ⟨u, hu, hs, rfl⟩ | ⟨hf, hbusy, hs⟩
    · exact (h₀.of_commandFrame hu).complete.inv_of_ready rfl rfl (hs.trans hstall) (by rw [hu.rest]; exact htaken₀)
    · exact (h₀.of_commandFrame hf).inv_of_held hbusy hs (by rw [hf.rest]; exact htaken₀)

/-- A PBE that takes words is not held. -/
theorem stall_of_not_blocked (h : s.blocked = false) : s.stall = none := by
  unfold State.blocked at h
  cases hs : s.stall <;> simp_all

/-- Words taken leave CP in the stream. -/
theorem State.Sound.accept (h : s.Sound) {len : Nat} (hlen : len ≤ s.wordsAhead.length) : (s.accept len).Sound where
  __ := h
  cpLe := by
    have hcp := h.cpLe
    simp only [State.wordsAhead, List.length_append, List.length_drop] at hlen
    simp only [State.accept_cp, State.accept_stream]
    omega
  takenBehind := List.nil_suffix

/-- A PBE that waits has in hand the words before CP, which is the end of the stream. -/
theorem State.Inv.awaitWords (h : s.Inv) (hb : s.blocked = false) (hw : s.wordsAhead ≠ []) : s.awaitWords.Inv := by
  have hstall := stall_of_not_blocked hb
  have hcp := h.cpLe
  have hend : s.cp + (s.stream.drop s.cp).length = s.stream.length := by rw [List.length_drop]; omega
  exact {
    h.sound with
    busy := by simp [hw]
    stallTaken := fun hs => by simp [hstall] at hs
    busIdle := h.busIdle
    cpLe := hend.le
    takenBehind := by
      show s.taken ++ s.stream.drop s.cp <:+ s.stream.take (s.cp + (s.stream.drop s.cp).length)
      rw [hend, List.take_length]
      obtain ⟨before, hbefore⟩ := h.takenBehind
      exact ⟨before, by rw [← List.append_assoc, hbefore, List.take_append_drop]⟩ }

theorem inv_resetWith (cfg : Config) : (State.resetWith cfg).Inv :=
  State.Sound.inv_of_ready
    { cpLe := Nat.zero_le _
      takenBehind := List.nil_suffix
      proxyBound := fun hp => by cases hp
      pbStrap := rfl
      reasonKept := rfl
      amounts := ⟨Nat.zero_le _, Nat.zero_le _, Nat.zero_le _⟩
      zeroUnused := fun _ => rfl
      peerWf := fun r hr => by cases hr }
    rfl rfl rfl rfl

/-- The reset values meet the invariant whatever a reset leaves of the stream and of the peer. -/
theorem State.Inv.applyReset (h : s.Inv) : s.applyReset.Inv :=
  { inv_resetWith s.cfg with
    cpLe := Nat.zero_le _
    takenBehind := List.nil_suffix
    peerWf := State.wf_cutEnv h.peerWf }

theorem State.Inv.step (h : s.Inv) (ht : Machine.step s = .next t) : t.Inv := by
  by_cases hr : s.resetIn = .now
  · rw [step_reset hr] at ht
    cases ht
    exact h.applyReset
  · rcases step_cases hr ht with rfl | ⟨hb, hw, rfl⟩ | ⟨hb, why, len, hd, rfl⟩ | ⟨hb, i, len, hd, he⟩
    · exact h
    · exact h.awaitWords hb hw
    · exact ((h.sound.accept (decode_length_le (.inr ⟨why, hd⟩))).raiseMisuse _ _).inv_of_ready (by simp) (by simp)
        (by simpa using stall_of_not_blocked hb) (by simp)
    · exact (h.sound.accept (decode_length_le (.inl ⟨i, hd⟩))).exec_inv (stall_of_not_blocked (s := s) hb) rfl he

/-! ## The host's moves -/

theorem State.Inv.send (h : s.Inv) (words : List Word) : (s.send words).Inv where
  __ := h
  cpLe := by
    have := h.cpLe
    simp only [State.send, List.length_append]
    omega
  takenBehind := by
    show s.taken <:+ (s.stream ++ words).take s.cp
    rw [List.take_append_of_le_length h.cpLe]
    exact h.takenBehind

theorem State.Inv.drawRead (h : s.Inv) : s.drawRead.2.Inv := { h with }

theorem State.Inv.hostReadsResult (h : s.Inv) : s.hostReadsResult.2.Inv := by
  unfold State.hostReadsResult
  split
  · exact h.drawRead
  · exact h

theorem State.Inv.hostReadsStatus (h : s.Inv) : s.hostReadsStatus.2.Inv := by
  unfold State.hostReadsStatus
  split
  · exact h.drawRead
  · exact h

end Sys2Proof.Machine

namespace Sys2Proof

open Machine

/-- Settles O17: a step leaves the invariant by the four ways it can go, a host's move by the fields it touches. -/
theorem stepKeepsInvariant : Obligations.StepKeepsInvariant :=
  ⟨fun _ _ h ht => h.step ht, fun _ words _ h =>
    ⟨h.send words, { h with }, { h with }, h.hostReadsResult, h.hostReadsStatus⟩⟩

/-- Settles O16. -/
theorem invariantHoldsAtReset : Obligations.InvariantHoldsAtReset := ⟨inv_resetWith _, inv_resetWith⟩

end Sys2Proof
end

section
/-! SUPPORT. O60: STATUS bit by bit, and the host's reads. -/

namespace Sys2Proof.Machine

/-- The bits of STATUS: its fields stand one above the other, LASTERR lowest, and nothing above BUSY (R32). -/
theorem State.status_getLsbD (s : State) (n : Nat) :
    s.status.getLsbD n =
      if n < 8 then s.lastErr.getLsbD n
      else if n = 8 then s.misuse
      else if n = 9 then s.bound
      else if n = 10 then s.proxy
      else if n = 11 then s.srstDone
      else if n < 14 then (schemeCode s.pb).getLsbD (n - 12)
      else if n < 16 then (evModeCode s.evMode).getLsbD (n - 14)
      else if n < 23 then s.addr.getLsbD (n - 16)
      else if n = 23 then s.busy
      else false := by
  have hbits : s.status.getLsbD n =
      ((0#8 ++ (BitVec.ofBool s.busy ++ s.addr)) ++
        ((evModeCode s.evMode ++ (schemeCode s.pb ++ (BitVec.ofBool s.srstDone ++ (BitVec.ofBool s.proxy ++
          (BitVec.ofBool s.bound ++ BitVec.ofBool s.misuse))))) ++ s.lastErr)).getLsbD n := rfl
  simp only [hbits, BitVec.getLsbD_append, BitVec.getLsbD_ofBool]
  rcases Nat.lt_or_ge n 8 with hlow | hlow
  · simp [hlow, show n < 16 by omega]
  · rcases Nat.lt_or_ge n 24 with hmid | hhigh
    · interval_cases n <;> simp
    · simp [show ¬ n < 16 by omega, show ¬ n - 16 < 8 by omega, show ¬ n < 8 by omega]
      grind

/-- A range of bits, read off bit by bit. -/
theorem extractLsb'_eq_of_getLsbD {w len : Nat} {x : BitVec w} {y : BitVec len} {start : Nat}
    (h : ∀ n < len, x.getLsbD (start + n) = y.getLsbD n) : x.extractLsb' start len = y :=
  BitVec.eq_of_getLsbD_eq fun n hn => by simp [hn, h]

/-! Each field at its place. -/

theorem State.status_misuse (s : State) : s.status.getLsbD 8 = s.misuse := by rw [State.status_getLsbD]; rfl
theorem State.status_bound (s : State) : s.status.getLsbD 9 = s.bound := by rw [State.status_getLsbD]; rfl
theorem State.status_proxy (s : State) : s.status.getLsbD 10 = s.proxy := by rw [State.status_getLsbD]; rfl
theorem State.status_srstDone (s : State) : s.status.getLsbD 11 = s.srstDone := by rw [State.status_getLsbD]; rfl
theorem State.status_busy (s : State) : s.status.getLsbD 23 = s.busy := by rw [State.status_getLsbD]; rfl

theorem State.status_lastErr (s : State) : s.status.extractLsb' 0 8 = s.lastErr :=
  extractLsb'_eq_of_getLsbD fun n hn => by rw [State.status_getLsbD]; grind

theorem State.status_pb (s : State) : s.status.extractLsb' 12 2 = schemeCode s.pb :=
  extractLsb'_eq_of_getLsbD fun n hn => by rw [State.status_getLsbD]; grind

theorem State.status_evMode (s : State) : s.status.extractLsb' 14 2 = evModeCode s.evMode :=
  extractLsb'_eq_of_getLsbD fun n hn => by rw [State.status_getLsbD]; grind

theorem State.status_addr (s : State) : s.status.extractLsb' 16 7 = s.addr :=
  extractLsb'_eq_of_getLsbD fun n hn => by rw [State.status_getLsbD]; grind

theorem State.status_reserved (s : State) : s.status.extractLsb' 24 8 = 0 :=
  extractLsb'_eq_of_getLsbD fun n hn => by rw [State.status_getLsbD]; grind

/-! The host's reads. -/

theorem State.hostReads_of_ready {s : State} (h : s.busy = false) :
    s.hostReadsResult = (s.result, s) ∧ s.hostReadsStatus = (s.status, s) := by
  simp [State.hostReadsResult, State.hostReadsStatus, h]

/-- While BUSY = 1 a read changes the count of free values alone (log 20). -/
theorem State.hostReads_of_busy {s : State} (h : s.busy = true) :
    s.hostReadsStatus.2 = { s with draws := s.draws + 1 } ∧ s.hostReadsResult.2 = { s with draws := s.draws + 1 } := by
  simp [State.hostReadsResult, State.hostReadsStatus, State.drawRead, h]

/-- While BUSY = 1 a read of STATUS shows BUSY exactly, and 0 in the reserved byte (R253). -/
theorem State.hostReadsStatus_of_busy {s : State} (h : s.busy = true) :
    s.hostReadsStatus.1.getLsbD 23 = true ∧ s.hostReadsStatus.1.extractLsb' 24 8 = 0 := by
  have hread : s.hostReadsStatus.1 = 0x00800000 ||| (s.drawRead.1 &&& 0x007FFFFF) := by rw [State.hostReadsStatus, if_pos h]
  rw [hread]
  generalize s.drawRead.1 = w
  refine ⟨by simp, extractLsb'_eq_of_getLsbD fun n hn => ?_⟩
  interval_cases n <;> simp

end Sys2Proof.Machine

namespace Sys2Proof

open Machine

/-- Settles O60: the fields of R32 one by one, then the host's reads by BUSY. -/
theorem statusShowsEveryField : Obligations.StatusShowsEveryField := fun s =>
  ⟨⟨s.status_lastErr, s.status_misuse, s.status_bound, s.status_proxy, s.status_srstDone, s.status_pb, s.status_evMode,
      s.status_addr, s.status_busy, s.status_reserved⟩,
    State.hostReads_of_ready,
    fun h => ⟨(State.hostReadsStatus_of_busy h).1, (State.hostReadsStatus_of_busy h).2, State.hostReads_of_busy h⟩⟩

end Sys2Proof
end

section
/-! SUPPORT. O14 and O15: what a reset leaves. -/

namespace Sys2Proof.Machine

variable {s : State} {r : Responder}

@[simp] theorem length_freeBytes (first n : Nat) : (freeBytes first n).length = n := by simp [freeBytes]

theorem mem_freeBytes {first n : Nat} {b : Byte} (h : b ∈ freeBytes first n) :
    ∃ k, first ≤ k ∧ k < first + n ∧ b = Config.freeByte k := by
  obtain ⟨j, hj, rfl⟩ := List.mem_map.mp h
  exact ⟨first + j, by omega, by simpa using hj, rfl⟩

/-- A transmission to the peer, cut by reset, fills the registers of its whole burst with draws (R243). -/
theorem Responder.cutRegs_burst (r : Responder) (action : Action) (reg : Byte) (data : List Byte) (draws : Nat) :
    r.cutRegs ⟨action, some (r.ra, reg :: data)⟩ draws = storeRun r.regs reg (freeBytes draws data.length) := by
  simp [Responder.cutRegs]

/-- A register that the cut action could not reach keeps its byte. -/
theorem Responder.read_cutRegs_other {held : Held} {a : Byte} (draws : Nat)
    (h : ¬ Claims.reachedByCut (some held) r.ra a) : Memory.read (r.cutRegs held draws) a.toNat = Memory.read r.regs a.toNat := by
  unfold Responder.cutRegs
  split
  · rename_i dest reg data hburst
    split
    · rename_i hra
      subst hra
      refine read_storeRun_other _ _ _ _ fun j hj ha => h ⟨held, reg, data, rfl, hburst, j, by simpa using hj, ha⟩
    · rfl
  · rfl

/-- A register that the cut transmission could reach holds a draw of the reset. -/
theorem Responder.read_cutRegs_reached {held : Held} {a : Byte} (draws : Nat)
    (h : Claims.reachedByCut (some held) r.ra a) :
    ∃ k, draws ≤ k ∧ k < draws + held.burstData ∧ Memory.read (r.cutRegs held draws) a.toNat = some (Config.freeByte k) := by
  obtain ⟨⟨action, burst⟩, reg, data, hheld, rfl, j, hj, rfl⟩ := h
  cases hheld
  obtain ⟨b, hb, hread⟩ := read_storeRun_stored r.regs reg (freeBytes draws data.length) j (by simpa using hj)
  obtain ⟨k, hlo, hhi, rfl⟩ := mem_freeBytes hb
  exact ⟨k, hlo, hhi, by rw [Responder.cutRegs_burst, hread]⟩

/-- What a reset leaves of the responder: its address, and every register's byte but those of a burst it cut. -/
theorem State.cutEnv_reg (h : s.env = .responder r) :
    ∃ r', s.cutEnv = .responder r' ∧ r'.ra = r.ra ∧
      ∀ a, (¬ Claims.reachedByCut s.stall r.ra a → r'.reg a = r.reg a) ∧
        (Claims.reachedByCut s.stall r.ra a →
          ∃ n, s.draws < n ∧ n < s.draws + s.resetDraws ∧ r'.reg a = Config.freeByte n) := by
  cases hs : s.stall with
  | none =>
    refine ⟨r, by rw [State.cutEnv_between hs, h], rfl, fun a => ⟨fun _ => rfl, ?_⟩⟩
    rintro ⟨held, -, -, hheld, -⟩
    cases hheld
  | some held =>
    refine ⟨_, State.cutEnv_responder h hs, rfl, fun a => ⟨fun hn => ?_, fun hr => ?_⟩⟩
    · simp only [Responder.reg, Responder.read_cutRegs_other _ hn]
    · obtain ⟨k, hlo, hhi, hread⟩ := Responder.read_cutRegs_reached (s.draws + 1) hr
      refine ⟨k, by omega, ?_, by simp [Responder.reg, hread]⟩
      simp only [State.resetDraws, hs]
      omega

theorem cleanEntry_resetWith (cfg : Config) : (State.resetWith cfg).CleanEntry :=
  ⟨rfl, rfl, rfl, rfl, rfl, rfl, rfl, rfl, rfl, rfl, ⟨rfl, rfl, rfl⟩, rfl, rfl, ⟨rfl, rfl⟩, rfl⟩

/-- After reset STATUS shows PB alone (R38). -/
theorem status_resetWith (cfg : Config) :
    (State.resetWith cfg).status =
      (match cfg.pbStrap with | .none => 0x00000000 | .linear => 0x00001000 | .weaved => 0x00002000) := by
  dsimp only [State.status, State.resetWith]
  cases cfg.pbStrap <;> decide

end Sys2Proof.Machine

namespace Sys2Proof

open Machine

/-- Settles O14: the fields by the reset state, the peer by what the reset cut. -/
theorem resetSetsEveryField : Obligations.ResetSetsEveryField := fun s hr =>
  ⟨s.applyReset, step_reset hr, rfl, rfl, rfl, rfl, rfl, rfl, rfl, rfl, rfl, rfl, rfl, rfl, rfl, rfl, rfl, rfl, rfl, rfl,
    rfl, rfl, rfl, State.cutEnv_between, fun _ => State.cutEnv_oracle, fun _ => State.cutEnv_reg⟩

/-- Settles O15. -/
theorem resetStateIsCleanEntry : Obligations.ResetStateIsCleanEntry :=
  ⟨cleanEntry_resetWith _, fun cfg => ⟨cleanEntry_resetWith cfg, rfl, rfl, rfl, rfl, rfl, rfl, rfl, rfl, rfl, rfl, rfl, rfl,
    rfl, rfl, rfl, status_resetWith cfg⟩⟩

end Sys2Proof
end

section
/-! SUPPORT. O6 (a step runs the decoded command) and O29 (the getters). -/

namespace Sys2Proof

open Machine

/-- Settles O6: a ready PBE is not blocked, and its words ahead are those at CP. -/
theorem stepRunsDecodedCommand : Obligations.StepRunsDecodedCommand := by
  intro s i len hr hstall hbusy htaken hd
  have hwords : s.wordsAhead = s.stream.drop s.cp := by simp [State.wordsAhead, htaken]
  have hblocked : s.blocked = false := by simp [State.blocked, hstall, hbusy]
  have hne : (s.stream.drop s.cp).isEmpty = false := by
    cases hw : s.stream.drop s.cp with
    | nil => rw [hw] at hd; cases hd
    | cons => rfl
  have hintake : intake s = .run i (s.accept len) := by
    simp only [intake, hr, hblocked, hwords, hne, hd, if_false, Bool.false_eq_true]
  have haccept : s.accept len = { s with cp := s.cp + len, busy := true } := by
    simp [State.accept, htaken]
  rw [step, hintake, haccept]

/-- PB's code as a word (R26). -/
theorem setWidth_schemeCode (pb : Scheme) :
    (schemeCode pb).setWidth 32 = (match pb with | .none => 0 | .linear => 1 | .weaved => 2) := by
  cases pb <;> decide

/-- Settles O29: a field widened to a word stands under zeros. -/
theorem gettersReturnTheirField : Obligations.GettersReturnTheirField := by
  intro s
  refine ⟨?_, ?_, ?_⟩
  · show execGetaddr s = _
    rw [execGetaddr, BitVec.setWidth_eq_append (by decide)]
    rfl
  · show execGetpb s = _
    rw [execGetpb, setWidth_schemeCode]
    rfl
  · show execGeterr s = _
    rw [execGeterr, BitVec.setWidth_eq_append (by decide)]
    rfl

end Sys2Proof
end

section
/-! SUPPORT. O55: the cubic curve is the natural spline. -/

namespace Sys2Proof.Machine

/-- The numerator of R201 over its denominator is the coefficient view's piece on either side of 0. -/
theorem cubNum_div_eq_pieces (n z p x : Int) :
    (cubNum n z p x : ℚ) / 2916000 = if x ≤ 0 then (cubicPiece0 n z p).eval (x + 90) else (cubicPiece1 n z p).eval x := by
  unfold cubNum
  by_cases hx : x ≤ 0
  · simp only [show x + 90 ≤ 90 by omega, hx, if_true, CurvePiece.eval, cubicPiece0]
    push_cast
    ring
  · simp only [show ¬ x + 90 ≤ 90 by omega, hx, if_false, CurvePiece.eval, cubicPiece1]
    push_cast
    ring

theorem linNum_div_eq_piece (n p x : Int) : (linNum n p x : ℚ) / 180 = (linearPiece n p).eval (x + 90) := by
  unfold linNum linearPiece CurvePiece.eval
  push_cast
  ring

end Sys2Proof.Machine

namespace Sys2Proof

open Machine

/-- Settles O55: the curve is the two pieces, whose coefficients meet the spline's conditions. -/
theorem cubicCurveIsTheNaturalSpline : Obligations.CubicCurveIsTheNaturalSpline := by
  intro n z p x _ _
  refine ⟨cubNum_div_eq_pieces n z p x, linNum_div_eq_piece n p x, ?_⟩
  simp only [CurvePiece.eval, cubicPiece0, cubicPiece1]
  refine ⟨?_, ?_, ?_, ?_, ?_, ?_, ?_, ?_⟩ <;> ring

end Sys2Proof
end

section
/-! SUPPORT. Every command does its plan: the bus operations and the commands' bodies, with the plan of R96 to R103 for each. -/

namespace Sys2Proof.Machine

variable {α β : Type} {s₀ s t u : State} {plan plan' : List Held} {answers : List Byte} {later : List (Option Byte)}

/-! ## What an operation adds to the history -/

/-- Where a sequence of bus primitives stands when it runs to its end or is held. -/
def Bus.state : Bus α → State
  | .done _ s => s
  | .hung s => s

/-- The entries a bus operation started in `s` added to the history. -/
def Bus.entries (s : State) (x : Bus α) : List BusEvent := x.state.trace.drop s.trace.length

theorem Bus.entries_eq {x : Bus α} {evs : List BusEvent} (h : x.state.trace = s.trace ++ evs) : x.entries s = evs := by
  rw [Bus.entries, h, List.drop_left]

theorem Bus.Plays.trace {b₀ b₁ : BusState} {x : Bus α} (h : x.Plays b₀ b₁ plan s) : x.state.trace = s.trace ++ x.entries s := by
  cases x with
  | done v t =>
    obtain ⟨evs, ht, -⟩ := h
    rw [Bus.entries_eq (x := .done v t) ht]
    exact ht
  | hung t =>
    obtain ⟨evs, -, ht, -⟩ := h
    rw [Bus.entries_eq (x := .hung t) ht]
    exact ht

/-- Among some entries `old` is the byte that was read first, if one was. -/
def ReadsFirst (evs : List BusEvent) (old : Byte) : Prop := ∀ b, (bytesRead evs).head? = some b → b = old

theorem exists_readsFirst (evs : List BusEvent) : ∃ old, ReadsFirst evs old :=
  ⟨(bytesRead evs).head?.getD 0, fun b hb => by simp [hb]⟩

/-! ## Operations that do a plan -/

/-- The fields that a plan's addresses, masks and windows come from are the same in two states. -/
structure SameHandle (s t : State) : Prop where
  addr : t.addr = s.addr
  cfg : t.cfg = s.cfg
  pb : t.pb = s.pb

theorem SameHandle.refl (s : State) : SameHandle s s := ⟨rfl, rfl, rfl⟩

/-- A bus operation that leaves BUSSTATE IDLE does the actions of `plan`, in every environment and with a reset at any time; when the plan
begins with a transmission and that is held at once, so is the operation. -/
structure Bus.Acts (plan : List Held) (s : State) (x : Bus α) : Prop where
  busy : ∀ t, x = .hung t → t.busy = true
  plays : x.Plays .idle .idle plan s
  follows : ∀ answers later, Scripted answers later s → x.Follows answers later s
  opens : ∀ a bytes, plan.head? = some ⟨.prim (.txBegin a), some (a, bytes)⟩ → ∀ t, transmit a bytes s = .hung t → x = .hung t

/-- An operation that does a plan and ends with the handle of `s₀`. -/
structure Bus.Does (s₀ : State) (plan : List Held) (s : State) (x : Bus α) : Prop extends x.Acts plan s where
  handle : ∀ v t, x = .done v t → SameHandle s₀ t

/-- An operation that does the plan for the byte it reads first. -/
def Bus.ActsByRead (plan : Byte → List Held) (s : State) (x : Bus α) : Prop :=
  ∀ old, ReadsFirst (x.entries s) old → x.Acts (plan old) s

theorem Bus.Within.busy {x : Bus α} (h : x.Within s) : ∀ t, x = .hung t → t.busy = true := by
  rintro t rfl
  exact h.2.1

theorem Bus.Within.handle {x : Bus α} (h : x.Within s) (hs : SameHandle s₀ s) : ∀ v t, x = .done v t → SameHandle s₀ t := by
  rintro v t rfl
  rw [h.1.rest]
  exact ⟨hs.addr, hs.cfg, hs.pb⟩

/-- `Bus.Follows.andThen` with the end of the first operation known to the second. -/
theorem Bus.Follows.andThen_of_done {x : Bus α} {k : α → State → Bus β} (hx : x.Follows answers later s)
    (hk : ∀ v t, x = .done v t → ∀ rest, Scripted rest later t → (k v t).Follows rest later t) :
    (x.andThen k).Follows answers later s := by
  cases x with
  | hung t => exact hx
  | done v t =>
    obtain ⟨used, rest, evs, ha, hn, ht, hs⟩ := hx
    have hnext := hk v t rfl rest hs
    rw [Bus.andThen_done]
    revert hnext
    cases k v t with
    | done w u =>
      rintro ⟨used', rest', evs', rfl, hn', hu, hs'⟩
      exact ⟨used ++ used', rest', evs ++ evs', by simp [ha], by simp [hn, hn'], by simp [hu, ht], hs'⟩
    | hung u =>
      rintro ⟨evs', hn', hu, he⟩
      exact ⟨evs ++ evs', by simp [ha, hn, hn'], by simp [hu, ht], he⟩

theorem Bus.Acts.andThen {x : Bus α} {k : α → State → Bus β} (hx : x.Acts plan s) (hne : plan ≠ [])
    (hk : ∀ v t, x = .done v t → (k v t).Acts plan' t) : (x.andThen k).Acts (plan ++ plan') s where
  busy := by
    cases x with
    | hung t =>
      rw [Bus.andThen_hung]
      intro u hu
      cases hu
      exact hx.busy t rfl
    | done v t => exact (hk v t rfl).busy
  plays := hx.plays.andThen fun v t hd => (hk v t hd).plays
  follows := fun answers later hs =>
    (hx.follows answers later hs).andThen_of_done fun v t hd rest hr => (hk v t hd).follows rest later hr
  opens := fun a bytes hh t ht => by
    rw [List.head?_append_of_ne_nil _ hne] at hh
    rw [hx.opens a bytes hh t ht, Bus.andThen_hung]

theorem Bus.Does.andThen {x : Bus α} {k : α → State → Bus β} (hx : x.Does s₀ plan s) (hne : plan ≠ [])
    (hk : ∀ v t, x = .done v t → SameHandle s₀ t → (k v t).Does s₀ plan' t) : (x.andThen k).Does s₀ (plan ++ plan') s where
  toActs := hx.toActs.andThen hne fun v t hd => (hk v t hd (hx.handle v t hd)).toActs
  handle := fun w u hu => by
    obtain ⟨v, t, hd, hw⟩ := Bus.andThen_eq_done hu
    exact (hk v t hd (hx.handle v t hd)).handle w u hw

/-- A command's end that sends nothing: only fields off the bus have changed. -/
theorem Bus.Acts.quiet {v : α} (htrace : t.trace = s.trace) (hstall : t.stall = s.stall) (hreset : t.resetIn = s.resetIn)
    (henv : t.env = s.env) (hdraws : s.draws ≤ t.draws) (hbus : s.bus = .idle → t.bus = .idle) : (Bus.done v t).Acts [] s where
  busy := fun _ h => by cases h
  plays := ⟨[], by simp [htrace], rfl, hstall,
    fun hn => by
      unfold State.NoStall at *
      rw [henv]
      exact hn.mono hdraws,
    fun _ _ => Nat.zero_le _, fun _ => by rw [hreset]; rfl, fun h => ⟨rfl, hbus h⟩⟩
  follows := fun answers later hs =>
    ⟨[], answers, [], rfl, rfl, by simp [htrace], by rw [henv]; exact hs.env, hs.uncut.of_eq hreset⟩
  opens := fun _ _ h => by cases h

theorem Bus.Does.done (v : α) (h : SameHandle s₀ s) : (Bus.done v s).Does s₀ [] s where
  toActs := .quiet rfl rfl rfl rfl (Nat.le_refl _) id
  handle := fun w t ht => by cases ht; exact h

/-! ## The register accesses -/

theorem burstPlan_ne_nil (a : BusAddr) (bytes : List Byte) : burstPlan a bytes ≠ [] := List.cons_ne_nil _ _

theorem readPlan_ne_nil (a : BusAddr) (reg : Byte) : readPlan a reg ≠ [] := List.cons_ne_nil _ _

theorem transmit_does (a : BusAddr) (bytes : List Byte) (h : SameHandle s₀ s) :
    (transmit a bytes s).Does s₀ (burstPlan a bytes) s where
  busy := (transmit_within a bytes s).busy
  plays := transmit_plays a bytes s
  follows := fun _ _ hs => transmit_follows a bytes hs
  opens := fun a' bytes' hh t ht => by
    cases hh
    exact ht
  handle := (transmit_within a bytes s).handle h

theorem memWrite_does {reg : Byte} {bytes : List Byte} (h : SameHandle s₀ s) :
    (memWrite reg bytes s).Does s₀ (burstPlan s₀.addr (reg :: bytes)) s := by
  rw [memWrite, h.addr]
  exact transmit_does _ _ h

theorem writeReg_does {reg v v' : Byte} (h : SameHandle s₀ s) (hv : v = v') :
    (writeReg reg v s).Does s₀ (burstPlan s₀.addr [reg, v']) s := hv ▸ memWrite_does h

theorem writeWindow_does {base : Byte} {w : Window} (h : SameHandle s₀ s) :
    (writeWindow base w s).Does s₀ (burstPlan s₀.addr (base :: windowBytes s₀.cfg.swappedRegs w)) s := by
  rw [writeWindow, h.cfg]
  exact memWrite_does h

theorem readReg_does {reg : Byte} (h : SameHandle s₀ s) : (readReg reg s).Does s₀ (readPlan s₀.addr reg) s where
  busy := (readReg_within reg s).busy
  plays := h.addr ▸ readReg_plays reg s
  follows := fun _ _ hs => readReg_follows reg hs
  opens := fun a bytes hh t ht => by
    cases hh
    rw [readReg, h.addr, ht, Bus.andThen_hung]
  handle := (readReg_within reg s).handle h

theorem waitUs_does {us : Nat} (h : SameHandle s₀ s) : (waitUs us s).Does s₀ (waitPlan us) s where
  busy := (waitUs_within us s).busy
  plays := waitUs_plays us s
  follows := fun _ _ hs => waitUs_follows us hs
  opens := fun _ _ hh => by cases hh
  handle := (waitUs_within us s).handle h

/-- A register write and then the rest. -/
theorem writeReg_then {reg v v' : Byte} {k : Unit → State → Bus β} (h : SameHandle s₀ s) (hv : v = v')
    (hk : ∀ t, SameHandle s₀ t → (k () t).Does s₀ plan' t) :
    ((writeReg reg v s).andThen k).Does s₀ (burstPlan s₀.addr [reg, v'] ++ plan') s :=
  (writeReg_does h hv).andThen (burstPlan_ne_nil _ _) fun _ t _ ht => hk t ht

/-- A register read and then a rest whose plan does not depend on the byte read. -/
theorem readReg_then {reg : Byte} {k : Byte → State → Bus β} (h : SameHandle s₀ s)
    (hk : ∀ v t, SameHandle s₀ t → (k v t).Does s₀ plan' t) :
    ((readReg reg s).andThen k).Does s₀ (readPlan s₀.addr reg ++ plan') s :=
  (readReg_does h).andThen (readPlan_ne_nil _ _) fun v t _ ht => hk v t ht

/-- A command's first register read and then a rest whose plan depends on the byte read. -/
theorem readReg_thenByRead {reg : Byte} {k : Byte → State → Bus β} {rest : Byte → List Held}
    (hk : ∀ old t, SameHandle s t → (k old t).Does s (rest old) t) :
    ((readReg reg s).andThen k).ActsByRead (fun old => readPlan s.addr reg ++ rest old) s := by
  intro old hold
  refine ((readReg_does (.refl s)).andThen (readPlan_ne_nil _ _) fun v t hd ht => ?_).toActs
  have hnext := hk v t ht
  obtain ⟨evs, htrace, hbytes⟩ := readReg_reads hd
  have hentries : ((readReg reg s).andThen k).entries s = evs ++ (k v t).entries t := by
    rw [hd, Bus.andThen_done]
    exact Bus.entries_eq (by rw [hnext.plays.trace, htrace, List.append_assoc])
  obtain rfl : v = old := hold v (by simp [hentries, hbytes])
  exact hnext

theorem Bus.Acts.byRead {x : Bus α} (h : x.Acts plan s) : x.ActsByRead (fun _ => plan) s := fun _ _ => h

/-! ## The bodies of the commands -/

theorem Bus.Does.ite {c : Prop} [Decidable c] {x y : Bus α} (hx : x.Does s₀ plan s) (hy : y.Does s₀ plan' s) :
    (if c then x else y).Does s₀ (if c then plan else plan') s := by
  split
  · exact hx
  · exact hy

theorem Bus.Does.setResult (v : Word) (h : SameHandle s₀ s) : (Bus.done () (s.setResult v)).Does s₀ [] s where
  toActs := .quiet rfl rfl rfl rfl (Nat.le_refl _) id
  handle := fun w t ht => by cases ht; exact ⟨h.addr, h.cfg, h.pb⟩

theorem swrstBody_acts (s : State) : (swrstBody s).Acts (burstPlan swrstAddr [swrstByte]) s := by
  have h := (transmit_does swrstAddr [swrstByte] (.refl s)).toActs.andThen (burstPlan_ne_nil _ _)
    (k := fun _ s => .done () { s with srstDone := true }) (plan' := []) fun _ t _ => .quiet rfl rfl rfl rfl (Nat.le_refl _) id
  rwa [List.append_nil] at h

theorem initBody_acts (mode : Byte) (s : State) :
    (initBody mode s).Acts (burstPlan s.addr [regMode1, restartMask s.cfg ||| aiMask s.cfg] ++ burstPlan s.addr [regMode2, mode]) s :=
  (writeReg_then (.refl s) rfl fun _ h => writeReg_does h rfl).toActs

theorem rdregBody_acts (reg : Byte) (s : State) : (rdregBody reg s).Acts (readPlan s.addr reg) s := by
  have h := (readReg_then (reg := reg) (.refl s) fun v _ h => .setResult (v.setWidth 32) h).toActs
  rwa [List.append_nil] at h

theorem getchpwmBody_acts (base : Byte) (s : State) :
    (getchpwmBody base s).Acts
      (readPlan s.addr base ++ readPlan s.addr (base + 1) ++ readPlan s.addr (base + 2) ++ readPlan s.addr (base + 3)) s := by
  simp only [List.append_assoc]
  have h := (readReg_then (reg := base) (.refl s) fun r0 _ h => readReg_then (reg := base + 1) h fun r1 _ h =>
    readReg_then (reg := base + 2) h fun r2 _ h => readReg_then (reg := base + 3) h fun r3 t h => .setResult (BitVec.ofNat 32 (decodeAmount
      ⟨pairValue t.cfg.swappedRegs r0 r1, pairValue t.cfg.swappedRegs r2 r3⟩)) h).toActs
  rwa [List.append_nil] at h

theorem enableBody_acts (bit reg value : Byte) (s : State) :
    (enableBody bit reg value s).ActsByRead (fun old =>
      readPlan s.addr regMode1 ++ burstPlan s.addr [regMode1, old ||| bit] ++ burstPlan s.addr [reg, value]) s := by
  simp only [List.append_assoc]
  exact readReg_thenByRead fun _ _ h => writeReg_then h rfl fun _ h => writeReg_does h rfl

theorem disableBody_acts (bit : Byte) (s : State) :
    (disableBody bit s).ActsByRead (fun old => readPlan s.addr regMode1 ++ burstPlan s.addr [regMode1, old &&& ~~~bit]) s :=
  readReg_thenByRead fun _ _ h => writeReg_does h rfl

/-- The end of SETFREQ and ENEXTCLK: a wait, and a last write if the byte read had SLEEP = 0 (R126, R138). -/
theorem waitThenRestart_does (old : Byte) (v : Config → Byte) (h : SameHandle s₀ s) :
    ((waitUs 500 s).andThen fun _ s =>
      if old &&& sleepMask s.cfg = 0 then writeReg regMode1 (v s.cfg) s else .done () s).Does s₀
      (waitPlan 500 ++ if old &&& sleepMask s₀.cfg = 0 then burstPlan s₀.addr [regMode1, v s₀.cfg] else []) s :=
  (waitUs_does h).andThen (List.cons_ne_nil _ _) fun _ _ _ h => by
    rw [h.cfg]
    exact (writeReg_does h rfl).ite (.done () h)

theorem setfreqBody_acts (hz : Half) (s : State) :
    (setfreqBody hz s).ActsByRead (fun old =>
      readPlan s.addr regMode1 ++ burstPlan s.addr [regMode1, old ||| sleepMask s.cfg] ++
        burstPlan s.addr [regPreScale, BitVec.ofInt 8 (prescale (hzOf hz))] ++ burstPlan s.addr [regMode1, old] ++ waitPlan 500 ++
          if old &&& sleepMask s.cfg = 0 then burstPlan s.addr [regMode1, old ||| restartMask s.cfg] else []) s := by
  simp only [List.append_assoc]
  exact readReg_thenByRead fun old _ h => writeReg_then h (by rw [h.cfg]) fun _ h => writeReg_then h rfl fun _ h =>
    writeReg_then h rfl fun _ h => waitThenRestart_does old (fun cfg => old ||| restartMask cfg) h

theorem enextclkBody_acts (s : State) :
    (enextclkBody s).ActsByRead (fun old =>
      readPlan s.addr regMode1 ++ burstPlan s.addr [regMode1, old ||| sleepMask s.cfg] ++
        burstPlan s.addr [regMode1, old ||| sleepMask s.cfg ||| extclkMask s.cfg] ++
          burstPlan s.addr [regMode1, old ||| extclkMask s.cfg] ++ waitPlan 500 ++
            if old &&& sleepMask s.cfg = 0 then burstPlan s.addr [regMode1, old ||| extclkMask s.cfg ||| restartMask s.cfg]
            else []) s := by
  simp only [List.append_assoc]
  exact readReg_thenByRead fun old _ h => writeReg_then h (by rw [h.cfg]) fun _ h => writeReg_then h (by rw [h.cfg]) fun _ h =>
    writeReg_then h (by rw [h.cfg]) fun _ h => waitThenRestart_does old (fun cfg => old ||| extclkMask cfg ||| restartMask cfg) h

/-- The transmission of one channel's window, of which R179 makes one burst or one each. -/
def channelBytes (s : State) (p : Fin 16 × Nat) : List Byte := windowBytes s.cfg.swappedRegs (phaseWindow s.cfg s.pb p.1 p.2)

theorem writeChannel_does (ch : Fin 16) (amt : Nat) (h : SameHandle s₀ s) :
    (writeChannel ch amt s).Does s₀ (burstPlan s₀.addr (ledBase ch :: channelBytes s₀ (ch, amt))) s := by
  rw [writeChannel, channelWindow, h.cfg, h.pb]
  exact writeWindow_does h

theorem writeChannels_does (run : List (Fin 16 × Nat)) (h : SameHandle s₀ s) :
    (writeChannels run s).Does s₀ (run.flatMap fun p => burstPlan s₀.addr (ledBase p.1 :: channelBytes s₀ p)) s := by
  induction run generalizing s with
  | nil => exact .done () h
  | cons p run ih =>
    rw [List.flatMap_cons]
    exact (writeChannel_does p.1 p.2 h).andThen (burstPlan_ne_nil _ _) fun _ _ _ h => ih h

theorem chspwmBody_acts (first : Byte) (run : List (Fin 16 × Nat)) (s : State) :
    (chspwmBody first run s).Acts
      (if run = [] then []
      else if 1 + 4 * run.length ≤ s.cfg.txBufferBytes then
        burstPlan s.addr (ledBase (channelOf first) :: run.flatMap (channelBytes s))
      else run.flatMap fun p => burstPlan s.addr (ledBase p.1 :: channelBytes s p)) s := by
  simp only [chspwmBody, List.length_eq_zero_iff]
  exact (Bus.Does.ite (.done () (.refl s)) ((memWrite_does (.refl s)).ite (writeChannels_does run (.refl s)))).toActs

end Sys2Proof.Machine
end

section
/-! SUPPORT. O10 and O11: every command does its plan, and completes or holds the PBE. -/

namespace Sys2Proof.Machine

open Claims (atFirstPrimitive firstAddr)

variable {α : Type} {i : Instr} {s t : State} {plan : List Held} {answers : List Byte} {later : List (Option Byte)}

/-! ## INIT's first primitive finds the handle bound, and nothing else changed -/

@[simp] theorem atFirstPrimitive_trace (i : Instr) (s : State) : (atFirstPrimitive i s).trace = s.trace := by cases i <;> rfl
@[simp] theorem atFirstPrimitive_stall (i : Instr) (s : State) : (atFirstPrimitive i s).stall = s.stall := by cases i <;> rfl
@[simp] theorem atFirstPrimitive_resetIn (i : Instr) (s : State) : (atFirstPrimitive i s).resetIn = s.resetIn := by cases i <;> rfl
@[simp] theorem atFirstPrimitive_env (i : Instr) (s : State) : (atFirstPrimitive i s).env = s.env := by cases i <;> rfl
@[simp] theorem atFirstPrimitive_draws (i : Instr) (s : State) : (atFirstPrimitive i s).draws = s.draws := by cases i <;> rfl
@[simp] theorem atFirstPrimitive_bus (i : Instr) (s : State) : (atFirstPrimitive i s).bus = s.bus := by cases i <;> rfl

theorem atFirstPrimitive_noStall (i : Instr) (s : State) : (atFirstPrimitive i s).NoStall ↔ s.NoStall := by
  simp [State.NoStall]

theorem Scripted.atFirstPrimitive (h : Scripted answers later s) (i : Instr) :
    Scripted answers later (atFirstPrimitive i s) :=
  ⟨by simpa using h.env, h.uncut.of_eq (by simp)⟩

/-! ## Every command does its plan -/

/-- A command is a bus operation that does its plan, from where it issues its first primitive. -/
def DoesItsPlan (i : Instr) (s : State) : Prop :=
  ∃ x : Bus Unit, exec i s = x.finish ∧ x.ActsByRead (busPlan i s) (atFirstPrimitive i s)

/-- Every command ends in some next state (R215). -/
theorem exec_next (i : Instr) (s : State) : ∃ t, exec i s = .next t := by
  rcases instr_kinds i with hi | ⟨off, mode, rfl⟩ | hi
  · obtain ⟨t, ht, -⟩ := exec_ends i s hi
    exact ⟨t, ht⟩
  · obtain ⟨t, ht, -⟩ := execInit_ends off mode s
    exact ⟨t, ht⟩
  · obtain ⟨t, ht, -⟩ := exec_local_ends i s hi
    exact ⟨t, ht⟩

theorem busPlan_of_misuse (h : misuseOf i s ≠ none) (old : Byte) : busPlan i s old = [] := by
  simp only [busPlan, if_pos h]

theorem busPlan_of_local (h : issuesTxEnd i = false) (old : Byte) : busPlan i s old = [] := by
  by_cases hm : misuseOf i s = none
  · cases i with
    | initpx | getaddr | getpb | geterr | phasewin | evcfg2 | evcfg3 | angpwm => simp [busPlan, hm]
    | _ => cases h
  · exact busPlan_of_misuse hm old

theorem raiseMisuse_complete (s : State) (reason : MisuseReason) (draws : Bool) :
    (s.raiseMisuse reason draws).complete = s.raiseMisuse reason draws := by cases draws <;> rfl

theorem draws_le_raiseMisuse (s : State) (reason : MisuseReason) (draws : Bool) :
    s.draws ≤ (s.raiseMisuse reason draws).draws := by
  cases draws
  · exact Nat.le_refl _
  · exact Nat.le_succ _

/-- A Misuse sends nothing (R223). -/
theorem doesItsPlan_of_misuse {reason : MisuseReason} (h : misuseOf i s = some reason) : DoesItsPlan i s := by
  obtain ⟨t, ht⟩ := exec_next i s
  rcases exec_outcome ht with ⟨reason', -, rfl⟩ | ⟨hnone, -⟩ | ⟨-, -, hnone, -⟩
  · refine ⟨.done () (s.raiseMisuse reason' (misuseDraws i reason')), by rw [ht, Bus.finish_done, raiseMisuse_complete],
      fun old _ => ?_⟩
    rw [busPlan_of_misuse (by simp [h])]
    exact .quiet (by simp) (by simp) (by simp) (by simp) (by simpa using draws_le_raiseMisuse s _ _) (by simp)
  · rw [h] at hnone; cases hnone
  · rw [h] at hnone; cases hnone

/-- A command without bus traffic sends nothing. -/
theorem doesItsPlan_of_local (h : issuesTxEnd i = false) (hnone : misuseOf i s = none) : DoesItsPlan i s := by
  obtain ⟨t, ht, ⟨reason, hr, -⟩ | ⟨-, hf⟩⟩ := exec_local_ends i s h
  · rw [hnone] at hr; cases hr
  · have hcomplete : t.complete = t := by rw [hf.rest]; rfl
    refine ⟨.done () t, by rw [ht, Bus.finish_done, hcomplete], fun old _ => ?_⟩
    rw [busPlan_of_local h, hf.rest]
    exact .quiet (by simp) (by simp) (by simp) (by simp) (by simp) (by simp)

theorem bound_of_no_misuse (ha : addressesHandle i = true) (h : misuseOf i s = none) : s.bound = true := by
  rw [misuseOf_addresses ha, handleMisuse] at h
  cases hb : s.bound
  · simp [hb] at h
  · rfl

theorem direct_of_no_misuse (hr : readDependent i = true) (h : misuseOf i s = none) : s.proxy = false := by
  rw [misuseOf_onDirect hr] at h
  split_ifs at h with hb hp
  simpa using hp

theorem atFirstPrimitive_of_addresses (h : addressesHandle i = true) (s : State) : atFirstPrimitive i s = s := by
  cases i with
  | init => cases h
  | _ => rfl

theorem Bus.ActsByRead.of_eq {x : Bus α} {plan plan' : Byte → List Held} (h : x.ActsByRead plan s)
    (he : ∀ old, plan' old = plan old) : x.ActsByRead plan' s := fun old hold => he old ▸ h old hold

/-- A command that only writes, past its guard. -/
theorem doesItsPlan_onHandle {body : State → Bus Unit} (hnone : misuseOf i s = none) (he : exec i s = onHandle false s body)
    (ha : addressesHandle i = true) (hacts : (body s).Acts plan s) (hplan : ∀ old, busPlan i s old = plan) :
    DoesItsPlan i s := by
  refine ⟨body s, by rw [he, onHandle_bound _ _ (bound_of_no_misuse ha hnone)], ?_⟩
  rw [atFirstPrimitive_of_addresses ha]
  exact hacts.byRead.of_eq hplan

/-- A read-dependent command, past its guards. -/
theorem doesItsPlan_onDirect {vr : Bool} {body : State → Bus Unit} {plan : Byte → List Held} (hnone : misuseOf i s = none)
    (he : exec i s = onDirect vr s body) (hr : readDependent i = true) (hacts : (body s).ActsByRead plan s)
    (hplan : ∀ old, busPlan i s old = plan old) : DoesItsPlan i s := by
  have ha : addressesHandle i = true := by simp [addressesHandle, hr]
  refine ⟨body s, by rw [he, onDirect_direct _ _ (bound_of_no_misuse ha hnone) (direct_of_no_misuse hr hnone)], ?_⟩
  rw [atFirstPrimitive_of_addresses ha]
  exact hacts.of_eq hplan

theorem execSwrst_past_guard (h : misuseOf .swrst s = none) : exec .swrst s = (swrstBody s).finish := by
  have hn : ¬ (s.srstDone = true ∨ s.bound = true) := fun hc => by simp [misuseOf, hc] at h
  show execSwrst s = _
  rw [execSwrst, if_neg hn]

theorem exec_doesItsPlan (i : Instr) (s : State) : DoesItsPlan i s := by
  cases hm : misuseOf i s with
  | some reason => exact doesItsPlan_of_misuse hm
  | none =>
    cases hl : issuesTxEnd i with
    | false => exact doesItsPlan_of_local hl hm
    | true =>
      have plan {e : List Held} : (if misuseOf i s ≠ none then [] else e) = e := if_neg (by simp [hm])
      cases i with
      | wrreg reg v8 => exact doesItsPlan_onHandle hm rfl rfl (writeReg_does (.refl s) rfl).toActs fun _ => plan
      | chon ch => exact doesItsPlan_onHandle hm rfl rfl (writeWindow_does (.refl s)).toActs fun _ => plan
      | choff ch => exact doesItsPlan_onHandle hm rfl rfl (writeWindow_does (.refl s)).toActs fun _ => plan
      | chpwm ch amt => exact doesItsPlan_onHandle hm rfl rfl (writeChannel_does _ _ (.refl s)).toActs fun _ => plan
      | chspwm first amts => exact doesItsPlan_onHandle hm rfl rfl (chspwmBody_acts _ _ s) fun _ => plan
      | allpwm amt => exact doesItsPlan_onHandle hm rfl rfl (writeWindow_does (.refl s)).toActs fun _ => plan
      | rdreg reg => exact doesItsPlan_onDirect hm rfl rfl (rdregBody_acts reg s).byRead fun _ => plan
      | getchpwm ch => exact doesItsPlan_onDirect hm rfl rfl (getchpwmBody_acts _ s).byRead fun _ => plan
      | setfreq hz => exact doesItsPlan_onDirect hm rfl rfl (setfreqBody_acts hz s) fun _ => plan
      | enextclk => exact doesItsPlan_onDirect hm rfl rfl (enextclkBody_acts s) fun _ => plan
      | enallc ab | ensub1 ab | ensub2 ab | ensub3 ab =>
        exact doesItsPlan_onDirect hm rfl rfl (enableBody_acts _ _ _ s) fun _ => plan
      | disallc | dissub1 | dissub2 | dissub3 => exact doesItsPlan_onDirect hm rfl rfl (disableBody_acts _ s) fun _ => plan
      | swrst => exact ⟨_, execSwrst_past_guard hm, (swrstBody_acts s).byRead.of_eq fun _ => plan⟩
      | init off mode => exact ⟨_, rfl, (initBody_acts mode (s.bindDirect off)).byRead.of_eq fun _ => plan⟩
      | _ => cases hl

/-! ## The two ends of a command -/

/-- What a completed command leaves, by its plan: the reset input counted down by its length, and the rest of an oracle's script. -/
structure CompletedByPlan (i : Instr) (s t : State) (evs : List BusEvent) : Prop where
  ready : t.stall = none ∧ t.busy = false ∧ t.bus = .idle
  reset : ∀ old, ReadsFirst evs old →
    (∀ k, s.resetIn = .inAction k → (busPlan i s old).length ≤ k) ∧
      ∀ k, t.resetIn = .inAction k ↔ s.resetIn = .inAction (k + (busPlan i s old).length)
  script : ∀ answers later, Scripted answers later s → (primitives evs).length ≤ answers.length ∧
    t.env = .oracle ((answers.drop (primitives evs).length).map some ++ none :: later)

/-- How a command comes to be held: a reset came in its action, or the environment does not answer its primitive. -/
structure HeldByPlan (s t : State) (evs : List BusEvent) : Prop where
  busy : t.busy = true
  stall : t.stall ≠ none
  cause : (s.resetIn = .inAction evs.length ∧ t.resetIn = .now) ∨ ((∃ h p, t.stall = some h ∧ h.action = .prim p) ∧ ¬ s.NoStall)
  script : ∀ answers later, Scripted answers later s → (primitives evs).length = answers.length ∧ t.env = .oracle later

/-- The history fixes the entries a command added. -/
theorem entries_unique {evs evs' : List BusEvent} (htrace : t.trace = s.trace ++ evs)
    (h : t.trace = (atFirstPrimitive i s).trace ++ evs') : evs' = evs := by
  rw [atFirstPrimitive_trace] at h
  exact List.append_cancel_left (h.symm.trans htrace)

/-- A command that ran to its end has done its whole plan, for the byte it read first. -/
theorem completed_by_plan {v : Unit} {u : State} {evs : List BusEvent} (hstall : s.stall = none)
    (htrace : u.trace = s.trace ++ evs)
    (hacts : ∀ old, ReadsFirst evs old → (Bus.done v u).Acts (busPlan i s old) (atFirstPrimitive i s)) :
    FollowsPlan i s u.complete evs ∧ (s.bus = .idle → ByTheBusTable u.complete evs) ∧ CompletedByPlan i s u.complete evs := by
  obtain ⟨old₀, hold₀⟩ := exists_readsFirst evs
  obtain ⟨evs', ht, -, hstall', -, -, -, hbus⟩ := (hacts old₀ hold₀).plays
  obtain rfl := entries_unique htrace ht
  rw [atFirstPrimitive_stall, hstall] at hstall'
  rw [atFirstPrimitive_bus] at hbus
  refine ⟨⟨htrace, fun old hold => ?_⟩, fun hidle => ⟨(hbus hidle).1, fun h p hs => ?_⟩,
    ⟨hstall', rfl, rfl⟩, fun old hold => ?_, fun answers later hs => ?_⟩
  · obtain ⟨evs'', ht', ha, -⟩ := (hacts old hold).plays
    obtain rfl := entries_unique htrace ht'
    have hlen : evs''.length = (busPlan i s old).length := by simpa using congrArg List.length ha
    rw [hlen, List.take_length, List.getElem?_eq_none (Nat.le_refl _)]
    exact ⟨ha, hstall'⟩
  · rw [State.complete_stall, hstall'] at hs
    cases hs
  · obtain ⟨_, -, -, -, -, hle, hcount, -⟩ := (hacts old hold).plays
    rw [atFirstPrimitive_resetIn] at hle hcount
    exact ⟨hle, hcount⟩
  · obtain ⟨used, rest, evs'', rfl, hused, ht', hrest⟩ := (hacts old₀ hold₀).follows answers later (hs.atFirstPrimitive i)
    obtain rfl := entries_unique htrace ht'
    rw [hused, List.drop_left]
    exact ⟨by simp, hrest.env⟩

/-- A held command stands in the action of its plan that the recorded ones precede. -/
theorem held_by_plan {u : State} {evs : List BusEvent} (htrace : u.trace = s.trace ++ evs)
    (hacts : ∀ old, ReadsFirst evs old → (Bus.hung u : Bus Unit).Acts (busPlan i s old) (atFirstPrimitive i s)) :
    FollowsPlan i s u evs ∧ (s.bus = .idle → ByTheBusTable u evs) ∧ HeldByPlan s u evs := by
  obtain ⟨old₀, hold₀⟩ := exists_readsFirst evs
  obtain ⟨evs', h, ht, -, -, hstall, hcause, hbus⟩ := (hacts old₀ hold₀).plays
  obtain rfl := entries_unique htrace ht
  rw [atFirstPrimitive_resetIn, atFirstPrimitive_noStall] at hcause
  rw [atFirstPrimitive_bus] at hbus
  refine ⟨⟨htrace, fun old hold => ?_⟩, fun hidle => ⟨(hbus hidle).1, fun h' p hs hp => ?_⟩,
    (hacts old₀ hold₀).busy u rfl, by simp [hstall], hcause.imp_right fun ⟨⟨p, hp⟩, hn⟩ => ⟨⟨h, p, hstall, hp⟩, hn⟩,
    fun answers later hs => ?_⟩
  · obtain ⟨evs'', h', ht', ha, hp, hstall', -⟩ := (hacts old hold).plays
    obtain rfl := entries_unique htrace ht'
    exact ⟨ha, hstall'.trans hp.symm⟩
  · obtain rfl : h = h' := Option.some.inj (hstall.symm.trans hs)
    exact (hbus hidle).2 p hp
  · obtain ⟨evs'', hn, ht', henv⟩ := (hacts old₀ hold₀).follows answers later (hs.atFirstPrimitive i)
    obtain rfl := entries_unique htrace ht'
    exact ⟨hn, henv⟩

/-- Every command does its plan's actions in order, and completes or is held. -/
theorem exec_ends_by_plan (i : Instr) (hstall : s.stall = none) :
    ∃ t evs, exec i s = .next t ∧ FollowsPlan i s t evs ∧ (s.bus = .idle → ByTheBusTable t evs) ∧
      (CompletedByPlan i s t evs ∨ HeldByPlan s t evs) := by
  obtain ⟨x, hx, hacts⟩ := exec_doesItsPlan i s
  obtain ⟨old₀, hold₀⟩ := exists_readsFirst (x.entries (atFirstPrimitive i s))
  have htrace := (hacts old₀ hold₀).plays.trace
  rw [atFirstPrimitive_trace] at htrace
  cases x with
  | done v u =>
    obtain ⟨hplan, htable, hend⟩ := completed_by_plan hstall htrace hacts
    exact ⟨u.complete, _, hx, hplan, htable, .inl hend⟩
  | hung u =>
    obtain ⟨hplan, htable, hend⟩ := held_by_plan htrace hacts
    exact ⟨u, _, hx, hplan, htable, .inr hend⟩

/-! ## A command that a reset is to come in -/

/-- A command that completes leaves a reset that counts down still counting. -/
theorem CompletedByPlan.resetIn_ne_now {evs : List BusEvent} {k : Nat} (h : CompletedByPlan i s t evs) (hr : s.resetIn = .inAction k) :
    t.resetIn ≠ .now := by
  obtain ⟨old, hold⟩ := exists_readsFirst evs
  obtain ⟨hle, hcount⟩ := h.reset old hold
  have : t.resetIn = .inAction (k - (busPlan i s old).length) := by rw [hcount, hr, Nat.sub_add_cancel (hle k hr)]
  simp [this]

theorem resetComesInAction (hstall : s.stall = none) (hns : s.NoStall) {k : Nat} (hr : s.resetIn = .inAction k) :
    Claims.ResetComesInAction i s k := by
  obtain ⟨t, evs, ht, hplan, -, hend⟩ := exec_ends_by_plan i hstall
  refine ⟨t, evs, ht, hplan, fun old hold => ?_⟩
  rcases hend with hc | hh
  · obtain ⟨hle, hcount⟩ := hc.reset old hold
    have hk := hle k hr
    rw [if_neg (by omega)]
    exact ⟨hc.ready.1, hc.ready.2.1, by rw [hcount, hr, Nat.sub_add_cancel hk]⟩
  · obtain ⟨hk, hnow⟩ : s.resetIn = .inAction evs.length ∧ t.resetIn = .now := by
      rcases hh.cause with h | ⟨-, hn⟩
      · exact h
      · exact absurd hns hn
    obtain rfl : evs.length = k := by rw [hk] at hr; cases hr; rfl
    have hnext := (hplan.plan old hold).2
    have hlt : evs.length < (busPlan i s old).length := by
      by_contra hge
      rw [List.getElem?_eq_none (by omega)] at hnext
      exact hh.stall hnext
    rw [if_pos hlt]
    exact ⟨rfl, hnext, hh.busy, hnow⟩

/-- Inside a command BUSY = 1, and BUSSTATE is the table's. -/
theorem inside_frame (h : s.Inside t) :
    t.busy = true ∧ ∃ evs, t.trace = s.trace ++ evs ∧ (s.bus = .idle → ByTheBusTable t evs) := by
  rcases h with hacc | ⟨k, ht, hnow⟩
  · obtain ⟨hframe, hstall⟩ := accepted_frame hacc
    rw [hframe]
    refine ⟨rfl, [], by simp, fun hidle => ⟨by rw [← hidle]; rfl, fun h p hs => ?_⟩⟩
    cases hstall.symm.trans hs
  · have hr : (s.assertResetIn k).resetIn = .inAction k := rfl
    rcases step_cases (by rw [hr]; simp) ht with rfl | ⟨-, -, rfl⟩ | ⟨-, why, len, -, rfl⟩ | ⟨hb, i, len, -, he⟩
    · rw [hr] at hnow; cases hnow
    · rw [State.awaitWords_resetIn, hr] at hnow; cases hnow
    · rw [State.raiseMisuse_resetIn, State.accept_resetIn, hr] at hnow; cases hnow
    · have hstall : s.stall = none := stall_of_not_blocked (s := s.assertResetIn k) hb
      obtain ⟨t', evs, ht', hplan, htable, hend⟩ := exec_ends_by_plan i (s := (s.assertResetIn k).accept len) hstall
      obtain rfl : t' = t := by rw [ht'] at he; cases he; rfl
      rcases hend with hc | hh
      · exact absurd hnow (hc.resetIn_ne_now hr)
      · exact ⟨hh.busy, evs, hplan.trace, htable⟩

/-! ## A command whose environment does not answer -/

theorem stopsAtTheUnanswered (hstall : s.stall = none) (hs : Scripted answers later s) :
    Claims.StopsAtTheUnanswered i s answers later := by
  obtain ⟨t, evs, ht, hplan, htable, hend⟩ := exec_ends_by_plan i hstall
  refine ⟨t, evs, ht, hplan, htable, ?_⟩
  rcases hend with hc | hh
  · obtain ⟨hlen, henv⟩ := hc.script answers later hs
    exact .inl ⟨hc.ready.1, hc.ready.2.1, hlen, henv⟩
  · obtain ⟨hlen, henv⟩ := hh.script answers later hs
    refine .inr ⟨hh.busy, hlen, henv, ?_⟩
    rcases hh.cause with ⟨hk, -⟩ | ⟨hp, -⟩
    · exact absurd hk (hs.uncut _)
    · exact hp

/-- A transmission whose TxBegin is not answered is held there. -/
theorem transmit_unanswered (a : BusAddr) (bytes : List Byte) (henv : s.env = .oracle (none :: later)) (hu : s.Uncut) :
    transmit a bytes s = .hung { s with
      busy := true, env := .oracle later, stall := some ⟨.prim (.txBegin a), some (a, bytes)⟩ } := by
  have hask : issue (.txBegin a) s = .hung ({ s with env := .oracle later }.heldIn (.prim (.txBegin a))) := by
    rw [issue, startAction_uncut _ _ hu, ask, henv]
    rfl
  rw [transmit, txBegin, hask]
  rfl

theorem channelRun_ne_nil (first : Byte) {amts : List Half} (h : amts ≠ []) : channelRun first amts ≠ [] := by
  have hlt := (channelOf first).isLt
  have hlen := List.length_pos_iff.mpr h
  rw [← List.length_pos_iff, channelRun, List.length_zip, List.length_drop, List.length_finRange, List.length_map]
  omega

/-- The plan of a command that uses the bus begins with a transmission, the same whatever byte is read. -/
theorem busPlan_begins (htx : issuesTxEnd i = true) (hm : misuseOf i s = none) (hne : ∀ first, i ≠ .chspwm first []) :
    ∃ bytes, ∀ old, burstPlan (firstAddr i s) bytes <+: busPlan i s old := by
  have begins {old : Byte} {burst e : List Held} (hdef : busPlan i s old = if misuseOf i s ≠ none then [] else e)
      (he : burst <+: e) : burst <+: busPlan i s old := by
    rw [hdef, if_neg (by simp [hm])]
    exact he
  cases i with
  | wrreg | chon | choff | chpwm | allpwm | swrst => exact ⟨_, fun _ => begins rfl List.prefix_rfl⟩
  | init | rdreg => exact ⟨_, fun _ => begins rfl (List.prefix_append _ _)⟩
  | setfreq | enallc | ensub1 | ensub2 | ensub3 | disallc | dissub1 | dissub2 | dissub3 | enextclk | getchpwm =>
    exact ⟨_, fun _ => begins rfl (by simp only [readPlan, List.append_assoc]; exact List.prefix_append _ _)⟩
  | chspwm first amts =>
    have hrun : channelRun first amts ≠ [] := channelRun_ne_nil first fun h => hne first (h ▸ rfl)
    by_cases hbuf : 1 + 4 * (channelRun first amts).length ≤ s.cfg.txBufferBytes
    · exact ⟨ledBase (channelOf first) :: (channelRun first amts).flatMap (channelBytes s), fun _ =>
        begins rfl (by simp only [if_neg hrun, if_pos hbuf]; exact List.prefix_rfl)⟩
    · obtain ⟨p, run, hcons⟩ := List.exists_cons_of_ne_nil hrun
      refine ⟨ledBase p.1 :: channelBytes s p, fun _ => begins rfl ?_⟩
      simp only [if_neg hrun, if_neg hbuf]
      rw [hcons, List.flatMap_cons]
      exact List.prefix_append _ _
  | _ => cases htx

/-- A command whose first primitive is not answered is held in it, with nothing recorded (R226). -/
theorem exec_firstUnanswered (hu : s.Uncut) (henv : s.env = .oracle (none :: later)) {bytes : List Byte}
    (hplan : ∀ old, burstPlan (firstAddr i s) bytes <+: busPlan i s old) :
    exec i s = .next { atFirstPrimitive i s with
      busy := true, env := .oracle later
      stall := some ⟨.prim (.txBegin (firstAddr i s)), some (firstAddr i s, bytes)⟩ } := by
  obtain ⟨x, hx, hacts⟩ := exec_doesItsPlan i s
  obtain ⟨old, hold⟩ := exists_readsFirst (x.entries (atFirstPrimitive i s))
  obtain ⟨rest, hrest⟩ := hplan old
  have hheld := transmit_unanswered (firstAddr i s) bytes (s := atFirstPrimitive i s) (by simpa using henv) (hu.of_eq (by simp))
  rw [hx, (hacts old hold).opens _ bytes (by rw [← hrest]; rfl) _ hheld, Bus.finish_hung]

end Sys2Proof.Machine

namespace Sys2Proof

open Machine

/-- Settles O11: a command's two ends, the end a reset brings, and the states inside a command. -/
theorem everyCommandCompletesOrHolds : Obligations.EveryCommandCompletesOrHolds := by
  refine ⟨fun i s hstall => ?_, fun i s k hstall hns hr => resetComesInAction hstall hns hr, fun s t hin => ?_⟩
  · obtain ⟨t, evs, ht, hplan, htable, hc | hh⟩ := exec_ends_by_plan i hstall
    · exact ⟨t, evs, ht, hplan, htable, .inl hc.ready⟩
    · exact ⟨t, evs, ht, hplan, htable, .inr ⟨hh.stall, hh.busy⟩⟩
  · obtain ⟨hbusy, hevs⟩ := inside_frame hin
    exact ⟨hbusy, t.status_busy.trans hbusy, (State.hostReadsStatus_of_busy hbusy).1, hevs⟩

/-- Settles O10: the plan begins with a transmission, held at once; with some answers the command ends by its plan. -/
theorem unansweredPrimitiveHoldsThePbe : Obligations.UnansweredPrimitiveHoldsThePbe := by
  refine fun i s later hstall hu => ⟨fun htx hm hne henv => ?_, fun answers henv => stopsAtTheUnanswered hstall ⟨henv, hu⟩⟩
  obtain ⟨bytes, hplan⟩ := busPlan_begins htx hm hne
  refine ⟨bytes, fun old => ?_, exec_firstUnanswered hu henv hplan⟩
  obtain ⟨rest, hrest⟩ := hplan old
  rw [← hrest]
  exact ⟨rfl, List.take_left' (by simp [burstPlan, sends]; omega)⟩

end Sys2Proof
end

section
/-! SUPPORT. O42: the two bytes of a register pair in either byte order, and the value rebuilt from them (R57, R187). -/

namespace Sys2Proof.Machine

theorem loByte_eq_ofNat (v : Boundary) : loByte v = BitVec.ofNat 8 (v.toNat % 256) := by
  apply BitVec.eq_of_toNat_eq
  simp [loByte]

theorem toNat_hiByte (v : Boundary) : (hiByte v).toNat = v.toNat / 256 := by
  have := v.isLt
  rw [hiByte, BitVec.toNat_append, BitVec.extractLsb'_toNat]
  simp [Nat.shiftRight_eq_div_pow]
  omega

theorem hiByte_eq_ofNat (v : Boundary) : hiByte v = BitVec.ofNat 8 (v.toNat / 256) := by
  have := v.isLt
  apply BitVec.eq_of_toNat_eq
  rw [toNat_hiByte, BitVec.toNat_ofNat]
  omega

/-- The three bits above the high byte's five are 0 (R57). -/
theorem hiByte_and_high (v : Boundary) : hiByte v &&& 0xE0 = 0 := by
  show ((0 : BitVec 3) ++ v.extractLsb' 8 5) &&& ((7 : BitVec 3) ++ (0 : BitVec 5)) = 0
  rw [BitVec.and_append]
  simp

/-- The five bits of a high byte above a low byte. -/
theorem toNat_low5_append (hi lo : Byte) : (hi.extractLsb' 0 5 ++ lo : Boundary).toNat = hi.toNat % 32 * 256 + lo.toNat := by
  have := lo.isLt
  rw [BitVec.toNat_append, BitVec.extractLsb'_toNat, ← Nat.shiftLeft_add_eq_or_of_lt this]
  simp [Nat.shiftLeft_eq]

/-- The value of a pair takes nothing from bits 7:5 of the high byte (R187). -/
theorem low5_or_high (hi junk : Byte) : (hi ||| junk &&& 0xE0).extractLsb' 0 5 = hi.extractLsb' 0 5 := by
  rw [BitVec.extractLsb'_or, BitVec.extractLsb'_and]
  simp

theorem low5_append_pair (v : Boundary) : ((hiByte v).extractLsb' 0 5 ++ loByte v : Boundary) = v := by
  have := v.isLt
  apply BitVec.eq_of_toNat_eq
  rw [toNat_low5_append, toNat_hiByte, loByte_eq_ofNat, BitVec.toNat_ofNat]
  omega

end Sys2Proof.Machine

namespace Sys2Proof

open Machine

/-- Settles O42: both byte orders name the same two bytes, and the value is the high byte's five bits above the low byte. -/
theorem pairBytesRoundTrip : Obligations.PairBytesRoundTrip := by
  refine ⟨fun v => ?_, fun lo hi junk => ?_⟩
  · simp only [← loByte_eq_ofNat, ← hiByte_eq_ofNat]
    exact ⟨rfl, rfl, hiByte_and_high v, low5_append_pair v, low5_append_pair v⟩
  · have hjunk := low5_or_high hi junk
    exact ⟨toNat_low5_append hi lo, toNat_low5_append hi lo, congrArg (· ++ lo) hjunk, congrArg (· ++ lo) hjunk⟩

end Sys2Proof
end
section
/-! SUPPORT. O26: the Misuse a command's guards raise, and the enable commands' sequence on the bus (R128). -/

namespace Sys2Proof.Machine

open Claims

variable {s : State} {i : Instr}

/-- The Misuse that the guards of R222 name is what the command does. -/
theorem misuses_of_misuseOf {reason : MisuseReason} (h : misuseOf i s = some reason) : Misuses i s reason := by
  obtain ⟨t, ht⟩ := exec_next i s
  rcases exec_outcome ht with ⟨reason', hr, rfl⟩ | ⟨hnone, -⟩ | ⟨-, -, hnone, -⟩
  · obtain rfl : reason = reason' := Option.some.inj (h.symm.trans hr)
    exact ⟨_, ht, raiseMisuse_run s reason _⟩
  · rw [h] at hnone; cases hnone
  · rw [h] at hnone; cases hnone

theorem readGuards_of_readDependent (h : readDependent i = true) (s : State) : ReadGuards i s where
  left hb := misuses_of_misuseOf (by rw [misuseOf_onDirect h, if_pos hb])
  right hb hp := misuses_of_misuseOf (by rw [misuseOf_onDirect h, if_neg (by simp [hb]), if_pos hp])

/-- A read-dependent command on a direct handle reads MODE1 first when its body does. -/
theorem readsMode1Then_onDirect {vr : Bool} {body : State → Bus Unit} {actions : Byte → List Action}
    (he : exec i s = onDirect vr s body) (hb : s.bound = true) (hp : s.proxy = false)
    (hbody : s.RunsThrough → ∃ t evs old, body s = .done () t ∧ BusSpan s t evs ∧ bytesRead evs = [old] ∧
      evs.map BusEvent.action = reads s.addr 0x00 ++ actions old) : ReadsMode1Then i s actions := by
  intro hrun
  obtain ⟨t, evs, old, ht, hspan, hread, hacts⟩ := hbody hrun
  exact ⟨t.complete, evs, old, by rw [he, onDirect_direct _ _ hb hp, ht, Bus.finish_done], hspan.finish, hread, hacts⟩

theorem BusSpan.addr {t : State} {evs : List BusEvent} (h : BusSpan s t evs) : t.addr = s.addr := by rw [h.rest]

/-- The enable sequence: MODE1 read, MODE1 with the bit set, then the address register (R128). -/
theorem enableBody_runs (bit reg value : Byte) (h : s.RunsThrough) :
    ∃ t evs old, enableBody bit reg value s = .done () t ∧ BusSpan s t evs ∧ bytesRead evs = [old] ∧
      evs.map BusEvent.action =
        reads s.addr 0x00 ++ (sends s.addr [0x00, old ||| bit] ++ sends s.addr [reg, value]) := by
  obtain ⟨old, t₁, e₁, h₁, hs₁, ha₁, hb₁⟩ := readReg_runs regMode1 h
  obtain ⟨t₂, e₂, h₂, hs₂, ha₂, hb₂⟩ := writeReg_runs regMode1 (old ||| bit) hs₁.runsOn
  obtain ⟨t₃, e₃, h₃, hs₃, ha₃, hb₃⟩ := writeReg_runs reg value hs₂.runsOn
  rw [hs₁.addr] at ha₂
  rw [hs₂.addr, hs₁.addr] at ha₃
  refine ⟨t₃, e₁ ++ (e₂ ++ e₃), old, ?_, hs₁.trans (hs₂.trans hs₃), ?_, ?_⟩
  · rw [enableBody, h₁, Bus.andThen_done, h₂, Bus.andThen_done, h₃]
  · simp [hb₁, hb₂, hb₃]
  · simp only [List.map_append, ha₁, ha₂, ha₃]
    rfl

theorem readsMode1Then_enable {bit reg value : Byte} (he : exec i s = enableAddr bit reg value s) (hb : s.bound = true)
    (hp : s.proxy = false) :
    ReadsMode1Then i s fun old => sends s.addr [0x00, old ||| bit] ++ sends s.addr [reg, value] :=
  readsMode1Then_onDirect he hb hp (enableBody_runs bit reg value)

end Sys2Proof.Machine

namespace Sys2Proof

open Machine

/-- Settles O26: each of the four commands is the enable sequence with its own bit, register and value. -/
theorem enableCommandsSetBitThenAddress : Obligations.EnableCommandsSetBitThenAddress := by
  intro ab s i bit reg value hmem
  simp only [List.mem_cons, Prod.mk.injEq, List.not_mem_nil, or_false] at hmem
  rcases hmem with ⟨rfl, rfl, rfl, rfl⟩ | ⟨rfl, rfl, rfl, rfl⟩ | ⟨rfl, rfl, rfl, rfl⟩ | ⟨rfl, rfl, rfl, rfl⟩
  all_goals exact ⟨readGuards_of_readDependent rfl s, readsMode1Then_enable rfl⟩

end Sys2Proof
end

section
/-! SUPPORT. What a register of the peer reads after stores (R59), and which registers a list of cells names. -/

namespace Sys2Proof.Machine

/-- A register of the peer whose known bytes are `m`. -/
def Memory.reg (m : Memory) (a : Byte) : Byte := (Memory.read m a.toNat).getD (Config.unknownReg a.toNat)

theorem Responder.reg_eq (r : Responder) (a : Byte) : r.reg a = r.regs.reg a := rfl

theorem Memory.reg_write (m : Memory) (a v b : Byte) :
    Memory.reg (Memory.write m a.toNat v) b = if b = a then v else m.reg b := by
  by_cases h : b = a
  · subst h
    simp [Memory.reg, Memory.read_write_same]
  · have hn : b.toNat ≠ a.toNat := fun e => h (BitVec.eq_of_toNat_eq e)
    simp [Memory.reg, Memory.read_write_other _ _ _ _ hn, h]

theorem Memory.reg_storeRun_other (m : Memory) (base : Byte) (bytes : List Byte) (a : Byte)
    (h : ∀ j < bytes.length, a ≠ base + BitVec.ofNat 8 j) : Memory.reg (storeRun m base bytes) a = m.reg a := by
  rw [Memory.reg, read_storeRun_other m base bytes a h]
  rfl

/-- A run of stores that does not reach around to its start is read back byte by byte. -/
theorem Memory.reg_storeRun_get (m : Memory) (base : Byte) (bytes : List Byte) (hlen : bytes.length ≤ 256) (j : Nat)
    (hj : j < bytes.length) : Memory.reg (storeRun m base bytes) (base + BitVec.ofNat 8 j) = bytes[j] := by
  induction bytes generalizing m base j with
  | nil => simp at hj
  | cons b bs ih =>
    rw [List.length_cons] at hlen hj
    cases j with
    | zero =>
      have hout : ∀ k < bs.length, base ≠ base + 1 + BitVec.ofNat 8 k := fun k hk he => by
        rw [byte_add_succ] at he
        have hz : BitVec.ofNat 8 (k + 1) = 0 := by simpa using he
        have hval : (k + 1) % 256 = 0 := by simpa using congrArg BitVec.toNat hz
        omega
      simp only [BitVec.add_zero, storeRun, List.getElem_cons_zero]
      rw [Memory.reg_storeRun_other _ _ _ _ hout, Memory.reg_write, if_pos rfl]
    | succ j =>
      have := ih (Memory.write m base.toNat b) (base + 1) (by omega) j (by omega)
      rwa [byte_add_succ] at this

/-- From the registers `m₀` to `m` exactly the cells were stored: each reads as its byte, every other register as before. -/
def Memory.StoredCells (m₀ m : Memory) (cells : List (Byte × Byte)) : Prop :=
  (∀ c ∈ cells, m.reg c.1 = c.2) ∧ ∀ a, (∀ c ∈ cells, a ≠ c.1) → m.reg a = m₀.reg a

theorem Memory.storedCells_write (m : Memory) (a v : Byte) : m.StoredCells (Memory.write m a.toNat v) [(a, v)] := by
  constructor
  · simp [Memory.reg_write]
  · intro b hb
    rw [Memory.reg_write, if_neg (hb (a, v) (by simp))]

/-- Later writes to a register hide the earlier ones. -/
theorem Memory.StoredCells.rewrite {m₀ m : Memory} {a v v' : Byte} {cells : List (Byte × Byte)}
    (h : m₀.StoredCells m ((a, v) :: cells)) (hne : ∀ c ∈ cells, c.1 ≠ a) :
    m₀.StoredCells (Memory.write m a.toNat v') ((a, v') :: cells) := by
  obtain ⟨hin, hout⟩ := h
  refine ⟨fun c hc => ?_, fun b hb => ?_⟩
  · rw [Memory.reg_write]
    rcases List.mem_cons.mp hc with rfl | hc
    · simp
    · rw [if_neg (hne c hc)]
      exact hin c (by simp [hc])
  · rw [Memory.reg_write, if_neg (hb (a, v') (by simp))]
    refine hout b fun c hc => ?_
    rcases List.mem_cons.mp hc with rfl | hc
    · exact hb (a, v') (by simp)
    · exact hb c (by simp [hc])

theorem Memory.StoredCells.rewriteIf {m₀ m : Memory} {a v v' : Byte} {cells : List (Byte × Byte)} {c : Prop} [Decidable c]
    (h : m₀.StoredCells m ((a, v) :: cells)) (hne : ∀ c ∈ cells, c.1 ≠ a) :
    m₀.StoredCells (if c then Memory.write m a.toNat v' else m) ((a, if c then v' else v) :: cells) := by
  split
  · exact h.rewrite hne
  · exact h

/-- A write to a register that is no cell yet adds one. -/
theorem Memory.StoredCells.write {m₀ m : Memory} {a v b w : Byte} (h : m₀.StoredCells m [(a, v)]) (hne : a ≠ b) :
    m₀.StoredCells (Memory.write m b.toNat w) [(a, v), (b, w)] := by
  obtain ⟨hin, hout⟩ := h
  have ha : m.reg a = v := hin (a, v) (by simp)
  refine ⟨?_, fun c hc => ?_⟩
  · simp [Memory.reg_write, hne, ha]
  · have hca : c ≠ a := hc (a, v) (by simp)
    have hcb : c ≠ b := hc (b, w) (by simp)
    rw [Memory.reg_write, if_neg hcb]
    exact hout c (by simpa using hca)

@[simp] theorem length_pairBytes (swapped : Bool) (v : Boundary) : (pairBytes swapped v).length = 2 := by
  cases swapped <;> rfl

@[simp] theorem length_windowBytes (swapped : Bool) (w : Window) : (windowBytes swapped w).length = 4 := by
  simp [windowBytes]

/-- A window stored at a block's base address is the block's four cells (R166). -/
theorem Memory.storedCells_window (m : Memory) (swapped : Bool) (base : Byte) (w : Window) :
    m.StoredCells (storeRun m base (windowBytes swapped w)) (Claims.blockCells swapped base w) := by
  obtain ⟨b₀, b₁, b₂, b₃, hb⟩ : ∃ b₀ b₁ b₂ b₃, windowBytes swapped w = [b₀, b₁, b₂, b₃] := by
    cases swapped <;> exact ⟨_, _, _, _, rfl⟩
  have hcells : Claims.blockCells swapped base w = [(base, b₀), (base + 1, b₁), (base + 2, b₂), (base + 3, b₃)] := by
    rw [Claims.blockCells, hb]
    rfl
  have hget (j : Nat) (hj : j < 4) := Memory.reg_storeRun_get m base [b₀, b₁, b₂, b₃] (by simp) j hj
  rw [hb, hcells]
  constructor
  · have h0 := hget 0 (by omega)
    rw [BitVec.add_zero] at h0
    simp only [List.forall_mem_cons, List.not_mem_nil, false_implies, implies_true, and_true]
    exact ⟨h0, hget 1 (by omega), hget 2 (by omega), hget 3 (by omega)⟩
  · intro a ha
    refine Memory.reg_storeRun_other _ _ _ _ fun j hj => ?_
    simp only [List.forall_mem_cons, List.not_mem_nil, false_implies, implies_true, and_true] at ha
    obtain ⟨h0, h1, h2, h3⟩ := ha
    match j, hj with
    | 0, _ => rwa [BitVec.add_zero]
    | 1, _ => exact h1
    | 2, _ => exact h2
    | 3, _ => exact h3

end Sys2Proof.Machine
end

section
/-! SUPPORT. The register accesses against the responder at the handle's address (R59): what each leaves in the peer's
registers. -/

namespace Sys2Proof.Machine

variable {α β : Type} {s₀ s t : State} {m : Memory}

/-- A bus operation that runs to its end leaves `P`, and one that is held leaves `Q`. -/
def Bus.Leaves (P : α → State → Prop) (Q : State → Prop) : Bus α → Prop
  | .done v t => P v t
  | .hung t => Q t

theorem Bus.Leaves.andThen {P : α → State → Prop} {P' : β → State → Prop} {Q : State → Prop} {x : Bus α}
    {k : α → State → Bus β}
    (hx : x.Leaves P Q) (hk : ∀ v t, P v t → (k v t).Leaves P' Q) : (x.andThen k).Leaves P' Q := by
  cases x with
  | done v t => exact hk v t hx
  | hung t => exact hx

/-- A command that runs as a bus operation that is never held completes. -/
theorem Bus.Leaves.finish {P : Unit → State → Prop} {x : Bus Unit} (h : x.Leaves P fun _ => False) :
    ∃ v t, x.finish = .next t.complete ∧ P v t := by
  cases x with
  | done v t => exact ⟨v, t, rfl, h⟩
  | hung t => exact h.elim

/-- In `t` the handle is that of `s₀`, its chip is the reference responder with the registers `m`, and no reset comes inside a
command. -/
structure State.Serves (s₀ : State) (m : Memory) (t : State) : Prop where
  handle : SameHandle s₀ t
  peer : ∃ r, t.env = .responder r ∧ r.ra = s₀.addr ∧ r.regs = m
  uncut : t.Uncut

/-- A bus operation that runs to its end and leaves the registers `m` in the handle's chip. -/
def Bus.Stores (s₀ : State) (m : Memory) (x : Bus α) : Prop := x.Leaves (fun _ t => s₀.Serves m t) fun _ => False

theorem State.Serves.refl {r : Responder} (h : s.RefResponder s.addr r) (hu : s.Uncut) : s.Serves r.regs s :=
  ⟨.refl s, ⟨r, h.1, h.2, rfl⟩, hu⟩

theorem State.Serves.complete (h : s₀.Serves m t) : s₀.Serves m t.complete :=
  ⟨⟨h.handle.addr, h.handle.cfg, h.handle.pb⟩, h.peer, h.uncut⟩

theorem memWrite_stores (reg : Byte) (bytes : List Byte) (h : s₀.Serves m t) :
    (memWrite reg bytes t).Stores s₀ (storeRun m reg bytes) := by
  obtain ⟨⟨haddr, hcfg, hpb⟩, ⟨r, henv, hra, rfl⟩, hu⟩ := h
  rw [memWrite_responder reg bytes ⟨henv, hra.trans haddr.symm⟩ hu]
  exact ⟨⟨haddr, hcfg, hpb⟩, ⟨_, rfl, hra, rfl⟩, hu⟩

theorem writeReg_stores (reg v : Byte) (h : s₀.Serves m t) : (writeReg reg v t).Stores s₀ (Memory.write m reg.toNat v) :=
  memWrite_stores reg [v] h

theorem writeWindow_stores (base : Byte) (w : Window) (h : s₀.Serves m t) :
    (writeWindow base w t).Stores s₀ (storeRun m base (windowBytes s₀.cfg.swappedRegs w)) := by
  rw [writeWindow, h.handle.cfg]
  exact memWrite_stores base _ h

/-- A read returns the register, stores nothing and leaves status 0 (R59, R98, R103). -/
theorem readReg_serves (reg : Byte) (h : s₀.Serves m t) :
    (readReg reg t).Leaves (fun v u => v = m.reg reg ∧ s₀.Serves m u ∧ u.lastErr = 0) fun _ => False := by
  obtain ⟨⟨haddr, hcfg, hpb⟩, ⟨r, henv, hra, rfl⟩, hu⟩ := h
  rw [readReg_responder reg ⟨henv, hra.trans haddr.symm⟩ hu]
  exact ⟨rfl, ⟨⟨haddr, hcfg, hpb⟩, ⟨_, rfl, hra, rfl⟩, hu⟩, rfl⟩

theorem waitUs_stores (us : Nat) (h : s₀.Serves m t) : (waitUs us t).Stores s₀ m := by
  rw [waitUs_uncut us h.uncut]
  exact ⟨⟨h.handle.addr, h.handle.cfg, h.handle.pb⟩, h.peer, h.uncut⟩

/-- A register write and then the rest. -/
theorem writeReg_thenStores {m' : Memory} {reg v v' : Byte} {k : Unit → State → Bus β} (h : s₀.Serves m t) (hv : v = v')
    (hk : ∀ u, s₀.Serves (Memory.write m reg.toNat v') u → (k () u).Stores s₀ m') :
    ((writeReg reg v t).andThen k).Stores s₀ m' := by
  subst hv
  exact (writeReg_stores reg v h).andThen fun _ u hu => hk u hu

/-- A read of MODE1 and then the rest, which knows the byte. -/
theorem readReg_thenStores {m' : Memory} {reg : Byte} {k : Byte → State → Bus β} (h : s₀.Serves m t)
    (hk : ∀ u, s₀.Serves m u → (k (m.reg reg) u).Stores s₀ m') : ((readReg reg t).andThen k).Stores s₀ m' :=
  (readReg_serves reg h).andThen fun _ u ⟨hv, hu, _⟩ => hv ▸ hk u hu

/-! ## The bodies of the commands -/

theorem initBody_stores (mode : Byte) (h : s₀.Serves m t) :
    (initBody mode t).Stores s₀ (Memory.write (Memory.write m regMode1.toNat (restartMask s₀.cfg ||| aiMask s₀.cfg))
      regMode2.toNat mode) :=
  writeReg_thenStores h (by rw [h.handle.cfg]) fun _ hu => writeReg_stores regMode2 mode hu

theorem enableBody_stores (bit reg value : Byte) (h : s₀.Serves m t) :
    (enableBody bit reg value t).Stores s₀
      (Memory.write (Memory.write m regMode1.toNat (m.reg regMode1 ||| bit)) reg.toNat value) :=
  readReg_thenStores h fun _ hu => writeReg_thenStores hu rfl fun _ hw => writeReg_stores reg value hw

theorem disableBody_stores (bit : Byte) (h : s₀.Serves m t) :
    (disableBody bit t).Stores s₀ (Memory.write m regMode1.toNat (m.reg regMode1 &&& ~~~bit)) :=
  readReg_thenStores h fun _ hu => writeReg_stores regMode1 _ hu

/-- The end of SETFREQ and ENEXTCLK: a wait, and a last write if the byte read had SLEEP = 0 (R126, R138). -/
theorem waitThenRestart_stores (old : Byte) (v : Config → Byte) (h : s₀.Serves m t) :
    ((waitUs 500 t).andThen fun _ s =>
      if old &&& sleepMask s.cfg = 0 then writeReg regMode1 (v s.cfg) s else .done () s).Stores s₀
      (if old &&& sleepMask s₀.cfg = 0 then Memory.write m regMode1.toNat (v s₀.cfg) else m) :=
  (waitUs_stores 500 h).andThen fun _ u hu => by
    rw [hu.handle.cfg]
    split
    · exact writeReg_stores regMode1 _ hu
    · exact hu

theorem setfreqBody_stores (hz : Half) (h : s₀.Serves m t) :
    (setfreqBody hz t).Stores s₀
      (let old := m.reg regMode1
       let m₁ := Memory.write m regMode1.toNat (old ||| sleepMask s₀.cfg)
       let m₂ := Memory.write m₁ regPreScale.toNat (BitVec.ofInt 8 (prescale (hzOf hz)))
       let m₃ := Memory.write m₂ regMode1.toNat old
       if old &&& sleepMask s₀.cfg = 0 then Memory.write m₃ regMode1.toNat (old ||| restartMask s₀.cfg) else m₃) :=
  readReg_thenStores h fun _ h => writeReg_thenStores h (by rw [h.handle.cfg]) fun _ h => writeReg_thenStores h rfl fun _ h =>
    writeReg_thenStores h rfl fun _ h => waitThenRestart_stores _ (fun cfg => m.reg regMode1 ||| restartMask cfg) h

theorem enextclkBody_stores (h : s₀.Serves m t) :
    (enextclkBody t).Stores s₀
      (let old := m.reg regMode1
       let m₁ := Memory.write m regMode1.toNat (old ||| sleepMask s₀.cfg)
       let m₂ := Memory.write m₁ regMode1.toNat (old ||| sleepMask s₀.cfg ||| extclkMask s₀.cfg)
       let m₃ := Memory.write m₂ regMode1.toNat (old ||| extclkMask s₀.cfg)
       if old &&& sleepMask s₀.cfg = 0 then
         Memory.write m₃ regMode1.toNat (old ||| extclkMask s₀.cfg ||| restartMask s₀.cfg)
       else m₃) :=
  readReg_thenStores h fun _ h => writeReg_thenStores h (by rw [h.handle.cfg]) fun _ h =>
    writeReg_thenStores h (by rw [h.handle.cfg]) fun _ h => writeReg_thenStores h (by rw [h.handle.cfg]) fun _ h =>
      waitThenRestart_stores _ (fun cfg => m.reg regMode1 ||| extclkMask cfg ||| restartMask cfg) h

end Sys2Proof.Machine
end

section
/-! SUPPORT. O45, O46 and O47: the registers a command stores in the peer, and no other. -/

namespace Sys2Proof.Machine

open Claims

variable {i : Instr} {s s₀ : State} {r : Responder} {m : Memory} {cells : List (Byte × Byte)}

/-- A command that runs as a bus operation stores exactly the cells that the operation stores. -/
theorem Bus.Stores.storesExactly {x : Bus Unit} (hx : x.Stores s₀ m) (he : exec i s = x.finish) (hra : r.ra = s₀.addr)
    (hcells : r.regs.StoredCells m cells) : StoresExactly i s r cells := by
  obtain ⟨-, t, ht, -, ⟨r', henv, hra', rfl⟩, -⟩ := hx.finish
  exact ⟨t.complete, r', he.trans ht, rfl, henv, hra'.trans hra.symm, hcells⟩

theorem storesExactly_onHandle {vr : Bool} {body : State → Bus Unit} (he : exec i s = onHandle vr s body) (hb : s.bound = true)
    (h : s.RefResponder s.addr r) (hx : (body s).Stores s m) (hcells : r.regs.StoredCells m cells) : StoresExactly i s r cells :=
  hx.storesExactly (by rw [he, onHandle_bound _ _ hb]) h.2 hcells

theorem storesExactly_onDirect {vr : Bool} {body : State → Bus Unit} (he : exec i s = onDirect vr s body) (hb : s.bound = true)
    (hp : s.proxy = false) (h : s.RefResponder s.addr r) (hx : (body s).Stores s m) (hcells : r.regs.StoredCells m cells) :
    StoresExactly i s r cells :=
  hx.storesExactly (by rw [he, onDirect_direct _ _ hb hp]) h.2 hcells

theorem storesExactly_enable {bit reg value : Byte} (he : exec i s = enableAddr bit reg value s) (hreg : (0x00 : Byte) ≠ reg)
    (hb : s.bound = true) (hp : s.proxy = false) (h : s.RefResponder s.addr r) (hu : s.Uncut) :
    StoresExactly i s r [(0x00, r.reg 0x00 ||| bit), (reg, value)] :=
  storesExactly_onDirect he hb hp h (enableBody_stores bit reg value (.refl h hu)) ((Memory.storedCells_write _ _ _).write hreg)

theorem storesExactly_disable {bit : Byte} (he : exec i s = disableAddr bit s) (hb : s.bound = true) (hp : s.proxy = false)
    (h : s.RefResponder s.addr r) (hu : s.Uncut) : StoresExactly i s r [(0x00, r.reg 0x00 &&& ~~~bit)] :=
  storesExactly_onDirect he hb hp h (disableBody_stores bit (.refl h hu)) (Memory.storedCells_write _ _ _)

theorem storesExactly_setfreq (hz : Half) (hb : s.bound = true) (hp : s.proxy = false) (h : s.RefResponder s.addr r) (hu : s.Uncut) :
    StoresExactly (.setfreq hz) s r
      [(0x00, if r.reg 0x00 &&& sleepMask s.cfg = 0 then r.reg 0x00 ||| restartMask s.cfg else r.reg 0x00),
       (0xFE, BitVec.ofInt 8 (prescale (hzOf hz)))] := by
  refine storesExactly_onDirect (body := setfreqBody hz) rfl hb hp h (setfreqBody_stores hz (.refl h hu)) ?_
  have hcells := ((Memory.storedCells_write r.regs 0x00 (r.reg 0x00 ||| sleepMask s.cfg)).write (b := 0xFE)
    (w := BitVec.ofInt 8 (prescale (hzOf hz))) (by decide)).rewrite (v' := r.reg 0x00) (by simp)
  exact hcells.rewriteIf (by simp)

theorem storesExactly_enextclk (hb : s.bound = true) (hp : s.proxy = false) (h : s.RefResponder s.addr r) (hu : s.Uncut) :
    StoresExactly .enextclk s r
      [(0x00, if r.reg 0x00 &&& sleepMask s.cfg = 0 then r.reg 0x00 ||| extclkMask s.cfg ||| restartMask s.cfg
        else r.reg 0x00 ||| extclkMask s.cfg)] := by
  refine storesExactly_onDirect (body := enextclkBody) rfl hb hp h (enextclkBody_stores (.refl h hu)) ?_
  have hcells := ((Memory.storedCells_write r.regs 0x00 (r.reg 0x00 ||| sleepMask s.cfg)).rewrite
    (v' := r.reg 0x00 ||| sleepMask s.cfg ||| extclkMask s.cfg) (by simp)).rewrite (v' := r.reg 0x00 ||| extclkMask s.cfg) (by simp)
  exact hcells.rewriteIf (by simp)

end Sys2Proof.Machine

namespace Sys2Proof

open Machine

/-- Settles O45: each of the five commands is one transmission of its register or its block. -/
theorem registerAndWindowWritesStoreExactly : Obligations.RegisterAndWindowWritesStoreExactly := by
  intro reg v8 ch amt s r h hu hb
  have hs := State.Serves.refl h hu
  have window {i : Instr} {base : Byte} {w : Window} (he : exec i s = onHandle false s (writeWindow base w)) :=
    storesExactly_onHandle he hb h (writeWindow_stores base w hs) (r.regs.storedCells_window s.cfg.swappedRegs base w)
  exact ⟨storesExactly_onHandle rfl hb h (writeReg_stores reg v8 hs) (r.regs.storedCells_write reg v8),
    window rfl, window rfl, window rfl, window rfl⟩

/-- Settles O46: INIT's two writes, from the state with the new handle. -/
theorem initStoresExactlyTheModeRegisters : Obligations.InitStoresExactlyTheModeRegisters := by
  intro off mode s r henv hu hra
  have hs : (s.bindDirect off).Serves r.regs (s.bindDirect off) := .refl ⟨henv, hra⟩ hu
  exact (initBody_stores mode hs).storesExactly rfl hra ((Memory.storedCells_write _ _ _).write (by decide))

/-- Settles O47: each command's writes to MODE1, of which the last one stands, and to its other register. -/
theorem mode1CommandsStoreExactly : Obligations.Mode1CommandsStoreExactly := by
  intro hz ab s r h hu hb hp
  have enable {i : Instr} {bit reg value : Byte} (he : exec i s = enableAddr bit reg value s) (hreg : (0x00 : Byte) ≠ reg) :=
    storesExactly_enable he hreg hb hp h hu
  have disable {i : Instr} {bit : Byte} (he : exec i s = disableAddr bit s) := storesExactly_disable he hb hp h hu
  exact ⟨storesExactly_setfreq hz hb hp h hu, enable rfl (by decide), enable rfl (by decide), enable rfl (by decide),
    enable rfl (by decide), disable rfl, disable rfl, disable rfl, disable rfl, storesExactly_enextclk hb hp h hu⟩

end Sys2Proof
end

section
/-! SUPPORT. O44: a burst of channel windows stores what the channels' single transmissions store (R180, R181). -/

namespace Sys2Proof.Machine

open Claims

variable {s₀ s t : State} {m : Memory}

/-- The registers after the channels' windows, stored one channel after the other. -/
def storeChannels (s : State) (run : List (Fin 16 × Nat)) (m : Memory) : Memory :=
  run.foldl (fun regs p => storeRun regs (ledBase p.1) (channelBytes s p)) m

theorem writeChannel_stores (ch : Fin 16) (amt : Nat) (h : s₀.Serves m t) :
    (writeChannel ch amt t).Stores s₀ (storeRun m (ledBase ch) (channelBytes s₀ (ch, amt))) := by
  rw [writeChannel, channelWindow, h.handle.cfg, h.handle.pb]
  exact writeWindow_stores _ _ h

theorem writeChannels_stores (run : List (Fin 16 × Nat)) (h : s₀.Serves m t) :
    (writeChannels run t).Stores s₀ (storeChannels s₀ run m) := by
  induction run generalizing m t with
  | nil => exact h
  | cons p run ih => exact (writeChannel_stores p.1 p.2 h).andThen fun _ _ hu => ih hu

theorem length_channelBytes (s : State) (p : Fin 16 × Nat) : (channelBytes s p).length = 4 := length_windowBytes _ _

/-- The blocks of ascending channels lie one behind the other, so one run over their bytes stores them all. -/
theorem storeRun_channels (s : State) (n : Nat) (amts : List Nat) (m : Memory) :
    storeRun m (BitVec.ofNat 8 (6 + 4 * n)) ((((List.finRange 16).drop n).zip amts).flatMap (channelBytes s)) =
      storeChannels s (((List.finRange 16).drop n).zip amts) m := by
  induction amts generalizing n m with
  | nil => simp [storeRun, storeChannels]
  | cons amt amts ih =>
    by_cases hn : n < 16
    · have hnext : BitVec.ofNat 8 (6 + 4 * n) + BitVec.ofNat 8 4 = BitVec.ofNat 8 (6 + 4 * (n + 1)) := by
        rw [← BitVec.ofNat_add]
        rfl
      have hdrop : (List.finRange 16).drop n = ⟨n, hn⟩ :: (List.finRange 16).drop (n + 1) := by
        rw [List.drop_eq_getElem_cons (by simpa using hn)]
        simp
      rw [hdrop, List.zip_cons_cons, List.flatMap_cons, storeRun_append, length_channelBytes, hnext, ih]
      rfl
    · rw [List.drop_eq_nil_of_le (by simp; omega)]
      rfl

/-- CHSPWM past the guard, whatever the buffer size (R181). -/
theorem chspwmBody_stores (first : Byte) (amts : List Half) (h : s.Serves m s) :
    (chspwmBody first (channelRun first amts) s).Stores s (storeChannels s (channelRun first amts) m) := by
  unfold chspwmBody
  split_ifs with hempty hfits
  · rw [List.length_eq_zero_iff.mp hempty]
    exact h
  · have hburst := memWrite_stores (ledBase (channelOf first)) (burstBytes s (channelRun first amts)) h
    exact (storeRun_channels s (channelOf first).val (amts.map amountOf) m) ▸ hburst
  · exact writeChannels_stores _ h

end Sys2Proof.Machine

namespace Sys2Proof

open Machine

/-- Settles O44: both forms of CHSPWM leave the registers of the channels' single stores in order. -/
theorem chspwmStoresWhatChannelWritesStore : Obligations.ChspwmStoresWhatChannelWritesStore := by
  intro first amts s r h hu hb
  obtain ⟨-, t, ht, -, ⟨r', henv, -, hregs⟩, -⟩ := (chspwmBody_stores first amts (.refl h hu)).finish
  exact ⟨t.complete, r', (onHandle_bound false (chspwmBody first (channelRun first amts)) hb).trans ht, rfl, henv, hregs⟩

end Sys2Proof
end

section
/-! SUPPORT. O43: what GETCHPWM makes of a window that CHPWM stored (R185, R187, R189). -/

namespace Sys2Proof.Machine

variable {s₀ s t : State} {m : Memory}

/-! ## The amount of a phase window -/

theorem amountOf_le (b : Half) : amountOf b ≤ 4096 := Nat.min_le_right _ _

theorem phaseBegin_lt (cfg : Config) (scheme : Scheme) (c : Fin 16) : phaseBegin cfg scheme c < 4096 := by
  cases scheme with
  | none => exact Nat.zero_lt_succ _
  | linear =>
    have := c.isLt
    simp only [phaseBegin]
    omega
  | weaved => exact (cfg.weaved.get c).isLt

/-- Boundary values below 4096 carry no flag. -/
theorem fullFlag_ofNat {n : Nat} (h : n < 4096) : fullFlag (BitVec.ofNat 13 n) = false := by
  rw [fullFlag, BitVec.getLsbD_ofNat, Nat.testBit_lt_two_pow (by simpa using h)]
  rfl

theorem toNat_tickOf_ofNat {n : Nat} (h : n < 4096) : (tickOf (BitVec.ofNat 13 n)).toNat = n := by
  simp [tickOf]
  omega

/-- A window without a flag holds its length, modulo the cycle (R185). -/
theorem decodeAmount_ticks {a amt : Nat} (ha : a < 4096) (hamt : amt < 4096) :
    decodeAmount ⟨BitVec.ofNat 13 a, BitVec.ofNat 13 ((a + amt) % 4096)⟩ = amt := by
  have hoff : (a + amt) % 4096 < 4096 := Nat.mod_lt _ (by decide)
  simp only [decodeAmount, fullFlag_ofNat ha, fullFlag_ofNat hoff, Bool.false_eq_true, if_false, BitVec.toNat_sub,
    toNat_tickOf_ofNat ha, toNat_tickOf_ofNat hoff]
  omega

/-- GETCHPWM's decoding undoes the phase balancer's window, for every scheme and table (R189). -/
theorem decodeAmount_phaseWindow (cfg : Config) (scheme : Scheme) (c : Fin 16) {amt : Nat} (h : amt ≤ 4096) :
    decodeAmount (phaseWindow cfg scheme c amt) = amt := by
  unfold phaseWindow
  split_ifs with hzero hfull
  · rw [hzero]; rfl
  · rw [hfull]; rfl
  · exact decodeAmount_ticks (phaseBegin_lt cfg scheme c) (by omega)

/-! ## The window of four registers -/

/-- The window that four registers from `base` on hold (R187). -/
def Memory.window (m : Memory) (swapped : Bool) (base : Byte) : Window :=
  ⟨pairValue swapped (m.reg base) (m.reg (base + 1)), pairValue swapped (m.reg (base + 2)) (m.reg (base + 3))⟩

/-- A block's cells are the window read back from them, in either byte order. -/
theorem Memory.StoredCells.window {m₀ : Memory} {swapped : Bool} {base : Byte} {w : Window}
    (h : m₀.StoredCells m (Claims.blockCells swapped base w)) : m.window swapped base = w := by
  obtain ⟨hcells, -⟩ := h
  obtain ⟨on, off⟩ := w
  cases swapped
  all_goals
    simp only [Claims.blockCells, windowBytes, pairBytes, Bool.false_eq_true, if_false, if_true, List.cons_append, List.nil_append,
      List.zip_cons_cons, List.zip_nil_left, List.forall_mem_cons] at hcells
    obtain ⟨h0, h1, h2, h3, -⟩ := hcells
    rw [Memory.window, h0, h1, h2, h3]
    exact congrArg₂ Window.mk (low5_append_pair on) (low5_append_pair off)

/-- GETCHPWM past the guards returns the amount of the window its four reads find (R186). -/
theorem getchpwmBody_reads (base : Byte) (h : s₀.Serves m t) :
    (getchpwmBody base t).Leaves (fun _ u => u.lastErr = 0 ∧
      u.result = BitVec.ofNat 32 (decodeAmount (m.window s₀.cfg.swappedRegs base))) fun _ => False := by
  refine (readReg_serves base h).andThen ?_
  rintro _ t₁ ⟨rfl, h₁, -⟩
  refine (readReg_serves (base + 1) h₁).andThen ?_
  rintro _ t₂ ⟨rfl, h₂, -⟩
  refine (readReg_serves (base + 2) h₂).andThen ?_
  rintro _ t₃ ⟨rfl, h₃, -⟩
  refine (readReg_serves (base + 3) h₃).andThen ?_
  rintro _ t₄ ⟨rfl, h₄, herr⟩
  rw [h₄.handle.cfg]
  exact ⟨herr, rfl⟩

end Sys2Proof.Machine

namespace Sys2Proof

open Machine

/-- Settles O43: CHPWM stores the phase window in the channel's block, and GETCHPWM reads and decodes that window. -/
theorem chpwmReadsBack : Obligations.ChpwmReadsBack := by
  intro ch amt s r h hu hb hp
  obtain ⟨-, t, ht, hserves⟩ := (writeChannel_stores (channelOf ch) (amountOf amt) (.refl h hu)).finish
  have hexec : exec (.chpwm ch amt) s = .next t.complete :=
    (onHandle_bound false (writeChannel (channelOf ch) (amountOf amt)) hb).trans ht
  obtain ⟨-, hbound, hproxy⟩ := (exec_writesListed hexec).handle (by simp) (by simp)
  obtain ⟨-, u, hu', herr, hres⟩ := (getchpwmBody_reads (ledBase (channelOf ch)) hserves.complete).finish
  have hwindow := (r.regs.storedCells_window s.cfg.swappedRegs (ledBase (channelOf ch))
    (phaseWindow s.cfg s.pb (channelOf ch) (amountOf amt))).window
  rw [channelBytes, hwindow, decodeAmount_phaseWindow _ _ _ (amountOf_le amt)] at hres
  exact ⟨t.complete, u.complete, hexec, (onDirect_direct true _ (hbound.trans hb) (hproxy.trans hp)).trans hu', rfl, herr, hres⟩

end Sys2Proof
end

section
/-! SUPPORT. O48: the transmissions that store nothing in the peer (R59), wherever they end or are held, and the commands made of
them. -/

namespace Sys2Proof.Machine

variable {α β : Type} {a : BusAddr} {s t : State} {r r' : Responder}

/-! ## What the peer is, in every environment that is the responder, with a reset at any time -/

/-- The handle's address is `a` and the environment is a responder of which `P` holds. -/
structure State.Peer (a : BusAddr) (P : Responder → Prop) (s : State) : Prop where
  addr : s.addr = a
  env : ∃ r, s.env = .responder r ∧ P r

/-- `r'` has the bus address and the registers of `r`. -/
structure Responder.Kept (r r' : Responder) : Prop where
  ra : r'.ra = r.ra
  regs : r'.regs = r.regs

/-- `r'` has those of `r`, and is in the middle of a transmission to `b` of which it has the bytes `sent`. -/
structure Responder.Receiving (r : Responder) (b : BusAddr) (sent : List Byte) (r' : Responder) : Prop extends r.Kept r' where
  txAddr : r'.txAddr = b
  txBytes : r'.txBytes = sent

/-- A bus operation that leaves the handle's address and the peer's registers alone, whether it runs to its end or is held. -/
def Bus.KeepsPeer (a : BusAddr) (r : Responder) (x : Bus α) : Prop :=
  x.Leaves (fun _ t => t.Peer a r.Kept) fun t => t.Peer a r.Kept

theorem Bus.KeepsPeer.andThen {x : Bus α} {k : α → State → Bus β} (hx : x.KeepsPeer a r)
    (hk : ∀ v t, t.Peer a r.Kept → (k v t).KeepsPeer a r) : (x.andThen k).KeepsPeer a r := Bus.Leaves.andThen hx hk

theorem Bus.KeepsPeer.ite {c : Prop} [Decidable c] {x y : Bus α} (hx : x.KeepsPeer a r) (hy : y.KeepsPeer a r) :
    (if c then x else y).KeepsPeer a r := by
  split
  · exact hx
  · exact hy

theorem startAction_leaves {P : α → State → Prop} {Q : State → Prop} (action : Action) (rest : State → Bus α)
    (hgo : ∀ n, (rest { s with resetIn := n }).Leaves P Q) (hcut : Q ({ s with resetIn := .now }.heldIn action)) :
    (startAction action s rest).Leaves P Q := by
  unfold startAction
  split
  · exact hgo _
  · exact hcut

/-- A primitive changes the responder by R59, or reset comes in it and leaves the responder. -/
theorem issue_peer {P P' Q : Responder → Prop} (p : BusPrim) (h : s.Peer a P) (hafter : ∀ r, P r → P' (r.after p))
    (hheld : ∀ r, P r → Q r) : (issue p s).Leaves (fun _ t => t.Peer a P') fun t => t.Peer a Q := by
  obtain ⟨haddr, r, henv, hr⟩ := h
  refine startAction_leaves _ _ (fun n => ?_) ⟨haddr, r, henv, hheld r hr⟩
  have hask : ask p { s with resetIn := n } = .done (r.reply p) { s with resetIn := n, env := .responder (r.after p) } := by
    unfold ask
    rw [henv]
  rw [hask]
  exact ⟨haddr, _, rfl, hafter r hr⟩

/-! ## The register accesses -/

theorem txBegin_peer (b : BusAddr) (h : s.Peer a r.Kept) :
    (txBegin b s).Leaves (fun _ t => t.Peer a (r.Receiving b [])) fun t => t.Peer a r.Kept :=
  (issue_peer (.txBegin b) h (P' := r.Receiving b []) (fun _ hk => ⟨⟨hk.ra, hk.regs⟩, rfl, rfl⟩) fun _ hk => hk).andThen
    fun _ _ ht => ⟨ht.addr, ht.env⟩

theorem txWrite_peer {b : BusAddr} {sent : List Byte} (byte : Byte) (h : s.Peer a (r.Receiving b sent)) :
    (txWrite byte s).Leaves (fun _ t => t.Peer a (r.Receiving b (sent ++ [byte]))) fun t => t.Peer a r.Kept :=
  (issue_peer (.txWrite byte) h (P' := r.Receiving b (sent ++ [byte]))
    (fun _ hk => ⟨⟨hk.ra, hk.regs⟩, hk.txAddr, congrArg (· ++ [byte]) hk.txBytes⟩) fun _ hk => hk.toKept).andThen
    fun _ _ ht => ⟨ht.addr, ht.env⟩

theorem txWrites_peer {b : BusAddr} {sent : List Byte} (bytes : List Byte) (h : s.Peer a (r.Receiving b sent)) :
    (txWrites bytes s).Leaves (fun _ t => t.Peer a (r.Receiving b (sent ++ bytes))) fun t => t.Peer a r.Kept := by
  induction bytes generalizing s sent with
  | nil => simpa [txWrites, Bus.Leaves] using h
  | cons byte bytes ih =>
    refine (txWrite_peer byte h).andThen fun _ t ht => ?_
    have := ih ht
    rwa [List.append_assoc] at this

/-- The end of a transmission to another address, or of one without data bytes, stores nothing (R59). -/
theorem Responder.Receiving.endTx {b : BusAddr} {sent : List Byte} (h : r.Receiving b sent r')
    (hsafe : b ≠ r.ra ∨ sent.length ≤ 1) : r.Kept r'.endTx := by
  obtain ⟨⟨hra, hregs⟩, rfl, rfl⟩ := h
  unfold Responder.endTx
  split
  next here =>
    have hlen : r'.txBytes.length ≤ 1 := hsafe.resolve_left fun hne => hne (here.trans hra)
    split
    next => exact ⟨hra, hregs⟩
    next reg data hbytes =>
      obtain rfl : data = [] := List.length_eq_zero_iff.mp (by rw [hbytes, List.length_cons] at hlen; omega)
      exact ⟨hra, hregs⟩
  next => exact ⟨hra, hregs⟩

theorem Bus.KeepsPeer.inBurst {x : Bus α} (b : BusAddr) (bytes : List Byte) (hx : x.KeepsPeer a r) :
    (x.inBurst b bytes).KeepsPeer a r := by
  cases x with
  | done v t => exact hx
  | hung t => exact ⟨hx.addr, hx.env⟩

theorem transmit_keepsPeer {b : BusAddr} {bytes : List Byte} (hsafe : b ≠ r.ra ∨ bytes.length ≤ 1) (h : s.Peer a r.Kept) :
    (transmit b bytes s).KeepsPeer a r :=
  .inBurst b bytes <| (txBegin_peer b h).andThen fun _ _ h => (txWrites_peer bytes h).andThen fun _ _ h =>
    (issue_peer .txEnd h (fun _ hk => hk.endTx hsafe) fun _ hk => hk.toKept).andThen fun _ _ h => ⟨h.addr, h.env⟩

/-- A one-byte transmission sends no data byte (R97). -/
theorem transmit_byte_keepsPeer (b : BusAddr) (byte : Byte) (h : s.Peer a r.Kept) : (transmit b [byte] s).KeepsPeer a r :=
  transmit_keepsPeer (.inr (Nat.le_refl 1)) h

/-- The single-register read sends no data byte (R103). -/
theorem readReg_keepsPeer (reg : Byte) (h : s.Peer a r.Kept) : (readReg reg s).KeepsPeer a r := by
  refine (transmit_byte_keepsPeer _ _ h).andThen fun _ t₁ h₁ => ?_
  have hrequest : (rxRequest t₁.addr 1 t₁).KeepsPeer a r :=
    (issue_peer (.rxRequest t₁.addr 1) h₁ (fun _ hk => hk) fun _ hk => hk).andThen fun _ _ h => ⟨h.addr, h.env⟩
  refine hrequest.andThen fun avail t₂ h₂ => ?_
  have hread : (rxRead (decide (avail < 1)) t₂).KeepsPeer a r :=
    (issue_peer .rxRead h₂ (P' := r.Kept) (fun _ hk => ⟨hk.ra, hk.regs⟩) fun _ hk => hk).andThen fun _ _ h =>
      Bus.KeepsPeer.ite ⟨h.addr, h.env⟩ ⟨h.addr, h.env⟩
  exact hread.andThen fun _ _ h => ⟨h.addr, h.env⟩

theorem waitUs_keepsPeer (us : Nat) (h : s.Peer a r.Kept) : (waitUs us s).KeepsPeer a r :=
  startAction_leaves _ _ (fun _ => ⟨h.addr, h.env⟩) ⟨h.addr, h.env⟩

theorem memWrite_keepsPeer (hne : a ≠ r.ra) (reg : Byte) (bytes : List Byte) (h : s.Peer a r.Kept) :
    (memWrite reg bytes s).KeepsPeer a r := transmit_keepsPeer (.inl (h.addr ▸ hne)) h

theorem writeReg_keepsPeer (hne : a ≠ r.ra) (reg v : Byte) (h : s.Peer a r.Kept) : (writeReg reg v s).KeepsPeer a r :=
  memWrite_keepsPeer hne reg [v] h

theorem writeWindow_keepsPeer (hne : a ≠ r.ra) (base : Byte) (w : Window) (h : s.Peer a r.Kept) :
    (writeWindow base w s).KeepsPeer a r := memWrite_keepsPeer hne base _ h

/-! ## The bodies of the commands -/

theorem swrstBody_keepsPeer (h : s.Peer a r.Kept) : (swrstBody s).KeepsPeer a r :=
  (transmit_byte_keepsPeer _ _ h).andThen fun _ _ h => ⟨h.addr, h.env⟩

theorem rdregBody_keepsPeer (reg : Byte) (h : s.Peer a r.Kept) : (rdregBody reg s).KeepsPeer a r :=
  (readReg_keepsPeer reg h).andThen fun _ _ h => ⟨h.addr, h.env⟩

theorem getchpwmBody_keepsPeer (base : Byte) (h : s.Peer a r.Kept) : (getchpwmBody base s).KeepsPeer a r :=
  (readReg_keepsPeer base h).andThen fun _ _ h => (readReg_keepsPeer (base + 1) h).andThen fun _ _ h =>
    (readReg_keepsPeer (base + 2) h).andThen fun _ _ h => (readReg_keepsPeer (base + 3) h).andThen fun _ _ h => ⟨h.addr, h.env⟩

theorem initBody_keepsPeer (hne : a ≠ r.ra) (mode : Byte) (h : s.Peer a r.Kept) : (initBody mode s).KeepsPeer a r :=
  (writeReg_keepsPeer hne _ _ h).andThen fun _ _ h => writeReg_keepsPeer hne _ _ h

theorem enableBody_keepsPeer (hne : a ≠ r.ra) (bit reg value : Byte) (h : s.Peer a r.Kept) :
    (enableBody bit reg value s).KeepsPeer a r :=
  (readReg_keepsPeer _ h).andThen fun _ _ h => (writeReg_keepsPeer hne _ _ h).andThen fun _ _ h => writeReg_keepsPeer hne _ _ h

theorem disableBody_keepsPeer (hne : a ≠ r.ra) (bit : Byte) (h : s.Peer a r.Kept) : (disableBody bit s).KeepsPeer a r :=
  (readReg_keepsPeer _ h).andThen fun _ _ h => writeReg_keepsPeer hne _ _ h

/-- The end of SETFREQ and ENEXTCLK (R126, R138). -/
theorem waitThenRestart_keepsPeer (hne : a ≠ r.ra) (old : Byte) (v : State → Byte) (h : s.Peer a r.Kept) :
    ((waitUs 500 s).andThen fun _ s =>
      if old &&& sleepMask s.cfg = 0 then writeReg regMode1 (v s) s else .done () s).KeepsPeer a r :=
  (waitUs_keepsPeer 500 h).andThen fun _ _ h => (writeReg_keepsPeer hne _ _ h).ite h

theorem setfreqBody_keepsPeer (hne : a ≠ r.ra) (hz : Half) (h : s.Peer a r.Kept) : (setfreqBody hz s).KeepsPeer a r :=
  (readReg_keepsPeer _ h).andThen fun old _ h => (writeReg_keepsPeer hne _ _ h).andThen fun _ _ h =>
    (writeReg_keepsPeer hne _ _ h).andThen fun _ _ h => (writeReg_keepsPeer hne _ _ h).andThen fun _ _ h =>
      waitThenRestart_keepsPeer hne old (fun s => old ||| restartMask s.cfg) h

theorem enextclkBody_keepsPeer (hne : a ≠ r.ra) (h : s.Peer a r.Kept) : (enextclkBody s).KeepsPeer a r :=
  (readReg_keepsPeer _ h).andThen fun old _ h => (writeReg_keepsPeer hne _ _ h).andThen fun _ _ h =>
    (writeReg_keepsPeer hne _ _ h).andThen fun _ _ h => (writeReg_keepsPeer hne _ _ h).andThen fun _ _ h =>
      waitThenRestart_keepsPeer hne old (fun s => old ||| extclkMask s.cfg ||| restartMask s.cfg) h

theorem writeChannels_keepsPeer (hne : a ≠ r.ra) (run : List (Fin 16 × Nat)) (h : s.Peer a r.Kept) :
    (writeChannels run s).KeepsPeer a r := by
  induction run generalizing s with
  | nil => exact h
  | cons p run ih => exact (writeWindow_keepsPeer hne _ _ h).andThen fun _ _ h => ih h

theorem chspwmBody_keepsPeer (hne : a ≠ r.ra) (first : Byte) (run : List (Fin 16 × Nat)) (h : s.Peer a r.Kept) :
    (chspwmBody first run s).KeepsPeer a r :=
  Bus.KeepsPeer.ite h ((memWrite_keepsPeer hne _ _ h).ite (writeChannels_keepsPeer hne run h))

/-! ## The commands -/

theorem Bus.KeepsPeer.finish {x : Bus Unit} (hx : x.KeepsPeer a r) (he : x.finish = .next t) : t.Peer a r.Kept := by
  cases x with
  | done v u => cases he; exact ⟨hx.addr, hx.env⟩
  | hung u => cases he; exact hx

theorem State.Peer.raiseMisuse {P : Responder → Prop} (h : s.Peer a P) (reason : MisuseReason) (draws : Bool) :
    (s.raiseMisuse reason draws).Peer a P := ⟨by simp [h.addr], by simpa using h.env⟩

theorem onHandle_keepsPeer {vr : Bool} {body : State → Bus Unit} (h : s.Peer a r.Kept) (hx : (body s).KeepsPeer a r)
    (he : onHandle vr s body = .next t) : t.Peer a r.Kept := by
  cases hb : s.bound with
  | false =>
    cases (onHandle_unbound vr body hb).symm.trans he
    exact h.raiseMisuse _ _
  | true => exact hx.finish ((onHandle_bound vr body hb).symm.trans he)

theorem onDirect_keepsPeer {vr : Bool} {body : State → Bus Unit} (h : s.Peer a r.Kept) (hx : (body s).KeepsPeer a r)
    (he : onDirect vr s body = .next t) : t.Peer a r.Kept := by
  cases hb : s.bound with
  | false =>
    cases (onDirect_unbound vr body hb).symm.trans he
    exact h.raiseMisuse _ _
  | true =>
    cases hp : s.proxy with
    | true =>
      cases (onDirect_proxy vr body hb hp).symm.trans he
      exact h.raiseMisuse _ _
    | false => exact hx.finish ((onDirect_direct vr body hb hp).symm.trans he)

theorem execSwrst_keepsPeer (h : s.Peer a r.Kept) (he : execSwrst s = .next t) : t.Peer a r.Kept := by
  unfold execSwrst at he
  split at he
  · cases he
    exact h.raiseMisuse _ _
  · exact (swrstBody_keepsPeer h).finish he

/-- A handle command that stores nothing is a read of the peer. -/
theorem exec_reading_keepsPeer {i : Instr} (hi : storesNothing i = true) (htx : issuesTxEnd i = true) (h : s.Peer a r.Kept)
    (he : exec i s = .next t) : t.Peer a r.Kept := by
  cases i with
  | rdreg reg => exact onDirect_keepsPeer h (rdregBody_keepsPeer reg h) he
  | getchpwm ch => exact onDirect_keepsPeer h (getchpwmBody_keepsPeer _ h) he
  | swrst => exact execSwrst_keepsPeer h he
  | initpx | getaddr | getpb | geterr | phasewin | evcfg2 | evcfg3 | angpwm => cases htx
  | _ => cases hi

/-- A command whose handle is at another address than the peer's. -/
theorem exec_elsewhere_keepsPeer {i : Instr} (hne : a ≠ r.ra) (htx : addressesHandle i = true) (h : s.Peer a r.Kept)
    (he : exec i s = .next t) : t.Peer a r.Kept := by
  cases i with
  | wrreg reg v8 => exact onHandle_keepsPeer h (writeReg_keepsPeer hne reg v8 h) he
  | chon | choff | chpwm | allpwm => exact onHandle_keepsPeer h (writeWindow_keepsPeer hne _ _ h) he
  | chspwm first amts => exact onHandle_keepsPeer h (chspwmBody_keepsPeer hne _ _ h) he
  | rdreg reg => exact onDirect_keepsPeer h (rdregBody_keepsPeer reg h) he
  | getchpwm ch => exact onDirect_keepsPeer h (getchpwmBody_keepsPeer _ h) he
  | setfreq hz => exact onDirect_keepsPeer h (setfreqBody_keepsPeer hne hz h) he
  | enextclk => exact onDirect_keepsPeer h (enextclkBody_keepsPeer hne h) he
  | enallc | ensub1 | ensub2 | ensub3 => exact onDirect_keepsPeer h (enableBody_keepsPeer hne _ _ _ h) he
  | disallc | dissub1 | dissub2 | dissub3 => exact onDirect_keepsPeer h (disableBody_keepsPeer hne _ h) he
  | _ => cases htx

/-- INIT ends with the handle it bound. -/
theorem execInit_addr {off mode : Byte} (he : exec (.init off mode) s = .next t) : t.addr = (s.bindDirect off).addr := by
  obtain ⟨t', ht, hend⟩ := execInit_ends off mode s
  obtain rfl : t' = t := by rw [ht] at he; cases he; rfl
  rcases hend with ⟨u, hf, -, -, rfl⟩ | ⟨hf, -, -⟩
  · rw [hf.rest]; rfl
  · rw [hf.rest]

/-- A command whose bus address is not the peer's, or that stores nothing, keeps the peer. -/
theorem exec_keepsPeer {i : Instr} (henv : s.env = .responder r) (he : exec i s = .next t)
    (h : storesNothing i = true ∨ t.addr ≠ r.ra) : ∃ r', t.env = .responder r' ∧ r.Kept r' := by
  have hs : s.Peer s.addr r.Kept := ⟨rfl, r, henv, rfl, rfl⟩
  rcases instr_kinds i with (ha | rfl) | ⟨off, mode, rfl⟩ | hlocal
  · obtain ⟨hhandle, -⟩ := (exec_writesListed he).handle (by rintro _ _ rfl; cases ha) (by rintro _ rfl; cases ha)
    rcases h with hi | hne
    · exact (exec_reading_keepsPeer hi (by simp [issuesTxEnd, ha]) hs he).env
    · exact (exec_elsewhere_keepsPeer (hhandle ▸ hne) ha hs he).env
  · exact (execSwrst_keepsPeer hs he).env
  · rcases h with hi | hne
    · cases hi
    · rw [execInit_addr he] at hne
      exact ((initBody_keepsPeer (s := s.bindDirect off) hne mode ⟨rfl, r, henv, rfl, rfl⟩).finish he).env
  · obtain ⟨-, -, henv'⟩ := (exec_writesListed he).bus hlocal
    exact ⟨r, henv'.trans henv, rfl, rfl⟩

end Sys2Proof.Machine

namespace Sys2Proof

open Machine

/-- Settles O48: such a command sends the peer no data byte, so the peer's registers are the same known bytes. -/
theorem otherCommandsKeepThePeer : Obligations.OtherCommandsKeepThePeer := by
  intro i s t r henv he h
  obtain ⟨r', henv', hra, hregs⟩ := exec_keepsPeer henv he h
  exact ⟨r', henv', hra, fun a => by rw [Responder.reg_eq, hregs]; rfl⟩

end Sys2Proof
end

section
/-! SUPPORT. O1, O2 and O5: decode and encode are inverse to each other. -/

namespace Sys2Proof

variable {w : Word} {ext : List Word}

/-! ## Decode after encode -/

/-- A command of one word is decoded from that word alone, whatever follows it. -/
theorem decode_single {f : Format} {i : Instr} (hf : formatOf (fieldOp w) = some f) (hw : w &&& reservedMask f = 0)
    (hn : extCount w = 0) (hi : commandOf w [] = some i) (rest : List Word) : decode (w :: rest) = .command i 1 := by
  have hwhole := decodeWhole_legal (ext := []) hf hw (by simp) hi
  rw [hn] at hwhole
  exact (decode_cons (ext := []) (by simp [hn])).trans hwhole

/-- A command of several words is decoded from them, whatever follows them. -/
theorem decode_several {f : Format} {i : Instr} (hf : formatOf (fieldOp w) = some f) (hw : w &&& reservedMask f = 0)
    (hn : ext.length = extCount w) (he : ∀ e ∈ ext, e &&& extReservedMask f = 0) (hi : commandOf w ext = some i)
    (rest : List Word) : decode (w :: ext ++ rest) = .command i (w :: ext).length := by
  rw [List.cons_append, decode_cons hn, decodeWhole_legal hf hw he hi, List.length_cons, hn, Nat.add_comm]

/-- CHSPWM's count field holds the number of its amounts (R78). -/
theorem extCount_chspwm (first : Byte) {amts : List Half} (h : amts.length ≤ 255) :
    extCount (wordAB8 0x33 first (BitVec.ofNat 8 amts.length)) = amts.length := by
  have hmod : amts.length % 256 = amts.length := Nat.mod_eq_of_lt (by omega)
  simp [extCount, formatOf, hmod]

/-- The command's constructors by the format of their base word (R73 to R79). -/
theorem decode_encode (i : Instr) (rest : List Word) (h : i.wellFormed = true) :
    decode (encode i ++ rest) = .command i (encode i).length := by
  cases i with
  | swrst | disallc | dissub1 | dissub2 | dissub3 | enextclk | getaddr | getpb | geterr =>
    exact decode_single (f := .n) (by simp [formatOf]) (by simp) (by simp [extCount, formatOf]) (by simp [commandOf]) rest
  | rdreg | enallc | ensub1 | ensub2 | ensub3 | chon | choff | getchpwm =>
    exact decode_single (f := .a) (by simp [formatOf]) (by simp) (by simp [extCount, formatOf]) (by simp [commandOf]) rest
  | initpx =>
    exact decode_single (f := .a7) (by simp [formatOf]) (by simp) (by simp [extCount, formatOf]) (by simp [commandOf]) rest
  | phasewin | chpwm =>
    exact decode_single (f := .ab) (by simp [formatOf]) (by simp) (by simp [extCount, formatOf]) (by simp [commandOf]) rest
  | wrreg | init =>
    exact decode_single (f := .ab8) (by simp [formatOf]) (by simp) (by simp [extCount, formatOf]) (by simp [commandOf]) rest
  | setfreq | allpwm | angpwm =>
    exact decode_single (f := .b) (by simp [formatOf]) (by simp) (by simp [extCount, formatOf]) (by simp [commandOf]) rest
  | evcfg2 =>
    exact decode_several (f := .e2) (by simp [formatOf]) (by simp) (by simp [extCount, formatOf]) (by simp)
      (by simp [commandOf]) rest
  | evcfg3 =>
    exact decode_several (f := .e3) (by simp [formatOf]) (by simp) (by simp [extCount, formatOf]) (by simp [extReservedMask])
      (by simp [commandOf]) rest
  | chspwm first amts =>
    have hlen : amts.length ≤ 255 := by simpa [Instr.wellFormed] using h
    exact decode_several (f := .m) (by simp [formatOf]) (by simp) (by rw [extCount_chspwm first hlen, List.length_map])
      (by simp) (by simp [commandOf, Function.comp_def]) rest

/-! ## What the decoder can make of a command's words -/

/-- The unassigned opcodes (R83). -/
def Unassigned (op : Nat) : Prop :=
  op = 0x00 ∨ (0x03 ≤ op ∧ op ≤ 0x0F) ∨ (0x21 ≤ op ∧ op ≤ 0x2F) ∨ (0x36 ≤ op ∧ op ≤ 0x3F) ∨ 0x43 ≤ op

theorem formatOf_eq_none_iff (op : Byte) : formatOf op = none ↔ Unassigned op.toNat := by
  unfold formatOf Unassigned
  split <;> simp only [reduceCtorEq, eq_self, false_iff, true_iff, imp_false] at * <;> omega

theorem commandOf_eq_none_iff (w : Word) (ext : List Word) : commandOf w ext = none ↔ Unassigned (fieldOp w).toNat := by
  unfold commandOf Unassigned
  split <;> simp only [reduceCtorEq, eq_self, false_iff, true_iff, imp_false] at * <;> omega

/-- The four things that R92 can make of a base word with its extension words. -/
inductive DecodesTo (w : Word) (ext : List Word) : Decoded → Prop where
  | unassigned (hf : formatOf (fieldOp w) = none) : DecodesTo w ext (.illegal .unassignedOpcode 1)
  | reservedBase {f : Format} (hf : formatOf (fieldOp w) = some f) (hw : w &&& reservedMask f ≠ 0) :
      DecodesTo w ext (.illegal .reservedBaseBit (1 + extCount w))
  | reservedExt {f : Format} {e : Word} (hf : formatOf (fieldOp w) = some f) (he : e ∈ ext) (hr : e &&& extReservedMask f ≠ 0) :
      DecodesTo w ext (.illegal .reservedExtBit (1 + extCount w))
  | command {f : Format} {i : Instr} (hf : formatOf (fieldOp w) = some f) (hw : w &&& reservedMask f = 0)
      (he : ∀ e ∈ ext, e &&& extReservedMask f = 0) (hi : commandOf w ext = some i) :
      DecodesTo w ext (.command i (1 + extCount w))

theorem decodesTo_decodeWhole (w : Word) (ext : List Word) : DecodesTo w ext (decodeWhole w ext) := by
  cases hf : formatOf (fieldOp w) with
  | none =>
    simp only [decodeWhole, hf]
    exact .unassigned hf
  | some f =>
    by_cases hw : w &&& reservedMask f = 0
    · by_cases he : ∀ e ∈ ext, e &&& extReservedMask f = 0
      · cases hi : commandOf w ext with
        | none => simp [(formatOf_eq_none_iff _).mpr ((commandOf_eq_none_iff w ext).mp hi)] at hf
        | some i =>
          rw [decodeWhole_legal hf hw he hi]
          exact .command hf hw he hi
      · obtain ⟨e, hmem, hr⟩ : ∃ e ∈ ext, e &&& extReservedMask f ≠ 0 := by simpa using he
        have hwhole : decodeWhole w ext = .illegal .reservedExtBit (1 + extCount w) := by
          simp only [decodeWhole, hf, hw, ne_eq, not_true_eq_false, if_false]
          exact if_pos (by simpa using ⟨e, hmem, hr⟩)
        rw [hwhole]
        exact .reservedExt hf hmem hr
    · have hwhole : decodeWhole w ext = .illegal .reservedBaseBit (1 + extCount w) := by
        simp only [decodeWhole, hf]
        exact if_pos hw
      rw [hwhole]
      exact .reservedBase hf hw

/-- Words decode to nothing yet, or all words of a command are there and are decided (R88, R254). -/
theorem decode_cases (ws : List Word) :
    decode ws = .incomplete ∨
      ∃ w ext rest, ws = w :: (ext ++ rest) ∧ ext.length = extCount w ∧ DecodesTo w ext (decode ws) := by
  cases ws with
  | nil => exact .inl rfl
  | cons w rest =>
    by_cases hlen : rest.length < extCount w
    · exact .inl (by simp [decode, hlen])
    · refine .inr ⟨w, rest.take (extCount w), rest.drop (extCount w), by rw [List.take_append_drop], by simp; omega, ?_⟩
      rw [decode, if_neg hlen]
      exact decodesTo_decodeWhole w _

/-! ## Encode after decode -/

/-- A range of bits that a mask reserves is 0 where no reserved bit is set. -/
theorem extract_eq_zero_of_reserved {mask : Word} (h : w &&& mask = 0) {start len : Nat}
    (hmask : mask.extractLsb' start len = BitVec.allOnes len) : w.extractLsb' start len = 0 := by
  have hand : w.extractLsb' start len &&& mask.extractLsb' start len = 0 := by
    rw [← BitVec.extractLsb'_and, h]
    exact BitVec.extractLsb'_zero
  rwa [hmask, BitVec.and_allOnes] at hand

/-- Two neighbouring ranges of bits make one. -/
theorem extract_append (w : Word) {hi lo : Nat} (len len' : Nat) (h : hi = lo + len) :
    w.extractLsb' hi len' ++ w.extractLsb' lo len = w.extractLsb' lo (len' + len) :=
  BitVec.extractLsb'_append_extractLsb'_eq_extractLsb' h

theorem wordAB_fields (w : Word) : wordAB (fieldOp w) (fieldA w) (fieldB w) = w :=
  (congrArg (fieldB w ++ ·) (extract_append w 8 8 rfl)).trans ((extract_append w 16 16 rfl).trans BitVec.extractLsb'_eq_self)

theorem wordX_fields (w : Word) : wordX (fieldB w) (fieldC w) = w :=
  (extract_append w 16 16 rfl).trans BitVec.extractLsb'_eq_self

theorem wordN_fields (h : w &&& reservedMask .n = 0) : wordN (fieldOp w) = w := by
  have hz : w.extractLsb' 8 24 = 0 := extract_eq_zero_of_reserved h (by decide)
  rw [wordN, ← hz]
  exact (extract_append w 8 24 rfl).trans BitVec.extractLsb'_eq_self

theorem wordA_fields (h : w &&& reservedMask .a = 0) : wordA (fieldOp w) (fieldA w) = w := by
  have hz : fieldB w = 0 := extract_eq_zero_of_reserved h (by decide)
  rw [wordA, ← hz]
  exact wordAB_fields w

theorem wordA7_fields (h : w &&& reservedMask .a7 = 0) : wordA7 (fieldOp w) (fieldA7 w) = w := by
  have hz : w.extractLsb' 15 17 = 0 := extract_eq_zero_of_reserved h (by decide)
  rw [wordA7, ← hz]
  exact (congrArg (w.extractLsb' 15 17 ++ ·) (extract_append w 8 7 rfl)).trans
    ((extract_append w 15 17 rfl).trans BitVec.extractLsb'_eq_self)

theorem wordAB8_fields (h : w &&& 0xFF000000 = 0) : wordAB8 (fieldOp w) (fieldA w) (fieldB8 w) = w := by
  have hz : w.extractLsb' 24 8 = 0 := extract_eq_zero_of_reserved h (by decide)
  have hb : ((0 : Byte) ++ fieldB8 w : Half) = fieldB w := hz ▸ extract_append w 8 8 rfl
  rw [wordAB8, hb]
  exact wordAB_fields w

theorem wordB_fields (h : w &&& 0x0000FF00 = 0) : wordB (fieldOp w) (fieldB w) = w := by
  have hz : fieldA w = 0 := extract_eq_zero_of_reserved h (by decide)
  rw [wordB, ← hz]
  exact wordAB_fields w

theorem wordX_zero_fields (h : w &&& 0xFFFF0000 = 0) : wordX 0 (fieldC w) = w := by
  have hz : fieldB w = 0 := extract_eq_zero_of_reserved h (by decide)
  rw [← hz]
  exact wordX_fields w

/-- A base word with an assigned opcode and its extension words, all there and with no reserved bit set. -/
structure LegalWords (f : Format) (w : Word) (ext : List Word) : Prop where
  format : formatOf (fieldOp w) = some f
  base : w &&& reservedMask f = 0
  exts : ∀ e ∈ ext, e &&& extReservedMask f = 0
  length : ext.length = extCount w

namespace LegalWords

variable {f f' : Format} {op : Byte}

/-- The format is the opcode's. -/
theorem of_opcode (h : LegalWords f w ext) (hop : (fieldOp w).toNat = op.toNat) (hf : formatOf op = some f') :
    fieldOp w = op ∧ LegalWords f' w ext := by
  obtain rfl : fieldOp w = op := BitVec.eq_of_toNat_eq hop
  obtain rfl : f = f' := Option.some.inj (h.format.symm.trans hf)
  exact ⟨rfl, h⟩

/-- The base word alone, in a format without extension words. -/
theorem single (h : LegalWords f w ext) (hn : extCount w = 0) : [w] = w :: ext := by
  rw [List.length_eq_zero_iff.mp (h.length.trans hn)]

theorem eq_wordN (h : LegalWords f w ext) (hop : (fieldOp w).toNat = op.toNat) (hf : formatOf op = some .n) :
    [wordN op] = w :: ext := by
  obtain ⟨rfl, h⟩ := h.of_opcode hop hf
  rw [wordN_fields h.base, h.single (by simp [extCount, hf])]

theorem eq_wordA (h : LegalWords f w ext) (hop : (fieldOp w).toNat = op.toNat) (hf : formatOf op = some .a) :
    [wordA op (fieldA w)] = w :: ext := by
  obtain ⟨rfl, h⟩ := h.of_opcode hop hf
  rw [wordA_fields h.base, h.single (by simp [extCount, hf])]

theorem eq_wordA7 (h : LegalWords f w ext) (hop : (fieldOp w).toNat = op.toNat) (hf : formatOf op = some .a7) :
    [wordA7 op (fieldA7 w)] = w :: ext := by
  obtain ⟨rfl, h⟩ := h.of_opcode hop hf
  rw [wordA7_fields h.base, h.single (by simp [extCount, hf])]

theorem eq_wordAB (h : LegalWords f w ext) (hop : (fieldOp w).toNat = op.toNat) (hf : formatOf op = some .ab) :
    [wordAB op (fieldA w) (fieldB w)] = w :: ext := by
  obtain ⟨rfl, h⟩ := h.of_opcode hop hf
  rw [wordAB_fields, h.single (by simp [extCount, hf])]

theorem eq_wordAB8 (h : LegalWords f w ext) (hop : (fieldOp w).toNat = op.toNat) (hf : formatOf op = some .ab8) :
    [wordAB8 op (fieldA w) (fieldB8 w)] = w :: ext := by
  obtain ⟨rfl, h⟩ := h.of_opcode hop hf
  rw [wordAB8_fields h.base, h.single (by simp [extCount, hf])]

theorem eq_wordB (h : LegalWords f w ext) (hop : (fieldOp w).toNat = op.toNat) (hf : formatOf op = some .b) :
    [wordB op (fieldB w)] = w :: ext := by
  obtain ⟨rfl, h⟩ := h.of_opcode hop hf
  rw [wordB_fields h.base, h.single (by simp [extCount, hf])]

/-- The one extension word of format E. -/
theorem ext_eq_singleton (h : LegalWords f w ext) (hn : extCount w = 1) : ext = [ext.headD 0] := by
  obtain ⟨e, rfl⟩ := List.length_eq_one_iff.mp (h.length.trans hn)
  rfl

/-- EVCFG2's two words (R79). -/
theorem eq_wordE2 (h : LegalWords f w ext) (hop : (fieldOp w).toNat = op.toNat) (hf : formatOf op = some .e2) :
    [wordB op (fieldB w), wordX 0 (fieldC (ext.headD 0))] = w :: ext := by
  obtain ⟨rfl, h⟩ := h.of_opcode hop hf
  have hext := h.ext_eq_singleton (by simp [extCount, hf])
  have hlegal : ext.headD 0 &&& extReservedMask .e2 = 0 := h.exts _ (by rw [hext]; exact List.mem_singleton_self _)
  rw [wordB_fields h.base, wordX_zero_fields hlegal, ← hext]

/-- EVCFG3's two words (R79). -/
theorem eq_wordE3 (h : LegalWords f w ext) (hop : (fieldOp w).toNat = op.toNat) (hf : formatOf op = some .e3) :
    [wordB op (fieldB w), wordX (fieldB (ext.headD 0)) (fieldC (ext.headD 0))] = w :: ext := by
  obtain ⟨rfl, h⟩ := h.of_opcode hop hf
  rw [wordB_fields h.base, wordX_fields, ← h.ext_eq_singleton (by simp [extCount, hf])]

/-- CHSPWM's words: the count as sent is the number of extension words, which hold the amounts (R78). -/
theorem length_eq_count (h : LegalWords f w ext) (hop : (fieldOp w).toNat = op.toNat) (hf : formatOf op = some .m) :
    ext.length = (fieldB8 w).toNat := by
  obtain ⟨rfl, h⟩ := h.of_opcode hop hf
  simpa [extCount, hf] using h.length

theorem eq_wordM (h : LegalWords f w ext) (hop : (fieldOp w).toNat = op.toNat) (hf : formatOf op = some .m) :
    wordAB8 op (fieldA w) (BitVec.ofNat 8 (ext.map fieldC).length) :: (ext.map fieldC).map (wordX 0) = w :: ext := by
  have hcount : BitVec.ofNat 8 (ext.map fieldC).length = fieldB8 w := by
    rw [List.length_map, h.length_eq_count hop hf, BitVec.ofNat_toNat, BitVec.setWidth_eq]
  obtain ⟨rfl, h⟩ := h.of_opcode hop hf
  have hexts : (ext.map fieldC).map (wordX 0) = ext := by
    rw [List.map_map]
    exact (List.map_congr_left fun e he => wordX_zero_fields (h.exts e he)).trans (List.map_id' ext)
  rw [hcount, wordAB8_fields h.base, hexts]

/-- The opcodes of the map one by one (R81): a command read from legal words is encoded in these words. -/
theorem encode_commandOf {i : Instr} (h : LegalWords f w ext) (hi : commandOf w ext = some i) :
    i.wellFormed = true ∧ encode i = w :: ext := by
  unfold commandOf at hi
  split at hi <;> cases hi
  next hop => exact ⟨rfl, h.eq_wordAB8 (op := 0x01) hop rfl⟩
  next hop => exact ⟨rfl, h.eq_wordA (op := 0x02) hop rfl⟩
  next hop => exact ⟨rfl, h.eq_wordN (op := 0x10) hop rfl⟩
  next hop => exact ⟨rfl, h.eq_wordAB8 (op := 0x11) hop rfl⟩
  next hop => exact ⟨rfl, h.eq_wordA7 (op := 0x12) hop rfl⟩
  next hop => exact ⟨rfl, h.eq_wordB (op := 0x13) hop rfl⟩
  next hop => exact ⟨rfl, h.eq_wordA (op := 0x14) hop rfl⟩
  next hop => exact ⟨rfl, h.eq_wordA (op := 0x15) hop rfl⟩
  next hop => exact ⟨rfl, h.eq_wordA (op := 0x16) hop rfl⟩
  next hop => exact ⟨rfl, h.eq_wordA (op := 0x17) hop rfl⟩
  next hop => exact ⟨rfl, h.eq_wordN (op := 0x18) hop rfl⟩
  next hop => exact ⟨rfl, h.eq_wordN (op := 0x19) hop rfl⟩
  next hop => exact ⟨rfl, h.eq_wordN (op := 0x1A) hop rfl⟩
  next hop => exact ⟨rfl, h.eq_wordN (op := 0x1B) hop rfl⟩
  next hop => exact ⟨rfl, h.eq_wordN (op := 0x1C) hop rfl⟩
  next hop => exact ⟨rfl, h.eq_wordN (op := 0x1D) hop rfl⟩
  next hop => exact ⟨rfl, h.eq_wordN (op := 0x1E) hop rfl⟩
  next hop => exact ⟨rfl, h.eq_wordN (op := 0x1F) hop rfl⟩
  next hop => exact ⟨rfl, h.eq_wordAB (op := 0x20) hop rfl⟩
  next hop => exact ⟨rfl, h.eq_wordA (op := 0x30) hop rfl⟩
  next hop => exact ⟨rfl, h.eq_wordA (op := 0x31) hop rfl⟩
  next hop => exact ⟨rfl, h.eq_wordAB (op := 0x32) hop rfl⟩
  next hop =>
    have hlen : (ext.map fieldC).length ≤ 255 := by
      rw [List.length_map, h.length_eq_count (op := 0x33) hop rfl]
      omega
    exact ⟨decide_eq_true hlen, h.eq_wordM (op := 0x33) hop rfl⟩
  next hop => exact ⟨rfl, h.eq_wordB (op := 0x34) hop rfl⟩
  next hop => exact ⟨rfl, h.eq_wordA (op := 0x35) hop rfl⟩
  next hop => exact ⟨rfl, h.eq_wordE2 (op := 0x40) hop rfl⟩
  next hop => exact ⟨rfl, h.eq_wordE3 (op := 0x41) hop rfl⟩
  next hop => exact ⟨rfl, h.eq_wordB (op := 0x42) hop rfl⟩

end LegalWords

/-- A legal word sequence begins with the encoding of the command it decodes to (R85). -/
theorem decode_command {ws : List Word} {i : Instr} {len : Nat} (h : decode ws = .command i len) :
    i.wellFormed = true ∧ ws.take len = encode i ∧ len = (encode i).length := by
  rcases decode_cases ws with hinc | ⟨w, ext, rest, rfl, hlen, hdec⟩
  · rw [hinc] at h; cases h
  · rw [h] at hdec
    cases hdec with
    | command hf hw he hi =>
      obtain ⟨hwf, henc⟩ := LegalWords.encode_commandOf ⟨hf, hw, he, hlen⟩ hi
      have hcount : 1 + extCount w = (w :: ext).length := by rw [List.length_cons, hlen, Nat.add_comm]
      exact ⟨hwf, by rw [henc, hcount, ← List.cons_append, List.take_left], by rw [henc, hcount]⟩

/-- Settles O1: by the format of the command's base word. -/
theorem decodeInvertsEncode : Obligations.DecodeInvertsEncode := decode_encode

/-- Settles O2: a word with no reserved bit set is rebuilt from its opcode and its fields. -/
theorem legalWordsAreEncodings : Obligations.LegalWordsAreEncodings := fun _ _ _ => decode_command

/-- Settles O5. -/
theorem specWordsDecode : Obligations.SpecWordsDecode := by
  unfold Obligations.SpecWordsDecode
  decide

end Sys2Proof
end

section
/-! SUPPORT. O3 and O4: which words are illegal, and why. -/

namespace Sys2Proof

/-- An unassigned opcode has no extension words (R88). -/
theorem extCount_of_unassigned {w : Word} (hf : formatOf (fieldOp w) = none) : extCount w = 0 := by
  simp [extCount, hf]

theorem decode_unassigned {w : Word} (hf : formatOf (fieldOp w) = none) (rest : List Word) :
    decode (w :: rest) = .illegal .unassignedOpcode 1 := by
  have hwhole : decode (w :: rest) = decodeWhole w [] := decode_cons (ext := []) (extCount_of_unassigned hf).symm
  rw [hwhole]
  simp only [decodeWhole, hf]

/-- Only an unassigned opcode is illegal for its opcode (R83). -/
theorem formatOf_of_decode_unassigned {w : Word} {rest : List Word} {len : Nat}
    (h : decode (w :: rest) = .illegal .unassignedOpcode len) : formatOf (fieldOp w) = none := by
  rcases decode_cases (w :: rest) with hinc | ⟨w', ext, rest', hws, -, hdec⟩
  · rw [h] at hinc; cases hinc
  · cases hws
    rw [h] at hdec
    cases hdec with
    | unassigned hf => exact hf

/-- Settles O3: the words of no format are those of the unassigned opcodes. -/
theorem unassignedOpcodesAreIllegal : Obligations.UnassignedOpcodesAreIllegal := fun w rest =>
  ⟨fun h => decode_unassigned ((formatOf_eq_none_iff (fieldOp w)).mpr h) rest,
    fun h _ hd => h ((formatOf_eq_none_iff (fieldOp w)).mp (formatOf_of_decode_unassigned hd))⟩

/-- With a reserved bit set only the two illegal outcomes are left (R82). -/
theorem DecodesTo.illegal_of_reserved {w : Word} {ext : List Word} {d : Decoded} {f : Format} (h : DecodesTo w ext d)
    (hf : formatOf (fieldOp w) = some f) (hres : w &&& reservedMask f ≠ 0 ∨ ∃ e ∈ ext, e &&& extReservedMask f ≠ 0) :
    ∃ why, d = .illegal why (1 + extCount w) := by
  cases h with
  | unassigned hnone => rw [hf] at hnone; cases hnone
  | reservedBase => exact ⟨_, rfl⟩
  | reservedExt => exact ⟨_, rfl⟩
  | command hf' hw he hi =>
    obtain rfl : f = _ := Option.some.inj (hf.symm.trans hf')
    rcases hres with hbase | ⟨e, hmem, hext⟩
    · exact absurd hw hbase
    · exact absurd (he e hmem) hext

/-- Settles O4: all words of the command are there, so it is decided, with its full length. -/
theorem reservedBitsAreIllegal : Obligations.ReservedBitsAreIllegal := by
  intro w ext rest f hf hlen hres
  rw [decode_cons hlen, hlen]
  exact (decodesTo_decodeWhole w ext).illegal_of_reserved hf hres

end Sys2Proof
end

section
/-! SUPPORT. O7 and O8: an illegal command, and a command whose words are not all there. -/

namespace Sys2Proof

/-- A decided command, legal or not, takes its base word and all of its extension words (R76, R88). -/
theorem DecodesTo.length_eq {w : Word} {ext : List Word} {d : Decoded} {len : Nat} (hd : DecodesTo w ext d)
    (h : (∃ i, d = .command i len) ∨ ∃ why, d = .illegal why len) : len = 1 + extCount w := by
  cases hd with
  | unassigned hf =>
    obtain ⟨_, ⟨⟩⟩ | ⟨_, ⟨⟩⟩ := h
    rw [extCount_of_unassigned hf]
  | _ =>
    obtain ⟨_, ⟨⟩⟩ | ⟨_, ⟨⟩⟩ := h
    rfl

theorem length_of_decode {w : Word} {rest : List Word} {len : Nat}
    (h : (∃ i, decode (w :: rest) = .command i len) ∨ ∃ why, decode (w :: rest) = .illegal why len) :
    len = 1 + extCount w := by
  rcases decode_cases (w :: rest) with hinc | ⟨w', ext, rest', hws, -, hdec⟩
  · simp [hinc] at h
  · cases hws
    exact hdec.length_eq h

theorem ne_nil_of_decode {ws : List Word} (h : decode ws ≠ .incomplete) : ws ≠ [] := by
  rintro rfl
  exact h rfl

/-- Words that end before their command does are all words of that command (R254). -/
theorem length_le_of_incomplete {ws more : List Word} {len : Nat} (hinc : decode ws = .incomplete)
    (h : (∃ i, decode (ws ++ more) = .command i len) ∨ ∃ why, decode (ws ++ more) = .illegal why len) : ws.length ≤ len := by
  cases ws with
  | nil => exact Nat.zero_le _
  | cons w rest =>
    have hlen := length_of_decode (rest := rest ++ more) h
    by_contra hlt
    have hall : ¬ rest.length < extCount w := by
      rw [List.length_cons] at hlt
      omega
    have hdec := decodesTo_decodeWhole w (rest.take (extCount w))
    rw [decode, if_neg hall] at hinc
    rw [hinc] at hdec
    cases hdec

end Sys2Proof

namespace Sys2Proof.Machine

variable {s t : State}

/-! ## A step of a PBE that takes words -/

section Taking

variable (hr : s.resetIn ≠ .now) (hb : s.blocked = false)

include hr hb

theorem step_of_incomplete (hne : s.wordsAhead ≠ []) (hd : decode s.wordsAhead = .incomplete) : step s = .next s.awaitWords := by
  simp [step, intake, hr, hb, hne, hd]

theorem step_of_illegal {why : Illegal} {len : Nat} (hd : decode s.wordsAhead = .illegal why len) :
    step s = .next ((s.accept len).raiseMisuse .illegalCommand true) := by
  have hne := ne_nil_of_decode (ws := s.wordsAhead) (by simp [hd])
  simp [step, intake, hr, hb, hne, hd]

theorem step_of_command {i : Instr} {len : Nat} (hd : decode s.wordsAhead = .command i len) : step s = exec i (s.accept len) := by
  have hne := ne_nil_of_decode (ws := s.wordsAhead) (by simp [hd])
  simp [step, intake, hr, hb, hne, hd]

end Taking

/-- A PBE between two commands: nothing keeps the next step from taking the words at CP (R70). -/
structure State.Ready (s : State) : Prop where
  resetIn : s.resetIn ≠ .now
  stall : s.stall = none
  busy : s.busy = false
  taken : s.taken = []

namespace State.Ready

variable (h : s.Ready)

include h

theorem blocked : s.blocked = false := by simp [State.blocked, h.stall, h.busy]

theorem wordsAhead : s.wordsAhead = s.stream.drop s.cp := by simp [State.wordsAhead, h.taken]

theorem accept (len : Nat) : s.accept len = { s with cp := s.cp + len, busy := true } := by simp [State.accept, h.taken]

theorem send (words : List Word) : (s.send words).Ready := ⟨h.resetIn, h.stall, h.busy, h.taken⟩

/-- An illegal command's Misuse, with BUSY as before the step (R84, R223). -/
theorem illegalRun (len : Nat) :
    MisuseRun { s with cp := s.cp + len } ((s.accept len).raiseMisuse .illegalCommand true) .illegalCommand true := by
  obtain ⟨hrest, hresult⟩ := raiseMisuse_run (s.accept len) .illegalCommand true
  rw [h.accept] at hrest hresult ⊢
  exact ⟨hrest, hresult⟩

/-- The words there are, taken or not, are no command yet: the step takes them and waits (R254). -/
theorem step_waits (hcp : s.cp < s.stream.length) (hd : decode (s.stream.drop s.cp) = .incomplete) :
    step s = .next s.awaitWords := by
  have hne : s.wordsAhead ≠ [] := by
    rw [h.wordsAhead, ne_eq, List.drop_eq_nil_iff]
    omega
  exact step_of_incomplete h.resetIn h.blocked hne (h.wordsAhead ▸ hd)

theorem step_raises {why : Illegal} {len : Nat} (hd : decode (s.stream.drop s.cp) = .illegal why len) :
    step s = .next ((s.accept len).raiseMisuse .illegalCommand true) :=
  step_of_illegal h.resetIn h.blocked (h.wordsAhead ▸ hd)

end State.Ready

/-! ## A PBE that waits for words, and the words the host sends it (R254) -/

section Waiting

variable (hcp : s.cp ≤ s.stream.length) (more : List Word)

include hcp

theorem awaitWords_cp : s.awaitWords.cp = s.stream.length := by
  rw [State.awaitWords_cp, List.length_drop]
  omega

theorem send_wordsAhead : (s.send more).wordsAhead = s.wordsAhead ++ more := by
  simp [State.wordsAhead, State.send, List.drop_append_of_le_length hcp]

theorem awaitWords_send_wordsAhead : (s.awaitWords.send more).wordsAhead = (s.send more).wordsAhead := by
  rw [send_wordsAhead hcp, send_wordsAhead (awaitWords_cp hcp).le, State.wordsAhead, awaitWords_cp hcp]
  simp

/-- Waiting again is waiting for all the words so far. -/
theorem awaitWords_send_awaitWords : (s.awaitWords.send more).awaitWords = (s.send more).awaitWords := by
  have hlen : s.stream.length ≤ (s.send more).stream.length := by simp [State.send]
  have hend : (s.awaitWords.send more).awaitWords.cp = (s.send more).awaitWords.cp :=
    (awaitWords_cp (s := s.awaitWords.send more) ((awaitWords_cp hcp).le.trans hlen)).trans
      (awaitWords_cp (s := s.send more) (hcp.trans hlen)).symm
  exact congrArg₂ (fun cp taken => ({ s.send more with cp := cp, taken := taken, busy := true } : State)) hend
    (awaitWords_send_wordsAhead hcp more)

/-- The words taken while waiting are words of the command. -/
theorem awaitWords_send_accept {len : Nat} (hlen : s.wordsAhead.length ≤ len) :
    (s.awaitWords.send more).accept len = (s.send more).accept len := by
  have hwords : s.wordsAhead.length = s.taken.length + (s.stream.length - s.cp) := by simp [State.wordsAhead]
  have hend : ((s.awaitWords.send more).accept len).cp = ((s.send more).accept len).cp := by
    show s.awaitWords.cp + (len - s.wordsAhead.length) = s.cp + (len - s.taken.length)
    rw [awaitWords_cp hcp]
    omega
  exact congrArg (fun cp => ({ s.send more with cp := cp, taken := [], busy := true } : State)) hend

end Waiting

/-- A PBE that waits for the rest of a command goes on as if all the words so far had been there at once (R254). -/
theorem State.Ready.step_awaitWords_send (h : s.Ready) (hcp : s.cp < s.stream.length)
    (hd : decode (s.stream.drop s.cp) = .incomplete) (more : List Word) :
    step (s.awaitWords.send more) = step (s.send more) := by
  have hready := h.send more
  have hwords := awaitWords_send_wordsAhead hcp.le more
  have hahead : (s.send more).wordsAhead = s.stream.drop s.cp ++ more := by rw [send_wordsAhead hcp.le, h.wordsAhead]
  have hne : s.stream.drop s.cp ≠ [] := by
    rw [ne_eq, List.drop_eq_nil_iff]
    omega
  have hblocked : (s.awaitWords.send more).blocked = false := by
    simp [State.blocked, State.send, h.stall, h.wordsAhead, hcp]
  have haccept {len : Nat} (hlen : (s.stream.drop s.cp).length ≤ len) :
      (s.awaitWords.send more).accept len = (s.send more).accept len :=
    awaitWords_send_accept hcp.le more (h.wordsAhead ▸ hlen)
  cases hdec : decode (s.stream.drop s.cp ++ more) with
  | incomplete =>
    rw [step_of_incomplete (s := s.awaitWords.send more) h.resetIn hblocked (by simp [hwords, hahead, hne])
        (by rw [hwords, hahead, hdec]),
      step_of_incomplete hready.resetIn hready.blocked (by simp [hahead, hne]) (by rw [hahead, hdec]),
      awaitWords_send_awaitWords hcp.le]
  | illegal why len =>
    rw [step_of_illegal (s := s.awaitWords.send more) h.resetIn hblocked (by rw [hwords, hahead, hdec]),
      step_of_illegal hready.resetIn hready.blocked (by rw [hahead, hdec]),
      haccept (length_le_of_incomplete hd (.inr ⟨why, hdec⟩))]
  | command i len =>
    rw [step_of_command (s := s.awaitWords.send more) h.resetIn hblocked (by rw [hwords, hahead, hdec]),
      step_of_command hready.resetIn hready.blocked (by rw [hahead, hdec]),
      haccept (length_le_of_incomplete hd (.inl ⟨i, hdec⟩))]

/-- A waiting PBE does not move by itself. -/
theorem State.Ready.step_awaitWords (h : s.Ready) (hcp : s.cp < s.stream.length)
    (hd : decode (s.stream.drop s.cp) = .incomplete) : step s.awaitWords = .next s.awaitWords := by
  have hnone (u : State) : u.send [] = u := by simp [State.send]
  have hstep := h.step_awaitWords_send hcp hd []
  rwa [hnone, hnone, h.step_waits hcp hd] at hstep

end Sys2Proof.Machine

namespace Sys2Proof

open Machine

/-- Settles O7: a ready PBE takes the command's words and raises the Misuse. -/
theorem illegalCommandRaisesMisuse : Obligations.IllegalCommandRaisesMisuse := by
  intro s why len hr hstall hbusy htaken hd
  have h : s.Ready := ⟨hr, hstall, hbusy, htaken⟩
  exact ⟨_, h.step_raises hd, h.illegalRun len⟩

/-- Settles O8: after any more words the waiting PBE steps as a ready one does with all the words there, which waits again, runs the
command, or raises IllegalCommand. -/
theorem unfinishedCommandWaitsForItsWords : Obligations.UnfinishedCommandWaitsForItsWords := by
  intro s hr hstall hbusy htaken hcp hd
  have h : s.Ready := ⟨hr, hstall, hbusy, htaken⟩
  have hsent (more : List Word) : (s.send more).stream.drop (s.send more).cp = s.stream.drop s.cp ++ more :=
    List.drop_append_of_le_length hcp.le
  refine ⟨s.awaitWords, h.step_waits hcp hd, awaitWords_cp hcp.le, rfl, rfl, rfl, h.step_awaitWords hcp hd,
    fun more hinc => ?_, fun more i len hdec => ?_, fun more why len hdec => ?_⟩
  all_goals rw [h.step_awaitWords_send hcp hd more]
  · have hready := h.send more
    have hlt : (s.send more).cp < (s.send more).stream.length := hcp.trans_le (by simp [State.send])
    rw [← hsent more] at hinc
    exact ⟨rfl, _, hready.step_waits hlt hinc, awaitWords_cp hlt.le, rfl, rfl, rfl, rfl, hready.step_awaitWords hlt hinc⟩
  · exact stepRunsDecodedCommand (s.send more) i len hr hstall hbusy htaken (by rw [hsent, hdec])
  · exact illegalCommandRaisesMisuse (s.send more) why len hr hstall hbusy htaken (by rw [hsent, hdec])

end Sys2Proof
end

section
/-! SUPPORT. O22, O24 and O39: commands that run to their end on the bus, with their sequences of actions. -/

namespace Sys2Proof.Machine

open Claims

variable {s t : State} {i : Instr} {evs : List BusEvent} {actions actions' : List Action}

/-! ## A sequence of register accesses, access by access -/

/-- From `s` some entries `evs` were recorded, the last status among them in LASTERR; the operation then runs to its end with the bus
actions `actions`, and reads no byte. -/
def Bus.Extends (s : State) (evs : List BusEvent) (actions : List Action) (x : Bus Unit) : Prop :=
  ∃ t evs', x = .done () t ∧ BusSpan s t (evs ++ evs') ∧ evs'.map BusEvent.action = actions ∧ bytesRead evs' = []

theorem Bus.Extends.andThen {x : Bus Unit} {k : Unit → State → Bus Unit} (hx : x.Extends s evs actions)
    (hk : ∀ t evs', BusSpan s t evs' → (k () t).Extends s evs' actions') : (x.andThen k).Extends s evs (actions ++ actions') := by
  obtain ⟨t, e₁, rfl, hspan, ha, hb⟩ := hx
  obtain ⟨u, e₂, hu, hspan', ha', hb'⟩ := hk t _ hspan
  exact ⟨u, e₁ ++ e₂, hu, by rwa [← List.append_assoc], by simp [ha, ha'], by simp [hb, hb']⟩

theorem Bus.Extends.done (h : BusSpan s t evs) : (Bus.done () t).Extends s evs [] :=
  ⟨t, [], rfl, by rwa [List.append_nil], rfl, rfl⟩

theorem Bus.Extends.ite {c : Prop} [Decidable c] {x y : Bus Unit} (hx : x.Extends s evs actions) (hy : y.Extends s evs actions') :
    (if c then x else y).Extends s evs (if c then actions else actions') := by
  split
  · exact hx
  · exact hy

theorem BusSpan.sameHandle (h : BusSpan s t evs) : SameHandle s t := by
  rw [h.rest]
  exact ⟨rfl, rfl, rfl⟩

theorem writeReg_extends (h : BusSpan s t evs) {reg v v' : Byte} (hv : v = v') :
    (writeReg reg v t).Extends s evs (sends s.addr [reg, v']) := by
  obtain ⟨u, evs', hu, hspan, ha, hb⟩ := writeReg_runs reg v h.runsOn
  exact ⟨u, evs', hu, h.trans hspan, by rw [ha, h.addr, hv], hb⟩

theorem waitUs_extends (h : BusSpan s t evs) (us : Nat) : (waitUs us t).Extends s evs [.wait us] :=
  ⟨t.log (.wait us), [.wait us], waitUs_uncut us h.runsOn.2, h.wait us, rfl, rfl⟩

/-- The end of SETFREQ and ENEXTCLK: a wait, and a last write if the byte read had SLEEP = 0 (R126, R138). -/
theorem waitThenRestart_extends (h : BusSpan s t evs) (old : Byte) (v : Config → Byte) :
    ((waitUs 500 t).andThen fun _ s =>
      if old &&& sleepMask s.cfg = 0 then writeReg regMode1 (v s.cfg) s else .done () s).Extends s evs
      ([.wait 500] ++ if old &&& sleepMask s.cfg = 0 then sends s.addr [0x00, v s.cfg] else []) :=
  (waitUs_extends h 500).andThen fun u evs' hu => by
    rw [hu.sameHandle.cfg]
    exact (writeReg_extends hu rfl).ite (.done hu)

/-- A command's read of MODE1, and then a rest whose actions depend on the byte read. -/
theorem readMode1_then {k : Byte → State → Bus Unit} {rest : Byte → List Action} (h : s.RunsThrough)
    (hk : ∀ old t evs, BusSpan s t evs → (k old t).Extends s evs (rest old)) :
    ∃ t evs old, (readReg regMode1 s).andThen k = .done () t ∧ BusSpan s t evs ∧ bytesRead evs = [old] ∧
      evs.map BusEvent.action = reads s.addr 0x00 ++ rest old := by
  obtain ⟨old, t, e₁, ht, hspan, ha, hb⟩ := readReg_runs regMode1 h
  obtain ⟨u, e₂, hu, hspan', ha', hb'⟩ := hk old t e₁ hspan
  exact ⟨u, e₁ ++ e₂, old, by rw [ht, Bus.andThen_done, hu], hspan', by simp [hb, hb'], by rw [List.map_append, ha, ha']; rfl⟩

/-! ## The commands -/

/-- SETFREQ's sequence (R126). -/
theorem setfreqBody_sequence (hz : Half) (h : s.RunsThrough) :
    ∃ t evs old, setfreqBody hz s = .done () t ∧ BusSpan s t evs ∧ bytesRead evs = [old] ∧
      evs.map BusEvent.action = reads s.addr 0x00 ++ (sends s.addr [0x00, old ||| sleepMask s.cfg] ++
        (sends s.addr [0xFE, BitVec.ofInt 8 (prescale (hzOf hz))] ++ (sends s.addr [0x00, old] ++ ([.wait 500] ++
          if old &&& sleepMask s.cfg = 0 then sends s.addr [0x00, old ||| restartMask s.cfg] else [])))) :=
  readMode1_then h fun old _ _ hspan =>
    (writeReg_extends hspan (by rw [hspan.sameHandle.cfg])).andThen fun _ _ hspan =>
      (writeReg_extends hspan rfl).andThen fun _ _ hspan => (writeReg_extends hspan rfl).andThen fun _ _ hspan =>
        waitThenRestart_extends hspan old fun cfg => old ||| restartMask cfg

/-- INIT's two writes (R120). -/
theorem initBody_runs (mode : Byte) (h : s.RunsThrough) :
    ∃ t evs, initBody mode s = .done () t ∧ BusSpan s t evs ∧
      evs.map BusEvent.action = sends s.addr [0x00, restartMask s.cfg ||| aiMask s.cfg] ++ sends s.addr [0x01, mode] := by
  obtain ⟨t, e₁, ht, hspan, ha, -⟩ := writeReg_runs regMode1 (restartMask s.cfg ||| aiMask s.cfg) h
  obtain ⟨u, e₂, hu, hspan', ha', -⟩ := writeReg_extends hspan (reg := regMode2) (v := mode) rfl
  exact ⟨u, e₁ ++ e₂, by rw [initBody, ht, Bus.andThen_done, hu], hspan', by rw [List.map_append, ha, ha']; rfl⟩

/-- A command that addresses a bound handle completes with the actions of its body (R219). -/
theorem completesWith_onHandle {vr : Bool} {body : State → Bus Unit} (he : exec i s = onHandle vr s body) (hb : s.bound = true)
    (hbody : s.RunsThrough → ∃ t evs, body s = .done () t ∧ BusSpan s t evs ∧ evs.map BusEvent.action = actions) :
    CompletesWith i s id actions := by
  intro hrun
  obtain ⟨t, evs, ht, hspan, ha⟩ := hbody hrun
  exact ⟨t.complete, evs, by rw [he, onHandle_bound _ _ hb, ht, Bus.finish_done], hspan.finish, ha⟩

theorem writeWindow_runs (base : Byte) (w : Window) (h : s.RunsThrough) :
    ∃ t evs, writeWindow base w s = .done () t ∧ BusSpan s t evs ∧
      evs.map BusEvent.action = sends s.addr (base :: windowBytes s.cfg.swappedRegs w) := by
  obtain ⟨t, evs, ht, hspan, ha, -⟩ := memWrite_runs base (windowBytes s.cfg.swappedRegs w) h
  exact ⟨t, evs, ht, hspan, ha⟩

/-- The all-channel window of an amount operand as sent (R80, R159). -/
theorem allWindow_amountOf (amt : Half) :
    allWindow (amountOf amt) =
      if amt.toNat = 0 then ⟨0x0000, 0x1000⟩ else if 4096 ≤ amt.toNat then ⟨0x1000, 0x0000⟩ else ⟨0, BitVec.ofNat 13 amt.toNat⟩ := by
  unfold allWindow amountOf
  rcases Nat.lt_or_ge amt.toNat 4096 with hlt | hge
  · rw [Nat.min_eq_left hlt.le, if_neg (Nat.ne_of_lt hlt), if_neg (Nat.not_le.mpr hlt)]
    rfl
  · rw [Nat.min_eq_right hge, if_pos hge, if_neg (show ¬ amt.toNat = 0 by omega)]
    rfl

end Sys2Proof.Machine

namespace Sys2Proof

open Machine

/-- Settles O22: INIT's two writes from the state with the new handle. -/
theorem initBindsAndWritesModeRegisters : Obligations.InitBindsAndWritesModeRegisters := by
  intro off mode s a hrun
  obtain ⟨t, evs, ht, hspan, ha⟩ := initBody_runs (s := s.bindDirect off) mode hrun
  refine ⟨t.complete, evs, ?_, hspan.finish, ha⟩
  show (initBody mode (s.bindDirect off)).finish = _
  rw [ht, Bus.finish_done]

/-- Settles O24: the guards of a read-dependent command, and past them SETFREQ's sequence. -/
theorem setfreqSequence : Obligations.SetfreqSequence := by
  intro hz s
  refine ⟨readGuards_of_readDependent rfl s, fun hb hp => ?_⟩
  simp only [List.append_assoc]
  exact readsMode1Then_onDirect rfl hb hp (setfreqBody_sequence hz)

/-- Settles O39: ALLPWM is one transmission of the all-channel window. -/
theorem allpwmSendsTheAllWindow : Obligations.AllpwmSendsTheAllWindow := by
  intro amt s
  refine ⟨fun hb => misuses_of_misuseOf (by rw [misuseOf_onHandle rfl rfl, if_pos hb]), fun hb => ?_⟩
  rw [← allWindow_amountOf]
  exact completesWith_onHandle rfl hb (writeWindow_runs allBase (allWindow (amountOf amt)))

end Sys2Proof
end

section
/-! SUPPORT. O30 and O49: commands that write their fields and use no bus. -/

namespace Sys2Proof

open Machine

/-- A boundary value widened to a half word stands under zeros (R94). -/
theorem setWidth_boundary (v : Boundary) : v.setWidth 16 = ((0 : BitVec 3) ++ v : BitVec 16) :=
  BitVec.setWidth_eq_append (by decide)

/-- Settles O30. -/
theorem phasewinReturnsTheWindow : Obligations.PhasewinReturnsTheWindow := by
  intro ch amt s
  show execPhasewin ch amt s = _
  rw [execPhasewin]
  simp only [setWidth_boundary]
  rfl

/-- Settles O49: the amounts are clamped as they are written. -/
theorem evcfgWritesTheEvaluator : Obligations.EvcfgWritesTheEvaluator := fun _ _ _ _ => ⟨rfl, rfl⟩

end Sys2Proof
end

section
/-! SUPPORT. O12 and O9: a command in an environment that answers completes, and a held PBE does not move. -/

namespace Sys2Proof.Machine

open Claims

variable {α : Type} {s : State}

/-- Only a reset or an environment that does not answer holds a bus operation; without either it runs to its end, and nothing stops the
sequencer after it. -/
theorem Bus.Plays.runsThrough {b₀ b₁ : BusState} {plan : List Held} {x : Bus α} (h : x.Plays b₀ b₁ plan s) (hrun : s.RunsThrough) :
    ∃ v t, x = .done v t ∧ t.stall = s.stall ∧ t.RunsThrough := by
  obtain ⟨hanswers, huncut⟩ := hrun
  cases x with
  | done v t =>
    obtain ⟨evs, -, -, hstall, hnext, -, hcount, -⟩ := h
    exact ⟨v, t, rfl, hstall, hnext hanswers, fun k hk => huncut _ ((hcount k).mp hk)⟩
  | hung t =>
    obtain ⟨evs, held, -, -, -, -, ⟨hreset, -⟩ | ⟨-, hsilent⟩, -⟩ := h
    · exact absurd hreset (huncut _)
    · exact absurd hanswers hsilent

theorem State.RunsThrough.atFirstPrimitive (h : s.RunsThrough) (i : Instr) : (atFirstPrimitive i s).RunsThrough :=
  ⟨(atFirstPrimitive_noStall i s).mpr h.1, h.2.of_eq (atFirstPrimitive_resetIn i s)⟩

/-- A blocked PBE takes no word (R70, R226). -/
theorem step_of_blocked (hr : s.resetIn ≠ .now) (hb : s.blocked = true) : step s = .next s := by
  simp [step, intake, hr, hb]

theorem blocked_of_held (h : s.stall ≠ none) : s.blocked = true := by
  simp [State.blocked, Option.isSome_iff_ne_none.mpr h]

end Sys2Proof.Machine

namespace Sys2Proof

open Machine Claims

/-- Settles O12: a command is a bus operation that does its plan, and nothing from outside stops it. -/
theorem answeringEnvironmentNeverHolds : Obligations.AnsweringEnvironmentNeverHolds := by
  intro i s hstall hrun
  obtain ⟨x, hx, hacts⟩ := exec_doesItsPlan i s
  obtain ⟨old, hold⟩ := exists_readsFirst (x.entries (atFirstPrimitive i s))
  obtain ⟨_, t, rfl, hkept, hrun'⟩ := (hacts old hold).plays.runsThrough (hrun.atFirstPrimitive i)
  rw [atFirstPrimitive_stall, hstall] at hkept
  exact ⟨t.complete, hx, hkept, rfl, hrun'⟩

/-- Settles O9: a held PBE is blocked, and a blocked one takes no word. -/
theorem heldPbeDoesNotMove : Obligations.HeldPbeDoesNotMove := fun _ hr hheld => step_of_blocked hr (blocked_of_held hheld)

end Sys2Proof
end

section
/-! SUPPORT. O18, O19 and O20: the register access commands, RDREG with a byte delivered and without one. -/

namespace Sys2Proof.Machine

variable {s t : State} {b : Byte} {later : List (Option Byte)}

/-! ## RDREG's end -/

/-- A byte as a word stands under zeros (R104). -/
theorem setWidth_byte (v : Byte) : (v.setWidth 32 : Word) = (0 : BitVec 24) ++ v := BitVec.setWidth_eq_append (by decide)

/-- A value put in RESULT after the register accesses. -/
theorem BusSpan.finish_setResult {evs : List BusEvent} (h : BusSpan s t evs) (v : Word) :
    BusRun { s with result := v } (t.setResult v).complete evs where
  trace := h.trace
  status := h.status
  rest := by
    conv_lhs => rw [h.rest]
    rfl

/-- RDREG on a direct handle puts the byte its read returns in RESULT (R104). -/
theorem execRdreg_direct {reg v : Byte} (hb : s.bound = true) (hp : s.proxy = false) (h : readReg reg s = .done v t) :
    exec (.rdreg reg) s = .next (t.setResult ((0 : BitVec 24) ++ v)).complete := by
  show execRdreg reg s = _
  rw [execRdreg, onDirect_direct _ _ hb hp, rdregBody, h, Bus.andThen_done, Bus.finish_done, setWidth_byte]

/-! ## Primitives that a script answers -/

theorem issue_scripted (p : BusPrim) (hu : s.Uncut) (he : s.env = .oracle (some b :: later)) :
    issue p s = .done b { s with env := .oracle later } := by
  rw [issue, startAction_uncut _ _ hu, ask, he]
  rfl

theorem txBegin_scripted (a : BusAddr) (hu : s.Uncut) (he : s.env = .oracle (some b :: later)) :
    txBegin a s = .done () ({ s with env := .oracle later, bus := .tx a 0 }.log (.txBegin a)) := by
  rw [txBegin, issue_scripted _ hu he, Bus.andThen_done]

theorem txWrite_scripted (v : Byte) (hu : s.Uncut) (he : s.env = .oracle (some b :: later)) :
    txWrite v s = .done () ({ s with env := .oracle later, bus := s.bus.queued }.log (.txWrite v (b.toNat % 2))) := by
  rw [txWrite, issue_scripted _ hu he, Bus.andThen_done]

theorem txEnd_scripted (hu : s.Uncut) (he : s.env = .oracle (some b :: later)) :
    txEnd s = .done () ({ s with env := .oracle later, bus := .idle, lastErr := b }.log (.txEnd b)) := by
  rw [txEnd, issue_scripted _ hu he, Bus.andThen_done]

theorem rxRequest_scripted (a : BusAddr) (n : Nat) (hu : s.Uncut) (he : s.env = .oracle (some b :: later)) :
    rxRequest a n s =
      .done (min b.toNat n) ({ s with env := .oracle later, bus := .rx a n }.log (.rxRequest a n (min b.toNat n))) := by
  rw [rxRequest, issue_scripted _ hu he, Bus.andThen_done]

/-- Of a byte that was not delivered the answer to RxRead says nothing (R100; log 13). -/
theorem rxRead_missing_scripted (hu : s.Uncut) (he : s.env = .oracle (some b :: later)) :
    rxRead true s = .done (Config.freeByte s.draws)
      ({ s with env := .oracle later, bus := s.bus.taken, draws := s.draws + 1 }.log (.rxRead (Config.freeByte s.draws))) := by
  rw [rxRead, issue_scripted _ hu he, Bus.andThen_done]
  rfl

/-- The address phase of a read (R103): its status goes to LASTERR (R98), and it uses no draw. -/
theorem transmit_register_scripted {b₀ b₁ b₂ : Byte} (a : BusAddr) (reg : Byte) (hu : s.Uncut)
    (he : s.env = .oracle (some b₀ :: some b₁ :: some b₂ :: later)) :
    transmit a [reg] s = .done () { s with
      env := .oracle later, bus := .idle, lastErr := b₂,
      trace := s.trace ++ [.txBegin a, .txWrite reg (b₁.toNat % 2), .txEnd b₂] } := by
  rw [transmit, txBegin_scripted a hu he, Bus.andThen_done, txWrites, txWrite_scripted reg (by exact hu) rfl, Bus.andThen_done,
    txWrites, Bus.andThen_done, txEnd_scripted (by exact hu) rfl, Bus.inBurst_done]
  simp [State.log]

/-- A read whose request delivers no byte returns a draw, whatever answers RxRead (R100; log 13). -/
theorem readReg_short {b₀ b₁ b₂ b₃ : Byte} (reg : Byte) (hu : s.Uncut)
    (he : s.env = .oracle (some b₀ :: some b₁ :: some b₂ :: some 0 :: some b₃ :: later)) :
    readReg reg s = .done (Config.freeByte s.draws) { s with
      env := .oracle later, bus := .idle, lastErr := b₂, draws := s.draws + 1,
      trace := s.trace ++ [.txBegin s.addr, .txWrite reg (b₁.toNat % 2), .txEnd b₂, .rxRequest s.addr 1 0,
        .rxRead (Config.freeByte s.draws)] } := by
  have hnone : min (0 : Byte).toNat 1 = 0 := rfl
  have hmissing : decide (0 < 1) = true := rfl
  rw [readReg, transmit_register_scripted s.addr reg hu he, Bus.andThen_done, rxRequest_scripted _ 1 (by exact hu) rfl, Bus.andThen_done,
    hnone, hmissing, rxRead_missing_scripted (by exact hu) rfl, Bus.andThen_done]
  simp [rxDone, State.log]

end Sys2Proof.Machine

namespace Sys2Proof

open Machine

/-- Settles O18: a WRREG is one register write on a bound handle. -/
theorem wrregWritesOneRegister : Obligations.WrregWritesOneRegister := by
  intro reg v8 s
  refine ⟨fun hb => misuses_of_misuseOf (by rw [misuseOf_onHandle rfl rfl, if_pos hb]), fun hb =>
    completesWith_onHandle (body := writeReg reg v8) rfl hb fun hrun => ?_⟩
  obtain ⟨t, evs, ht, hspan, ha, -⟩ := writeReg_runs reg v8 hrun
  exact ⟨t, evs, ht, hspan, ha⟩

/-- Settles O19: the guards of a read-dependent command, and past them one register read whose byte goes to RESULT. -/
theorem rdregReturnsTheByteRead : Obligations.RdregReturnsTheByteRead := by
  intro reg s
  refine ⟨readGuards_of_readDependent rfl s, fun hb hp hrun => ?_⟩
  obtain ⟨v, t, evs, ht, hspan, ha, hread⟩ := readReg_runs reg hrun
  exact ⟨_, evs, v, execRdreg_direct hb hp ht, hspan.finish_setResult _, hread, ha⟩

/-- Settles O20: the read that RDREG makes is short, so its byte is a draw. -/
theorem shortReadGivesADraw : Obligations.ShortReadGivesADraw := by
  intro reg b0 b1 b2 b3 s hb hp hu he
  exact ⟨_, execRdreg_direct hb hp (readReg_short reg hu he), rfl, rfl, rfl⟩

end Sys2Proof
end

section
/-! SUPPORT. O21, O23, O25, O27 and O28: SWRST and INITPX, the prescaler, the disable commands and ENEXTCLK. -/

namespace Sys2Proof.Machine

variable {s t : State}

/-! ## SWRST -/

/-- A command that sets SRST_DONE after its transmission (R116). -/
theorem BusSpan.finish_srstDone {evs : List BusEvent} (h : BusSpan s t evs) :
    BusRun { s with srstDone := true } { t with srstDone := true }.complete evs where
  trace := h.trace
  status := h.status
  rest := by
    conv_lhs => rw [h.rest]
    rfl

/-- SWRST past its guard is one transmission, with SRST_DONE set at its end (R116). -/
theorem swrstBody_sequence (h : s.RunsThrough) :
    ∃ t evs, swrstBody s = .done () { t with srstDone := true } ∧ BusSpan s t evs ∧
      evs.map BusEvent.action = sends 0x00 [0x06] := by
  obtain ⟨t, evs, ht, hspan, ha, -⟩ := transmit_runs swrstAddr [swrstByte] h
  exact ⟨t, evs, by rw [swrstBody, ht, Bus.andThen_done], hspan, ha⟩

/-! ## The prescaler (R124, R125) -/

/-- The rounded quotient of R124, from which the prescaler subtracts 1: half the divisor is added before the division. -/
def prescaleQuotient (hz : Nat) : Nat := (25000000 + 2048 * hz) / (4096 * hz)

/-- Of a numerator that is not negative, R11's rounding is a division of natural numbers. -/
theorem roundDiv_natCast (num den : Nat) : roundDiv num den = ((2 * num + den) / (2 * den) : Nat) := by
  rw [roundDiv, if_pos (Int.natCast_nonneg num)]
  norm_cast

theorem roundDiv_eq_prescaleQuotient (hz : Nat) : roundDiv 25000000 (4096 * hz) = prescaleQuotient hz := by
  have hhalf : 2 * 25000000 + 4096 * hz = 2 * (25000000 + 2048 * hz) := by omega
  rw [show (25000000 : Int) = (25000000 : Nat) from rfl, roundDiv_natCast, hhalf, Nat.mul_div_mul_left _ _ Nat.two_pos]
  rfl

/-- The quotient reaches `n + 1` exactly at the frequencies up to `25 MHz / ((2n + 1) · 2048)`. -/
theorem lt_prescaleQuotient_iff {hz : Nat} (hpos : 0 < hz) (n : Nat) :
    n < prescaleQuotient hz ↔ (2 * n + 1) * 2048 * hz ≤ 25000000 := by
  have hsplit : (n + 1) * (4096 * hz) = (2 * n + 1) * 2048 * hz + 2048 * hz := by ring
  rw [prescaleQuotient, ← Nat.succ_le_iff, Nat.le_div_iff_mul_le (by omega), hsplit, Nat.add_le_add_iff_right]

theorem prescaleQuotient_antitone {h k : Nat} (hpos : 0 < h) (hk : h ≤ k) : prescaleQuotient k ≤ prescaleQuotient h :=
  le_of_forall_lt fun n hn => by
    rw [lt_prescaleQuotient_iff (hpos.trans_le hk)] at hn
    exact (lt_prescaleQuotient_iff hpos n).mpr ((Nat.mul_le_mul_left _ hk).trans hn)

theorem prescaleQuotient_range {hz : Nat} (hlo : 24 ≤ hz) (hhi : hz ≤ 1526) :
    4 ≤ prescaleQuotient hz ∧ prescaleQuotient hz ≤ 254 := by
  have hpos : 0 < hz := by omega
  constructor
  · exact (lt_prescaleQuotient_iff hpos 3).mpr (by omega)
  · exact Nat.not_lt.mp fun hlt => by
      have := (lt_prescaleQuotient_iff hpos 254).mp hlt
      omega

/-- At the legal frequencies the clamp of R124 changes nothing. -/
theorem prescale_eq {hz : Nat} (hlo : 24 ≤ hz) (hhi : hz ≤ 1526) : prescale hz = prescaleQuotient hz - 1 := by
  have hrange := prescaleQuotient_range hlo hhi
  rw [prescale, roundDiv_eq_prescaleQuotient, clampInt]
  omega

/-! ## The disable commands and ENEXTCLK -/

/-- The disable sequence (R128). -/
theorem disableBody_sequence (bit : Byte) (h : s.RunsThrough) :
    ∃ t evs old, disableBody bit s = .done () t ∧ BusSpan s t evs ∧ bytesRead evs = [old] ∧
      evs.map BusEvent.action = reads s.addr 0x00 ++ sends s.addr [0x00, old &&& ~~~bit] :=
  readMode1_then h fun _ _ _ hspan => writeReg_extends hspan rfl

/-- ENEXTCLK's sequence (R138). -/
theorem enextclkBody_sequence (h : s.RunsThrough) :
    ∃ t evs old, enextclkBody s = .done () t ∧ BusSpan s t evs ∧ bytesRead evs = [old] ∧
      evs.map BusEvent.action = reads s.addr 0x00 ++ (sends s.addr [0x00, old ||| sleepMask s.cfg] ++
        (sends s.addr [0x00, old ||| sleepMask s.cfg ||| extclkMask s.cfg] ++
          (sends s.addr [0x00, old ||| extclkMask s.cfg] ++ ([.wait 500] ++
            if old &&& sleepMask s.cfg = 0 then sends s.addr [0x00, old ||| extclkMask s.cfg ||| restartMask s.cfg] else [])))) :=
  readMode1_then h fun old _ _ hspan =>
    (writeReg_extends hspan (by rw [hspan.sameHandle.cfg])).andThen fun _ _ hspan =>
      (writeReg_extends hspan (by rw [hspan.sameHandle.cfg])).andThen fun _ _ hspan =>
        (writeReg_extends hspan (by rw [hspan.sameHandle.cfg])).andThen fun _ _ hspan =>
          waitThenRestart_extends hspan old fun cfg => old ||| extclkMask cfg ||| restartMask cfg

end Sys2Proof.Machine

namespace Sys2Proof

open Machine

/-- Settles O21: the guard of R221 is the command's only Misuse, and past it SWRST is one transmission. -/
theorem swrstBroadcastsOnceBeforeInit : Obligations.SwrstBroadcastsOnceBeforeInit := by
  intro s
  refine ⟨fun hguard => misuses_of_misuseOf (if_pos hguard), fun hdone hbound hrun => ?_⟩
  have hnone : misuseOf .swrst s = none := if_neg (by simp [hdone, hbound])
  obtain ⟨t, evs, ht, hspan, ha⟩ := swrstBody_sequence hrun
  exact ⟨_, evs, by rw [execSwrst_past_guard hnone, ht, Bus.finish_done], hspan.finish_srstDone, ha⟩

/-- Settles O25: the prescaler is the rounded quotient less 1, in range, and the quotient does not increase with the frequency. -/
theorem prescaleIntegerFormAndRange : Obligations.PrescaleIntegerFormAndRange := by
  refine ⟨fun hz hlo hhi => ?_, fun h k hlo hk hhi => ?_⟩
  · obtain ⟨hmin, hmax⟩ := prescaleQuotient_range hlo hhi
    have heq := prescale_eq hlo hhi
    exact ⟨heq, by omega, by omega⟩
  · have hmono : prescaleQuotient k ≤ prescaleQuotient h := prescaleQuotient_antitone (by omega) hk
    rw [prescale_eq (hlo.trans hk) hhi, prescale_eq hlo (hk.trans hhi)]
    omega

/-- Settles O27: each of the four commands is the disable sequence with its own bit. -/
theorem disableCommandsClearBit : Obligations.DisableCommandsClearBit := by
  intro s i bit hmem
  simp only [List.mem_cons, Prod.mk.injEq, List.not_mem_nil, or_false] at hmem
  rcases hmem with ⟨rfl, rfl⟩ | ⟨rfl, rfl⟩ | ⟨rfl, rfl⟩ | ⟨rfl, rfl⟩
  all_goals exact ⟨readGuards_of_readDependent rfl s, fun hb hp => readsMode1Then_onDirect rfl hb hp (disableBody_sequence _)⟩

/-- Settles O28: the guards of a read-dependent command, and past them ENEXTCLK's sequence. -/
theorem enextclkSequence : Obligations.EnextclkSequence := by
  intro s
  refine ⟨readGuards_of_readDependent rfl s, fun hb hp => ?_⟩
  simp only [List.append_assoc]
  exact readsMode1Then_onDirect rfl hb hp enextclkBody_sequence

/-- Settles O23: INITPX writes the handle's three fields, and the command ends. -/
theorem initpxBindsAsProxy : Obligations.InitpxBindsAsProxy := fun _ _ => rfl

end Sys2Proof
end

section
/-! SUPPORT. O31, O32, O33: phase begins and phase windows (R151 to R158). -/

namespace Sys2Proof.Machine

/-! ## The window of each range of amounts (R156) -/

theorem phaseWindow_zero (cfg : Config) (scheme : Scheme) (c : Fin 16) : phaseWindow cfg scheme c 0 = fullOff := if_pos rfl

theorem phaseWindow_full (cfg : Config) (scheme : Scheme) (c : Fin 16) : phaseWindow cfg scheme c 4096 = fullOn := rfl

section Ticks

variable (cfg : Config) (scheme : Scheme) (c : Fin 16) {amt : Nat} (hpos : 1 ≤ amt) (hlt : amt ≤ 4095)
include hpos hlt

theorem phaseWindow_ticks : phaseWindow cfg scheme c amt =
    ⟨BitVec.ofNat 13 (phaseBegin cfg scheme c), BitVec.ofNat 13 ((phaseBegin cfg scheme c + amt) % 4096)⟩ := by
  rw [phaseWindow, if_neg (by omega), if_neg (by omega)]

theorem phaseWindow_on_toNat : (phaseWindow cfg scheme c amt).on.toNat = phaseBegin cfg scheme c := by
  have hbegin := phaseBegin_lt cfg scheme c
  rw [phaseWindow_ticks cfg scheme c hpos hlt]
  exact Nat.mod_eq_of_lt (by omega)

theorem phaseWindow_off_toNat : (phaseWindow cfg scheme c amt).off.toNat = (phaseBegin cfg scheme c + amt) % 4096 := by
  rw [phaseWindow_ticks cfg scheme c hpos hlt]
  exact Nat.mod_eq_of_lt (by omega)

end Ticks

/-! ## The on-ticks of a window (R158) -/

/-- The on-ticks of a window that does not wrap, among the first `n` ticks of the cycle. -/
theorem countP_windowOnAt_unwrapped {w : Window} (h : w.on.toNat ≤ w.off.toNat) (n : Nat) :
    (List.range n).countP (windowOnAt w) = min n w.off.toNat - w.on.toNat := by
  induction n with
  | zero => simp
  | succ n ih =>
    rw [List.range_succ, List.countP_append, ih, List.countP_singleton]
    simp only [windowOnAt, if_pos h, decide_eq_true_eq]
    split_ifs <;> omega

/-- The on-ticks of a wrapped window: those before its end and those from its begin on. -/
theorem countP_windowOnAt_wrapped {w : Window} (h : w.off.toNat < w.on.toNat) (n : Nat) :
    (List.range n).countP (windowOnAt w) = min n w.off.toNat + (n - w.on.toNat) := by
  induction n with
  | zero => simp
  | succ n ih =>
    rw [List.range_succ, List.countP_append, ih, List.countP_singleton]
    simp only [windowOnAt, if_neg (Nat.not_le.mpr h), decide_eq_true_eq]
    split_ifs <;> omega

end Sys2Proof.Machine

namespace Sys2Proof

open Machine

/-- Settles O32: the window of each of the three ranges of amounts, and the arithmetic of its two ticks modulo the cycle. -/
theorem phaseWindowProperties : Obligations.PhaseWindowProperties := by
  intro cfg scheme c amt _
  refine ⟨?zero, ?full, fun hpos hlt => ?ticks⟩
  case zero =>
    rintro rfl
    rw [phaseWindow_zero]
    decide
  case full =>
    rintro rfl
    rw [phaseWindow_full]
    decide
  case ticks =>
    have hbegin := phaseBegin_lt cfg scheme c
    rw [phaseWindow_on_toNat cfg scheme c hpos hlt, phaseWindow_off_toNat cfg scheme c hpos hlt]
    refine ⟨rfl, rfl, ?_, ?_, ?_, ?_⟩
    all_goals omega

/-- Settles O33: a window that ends inside the cycle has its ticks in one piece, a wrapped one at both ends of the cycle. -/
theorem windowIsOnForAmountTicks : Obligations.WindowIsOnForAmountTicks := by
  intro cfg scheme c amt hpos hlt
  have hbegin := phaseBegin_lt cfg scheme c
  have hon := phaseWindow_on_toNat cfg scheme c hpos hlt
  have hoff := phaseWindow_off_toNat cfg scheme c hpos hlt
  obtain hunwrapped | hwrapped := le_or_gt (phaseWindow cfg scheme c amt).on.toNat (phaseWindow cfg scheme c amt).off.toNat
  · rw [countP_windowOnAt_unwrapped hunwrapped]
    omega
  · rw [countP_windowOnAt_wrapped hwrapped]
    omega

/-- Settles O31: each scheme's row of R151 is the definition's, and the range is `phaseBegin_lt`. -/
theorem phaseBeginPerScheme : Obligations.PhaseBeginPerScheme :=
  fun cfg c => ⟨rfl, rfl, rfl, fun scheme => phaseBegin_lt cfg scheme c⟩

end Sys2Proof
end

section
/-! SUPPORT. O34, O35, O36 and O38: the commands that send channel windows, one block or a run of channels (R166 to R180). -/

namespace Sys2Proof.Machine

open Claims

variable {s t : State} {i : Instr} {evs : List BusEvent}

/-- Unbound comes before every other guard of a command that addresses the handle (R219, R222). -/
theorem misuses_unbound (ha : addressesHandle i = true) (hb : s.bound = false) : Misuses i s .unbound :=
  misuses_of_misuseOf (by rw [misuseOf_addresses ha, handleMisuse, if_pos hb])

/-! ## One channel -/

theorem windowBytes_fullOn (swapped : Bool) :
    windowBytes swapped fullOn = if swapped then [0x10, 0x00, 0x00, 0x00] else [0x00, 0x10, 0x00, 0x00] := by
  cases swapped with
  | false => rfl
  | true => rfl

theorem windowBytes_fullOff (swapped : Bool) :
    windowBytes swapped fullOff = if swapped then [0x00, 0x00, 0x10, 0x00] else [0x00, 0x00, 0x00, 0x10] := by
  cases swapped with
  | false => rfl
  | true => rfl

theorem writeChannel_zero (ch : Fin 16) : writeChannel ch 0 = writeWindow (ledBase ch) fullOff := by
  funext s
  rw [writeChannel, channelWindow, phaseWindow_zero]

theorem writeChannel_full (ch : Fin 16) : writeChannel ch 4096 = writeWindow (ledBase ch) fullOn := by
  funext s
  rw [writeChannel, channelWindow, phaseWindow_full]

/-- A channel's write is one transmission of its window to its block (R173, R174). -/
theorem writeChannel_runs (ch : Fin 16) (amt : Nat) (h : s.RunsThrough) :
    ∃ t evs, writeChannel ch amt s = .done () t ∧ BusSpan s t evs ∧
      evs.map BusEvent.action = sends s.addr (ledBase ch :: channelBytes s (ch, amt)) ∧ bytesRead evs = [] :=
  memWrite_runs _ _ h

/-! ## A run of channels -/

theorem SameHandle.channelBytes_eq (h : SameHandle s t) : channelBytes t = channelBytes s := by
  funext p
  rw [channelBytes, channelBytes, h.cfg, h.pb]

theorem writeChannel_extends (h : BusSpan s t evs) (ch : Fin 16) (amt : Nat) :
    (writeChannel ch amt t).Extends s evs (sends s.addr (ledBase ch :: channelBytes s (ch, amt))) := by
  obtain ⟨u, evs', hu, hspan, ha, hread⟩ := writeChannel_runs ch amt h.runsOn
  exact ⟨u, evs', hu, h.trans hspan, by rw [ha, h.addr, h.sameHandle.channelBytes_eq], hread⟩

theorem writeChannels_extends (run : List (Fin 16 × Nat)) (h : BusSpan s t evs) :
    (writeChannels run t).Extends s evs (run.flatMap fun p => sends s.addr (ledBase p.1 :: channelBytes s p)) := by
  induction run generalizing t evs with
  | nil => exact .done h
  | cons p run ih => exact (writeChannel_extends h p.1 p.2).andThen fun _ _ hu => ih hu

/-- The per-channel fallback of a run that is not empty: one transmission per channel, in order (R180). -/
theorem writeChannels_runs {run : List (Fin 16 × Nat)} (hne : run ≠ []) (h : s.RunsThrough) :
    ∃ t evs, writeChannels run s = .done () t ∧ BusSpan s t evs ∧
      evs.map BusEvent.action = run.flatMap fun p => sends s.addr (ledBase p.1 :: channelBytes s p) := by
  obtain ⟨p, run, rfl⟩ := List.exists_cons_of_ne_nil hne
  obtain ⟨t, e₁, ht, hspan, ha, -⟩ := writeChannel_runs p.1 p.2 h
  obtain ⟨u, e₂, hu, hspan', ha', -⟩ := writeChannels_extends run hspan
  exact ⟨u, e₁ ++ e₂, by rw [writeChannels, ht, Bus.andThen_done, hu], hspan', by rw [List.map_append, ha, ha']; rfl⟩

/-- CHSPWM past its guard, for a run that is not empty: one burst when it fits the transport's buffer, else channel by channel (R179,
R180). -/
theorem chspwmBody_runs (first : Byte) {run : List (Fin 16 × Nat)} (hne : run ≠ []) (h : s.RunsThrough) :
    ∃ t evs, chspwmBody first run s = .done () t ∧ BusSpan s t evs ∧
      evs.map BusEvent.action =
        if 1 + 4 * run.length ≤ s.cfg.txBufferBytes then sends s.addr (ledBase (channelOf first) :: run.flatMap (channelBytes s))
        else run.flatMap fun p => sends s.addr (ledBase p.1 :: channelBytes s p) := by
  rw [chspwmBody, if_neg (mt List.length_eq_zero_iff.mp hne)]
  split_ifs with hfits
  · obtain ⟨t, evs, ht, hspan, ha, -⟩ := memWrite_runs (ledBase (channelOf first)) (burstBytes s run) h
    exact ⟨t, evs, ht, hspan, ha⟩
  · exact writeChannels_runs hne h

theorem channelRun_nil (first : Byte) : channelRun first [] = [] := List.zip_nil_right

end Sys2Proof.Machine

namespace Sys2Proof

open Machine

/-- Settles O34: CHON and CHOFF write the two flag windows to the channel's block. -/
theorem chonChoffSendTheFlagWindows : Obligations.ChonChoffSendTheFlagWindows := by
  intro ch s reg
  rw [← windowBytes_fullOn, ← windowBytes_fullOff]
  exact ⟨fun hb => ⟨misuses_unbound rfl hb, misuses_unbound rfl hb⟩, fun hb =>
    ⟨completesWith_onHandle rfl hb (writeWindow_runs (ledBase (channelOf ch)) fullOn),
      completesWith_onHandle rfl hb (writeWindow_runs (ledBase (channelOf ch)) fullOff)⟩⟩

/-- Settles O35: CHPWM is one channel's write, and its only guard is the binding. -/
theorem chpwmSendsTheWindow : Obligations.ChpwmSendsTheWindow := by
  intro ch amt s
  refine ⟨misuses_unbound rfl, fun hb => completesWith_onHandle (body := writeChannel (channelOf ch) (amountOf amt)) rfl hb
    fun hrun => ?_⟩
  obtain ⟨t, evs, ht, hspan, ha, -⟩ := writeChannel_runs (channelOf ch) (amountOf amt) hrun
  exact ⟨t, evs, ht, hspan, ha⟩

/-- Settles O36: at the two ends of the amounts a channel's write is the write of a flag window. -/
theorem chpwmAtTheEndsIsChoffAndChon : Obligations.ChpwmAtTheEndsIsChoffAndChon := fun ch s =>
  ⟨congrArg (onHandle false s) (writeChannel_zero (channelOf ch)), congrArg (onHandle false s) (writeChannel_full (channelOf ch))⟩

/-- Settles O38: a run is empty exactly with its list of amounts; an empty one issues nothing, any other is `chspwmBody_runs`. -/
theorem chspwmSendsBurstOrChannels : Obligations.ChspwmSendsBurstOrChannels := by
  intro first amts s run bytes
  refine ⟨misuses_unbound rfl, ?empty, fun hb hne => ?sent⟩
  case empty =>
    rintro hb rfl
    exact (onHandle_bound false (chspwmBody first (channelRun first [])) hb).trans (by rw [channelRun_nil]; rfl)
  case sent => exact completesWith_onHandle rfl hb (chspwmBody_runs first (channelRun_ne_nil first hne))

end Sys2Proof
end

section
/-! SUPPORT. O37: which channel and amount stand at each place of CHSPWM's run (R178). -/

namespace Sys2Proof.Machine

theorem length_channelRun (first : Byte) (amts : List Half) :
    (channelRun first amts).length = min amts.length (16 - min first.toNat 15) := by
  rw [channelRun, List.length_zip, List.length_drop, List.length_finRange, List.length_map, Nat.min_comm]
  rfl

theorem channelRun_getElem? {first : Byte} {amts : List Half} {k : Nat} {p : Fin 16 × Nat} (h : (channelRun first amts)[k]? = some p) :
    p.1.val = (channelOf first).val + k ∧ ∃ x, amts[k]? = some x ∧ p.2 = amountOf x := by
  obtain ⟨hch, hamt⟩ := List.getElem?_zip_eq_some.mp h
  rw [List.getElem?_drop] at hch
  obtain ⟨hlt, hch⟩ := List.getElem?_eq_some_iff.mp hch
  obtain ⟨x, hx, hamount⟩ := Option.map_eq_some_iff.mp (List.getElem?_map.symm.trans hamt)
  refine ⟨?_, x, hx, hamount.symm⟩
  rw [← hch, List.getElem_finRange]
  rfl

end Sys2Proof.Machine

namespace Sys2Proof

open Machine

/-- Settles O37: the run pairs the channels from the clamped first one on with the clamped amounts, as far as both lists go. -/
theorem channelRunClampsAtChannel15 : Obligations.ChannelRunClampsAtChannel15 := fun first amts =>
  ⟨length_channelRun first amts, fun _ _ => channelRun_getElem?⟩

end Sys2Proof
end

section
/-! SUPPORT. O40 and O41: the amount of a window, and GETCHPWM's four reads (R185 to R188). -/

namespace Sys2Proof.Machine

variable {s t : State} {evs : List BusEvent}

/-! ## The decoded amount -/

theorem toNat_tickOf (v : Boundary) : (tickOf v).toNat = v.toNat % 4096 := by simp [tickOf]

/-- Without a flag the amount is the length of the window modulo the cycle (R185). -/
theorem decodeAmount_noFlag {w : Window} (hoff : fullFlag w.off = false) (hon : fullFlag w.on = false) :
    decodeAmount w = (w.off.toNat % 4096 + 4096 - w.on.toNat % 4096) % 4096 := by
  have hlt : w.on.toNat % 4096 < 4096 := Nat.mod_lt _ (by decide)
  rw [decodeAmount, hoff, hon, if_neg Bool.false_ne_true, if_neg Bool.false_ne_true, BitVec.toNat_sub, toNat_tickOf,
    toNat_tickOf]
  omega

theorem decodeAmount_le (w : Window) : decodeAmount w ≤ 4096 := by
  unfold decodeAmount
  split_ifs
  · exact Nat.zero_le _
  · exact Nat.le_refl _
  · exact (tickOf w.off - tickOf w.on).isLt.le

/-! ## The four reads -/

/-- One more read after register accesses from `s` (R103). -/
theorem readReg_after (h : BusSpan s t evs) (reg : Byte) :
    ∃ v u evs', readReg reg t = .done v u ∧ BusSpan s u evs' ∧
      evs'.map BusEvent.action = evs.map BusEvent.action ++ reads s.addr reg ∧ bytesRead evs' = bytesRead evs ++ [v] := by
  obtain ⟨v, u, e, hu, hspan, ha, hread⟩ := readReg_runs reg h.runsOn
  exact ⟨v, u, evs ++ e, hu, h.trans hspan, by rw [List.map_append, ha, h.addr], by rw [bytesRead_append, hread]⟩

/-- GETCHPWM past its guards: four reads in ascending order, and the amount of their window in RESULT (R186). -/
theorem getchpwmBody_sequence (base : Byte) (h : s.RunsThrough) :
    ∃ t evs r0 r1 r2 r3,
      getchpwmBody base s = .done () (t.setResult (BitVec.ofNat 32 (decodeAmount
        ⟨pairValue s.cfg.swappedRegs r0 r1, pairValue s.cfg.swappedRegs r2 r3⟩))) ∧
      BusSpan s t evs ∧ bytesRead evs = [r0, r1, r2, r3] ∧
      evs.map BusEvent.action =
        reads s.addr base ++ reads s.addr (base + 1) ++ reads s.addr (base + 2) ++ reads s.addr (base + 3) := by
  obtain ⟨r0, t₀, e₀, h₀, hspan₀, ha₀, hread₀⟩ := readReg_runs base h
  obtain ⟨r1, t₁, e₁, h₁, hspan₁, ha₁, hread₁⟩ := readReg_after hspan₀ (base + 1)
  obtain ⟨r2, t₂, e₂, h₂, hspan₂, ha₂, hread₂⟩ := readReg_after hspan₁ (base + 2)
  obtain ⟨r3, t₃, e₃, h₃, hspan₃, ha₃, hread₃⟩ := readReg_after hspan₂ (base + 3)
  refine ⟨t₃, e₃, r0, r1, r2, r3, ?_, hspan₃, by rw [hread₃, hread₂, hread₁, hread₀]; rfl, by rw [ha₃, ha₂, ha₁, ha₀]⟩
  rw [getchpwmBody, h₀, Bus.andThen_done, h₁, Bus.andThen_done, h₂, Bus.andThen_done, h₃, Bus.andThen_done, hspan₃.sameHandle.cfg]

end Sys2Proof.Machine

namespace Sys2Proof

open Machine

/-- Settles O41: the flags are tested in the order of R185. -/
theorem decodeAmountByFlags : Obligations.DecodeAmountByFlags := fun _ =>
  ⟨fun hoff => if_pos hoff, fun hoff hon => (if_neg (Bool.eq_false_iff.mp hoff)).trans (if_pos hon), decodeAmount_noFlag⟩

/-- Settles O40: the guards of a read-dependent command, and past them the four reads, whose amount fits RESULT. -/
theorem getchpwmReadsFourRegisters : Obligations.GetchpwmReadsFourRegisters := by
  intro ch s base
  refine ⟨readGuards_of_readDependent rfl s, fun hb hp hrun => ?_⟩
  obtain ⟨t, evs, r0, r1, r2, r3, ht, hspan, hread, ha⟩ := getchpwmBody_sequence base hrun
  refine ⟨_, evs, r0, r1, r2, r3, (onDirect_direct true (getchpwmBody base) hb hp).trans (congrArg Bus.finish ht),
    hspan.finish_setResult _, hread, ?_, ha⟩
  exact (Nat.mod_le _ _).trans (decodeAmount_le _)

end Sys2Proof
end

section
/-! SUPPORT. O50 to O54: the rounded and clamped value of the evaluator's curve (44_servo_evaluator.md). -/

namespace Sys2Proof.Machine

variable {num num' n z p x y : Int} {den k : Nat}

/-! ## Rounding half away from zero (R11) -/

/-- The integer quotient of R11 is the floor of the exact quotient plus a half. -/
theorem floor_div_add_half (num : Int) (hden : 0 < den) :
    ⌊(num : ℚ) / den + 1 / 2⌋ = (2 * num + den) / (2 * den) := by
  have hquot : (num : ℚ) / den + 1 / 2 = ((2 * num + den : Int) : ℚ) / ((2 * den : Nat) : ℚ) := by
    have : (den : ℚ) ≠ 0 := by exact_mod_cast hden.ne'
    push_cast
    field_simp
  rw [hquot, Rat.floor_intCast_div_natCast]
  push_cast
  rfl

theorem roundDiv_eq_floor (num : Int) (hden : 0 < den) :
    roundDiv num den = if 0 ≤ (num : ℚ) / den then ⌊(num : ℚ) / den + 1 / 2⌋ else -⌊-((num : ℚ) / den) + 1 / 2⌋ := by
  have hsign : 0 ≤ (num : ℚ) / den ↔ 0 ≤ num := by
    rw [le_div_iff₀ (by exact_mod_cast hden), zero_mul, Int.cast_nonneg_iff]
  have hneg : -((num : ℚ) / den) = ((-num : Int) : ℚ) / den := by
    push_cast
    ring
  simp only [roundDiv, hsign, hneg, floor_div_add_half _ hden]

theorem roundDiv_mono (hden : 0 < den) (h : num ≤ num') : roundDiv num den ≤ roundDiv num' den := by
  have hquot : ∀ {a b : Int}, a ≤ b → (2 * a + den) / (2 * den) ≤ (2 * b + den) / (2 * den) := fun hab =>
    Int.ediv_le_ediv (by omega) (by omega)
  have hnonneg : ∀ {a : Int}, 0 ≤ a → 0 ≤ (2 * a + den) / (2 * den) := fun ha =>
    Int.ediv_nonneg (by omega) (by omega)
  unfold roundDiv
  split_ifs with h₁ h₂ h₂
  · exact hquot h
  · exact absurd (h₁.trans h) h₂
  · exact (neg_nonpos.mpr (hnonneg (by omega))).trans (hnonneg h₂)
  · exact neg_le_neg (hquot (neg_le_neg h))

/-- Rounding depends on the quotient only: a common factor cancels. -/
theorem roundDiv_mul_left (hk : 0 < k) (num : Int) (den : Nat) : roundDiv (k * num) (k * den) = roundDiv num den := by
  have hk' : (0 : Int) < k := by exact_mod_cast hk
  have hquot : ∀ a : Int, (2 * (k * a) + (k * den : Nat)) / (2 * (k * den : Nat)) = (2 * a + den) / (2 * den) := fun a => by
    rw [← Int.mul_ediv_mul_of_pos (2 * a + den) (2 * den) hk']
    push_cast
    congr 1 <;> ring
  simp only [roundDiv, mul_nonneg_iff_of_pos_left hk', ← mul_neg, hquot]

/-! ## The output (R203) -/

theorem outAmount_range (num : Int) (den : Nat) : ∃ out : Nat, out ≤ 4096 ∧ outAmount num den = out := by
  have hrange : 0 ≤ outAmount num den ∧ outAmount num den ≤ 4096 := by
    unfold outAmount clampInt
    omega
  obtain ⟨out, hout⟩ := Int.eq_ofNat_of_zero_le hrange.1
  exact ⟨out, by omega, hout⟩

theorem outAmount_mono (hden : 0 < den) (h : num ≤ num') : outAmount num den ≤ outAmount num' den :=
  min_le_min_left _ (max_le_max_left _ (roundDiv_mono hden h))

theorem outAmount_mul_left (hk : 0 < k) (num : Int) (den : Nat) : outAmount (k * num) (k * den) = outAmount num den := by
  rw [outAmount, roundDiv_mul_left hk, outAmount]

/-- An amount over 1 is the output itself. -/
theorem outAmount_one {m : Nat} (hm : m ≤ 4096) : outAmount m 1 = m := by
  rw [outAmount, roundDiv_natCast, clampInt]
  omega

/-- A curve that passes through an amount gives it unchanged. -/
theorem outAmount_exact {m : Nat} (hk : 0 < k) (hm : m ≤ 4096) : outAmount (k * m) k = m := by
  simpa only [Nat.mul_one, outAmount_one hm] using outAmount_mul_left hk m 1

/-! ## The two curves (R200, R201) -/

theorem linNum_mono (hnp : n ≤ p) (hxy : x ≤ y) : linNum n p x ≤ linNum n p y := by
  have := mul_le_mul_of_nonneg_left (add_le_add_left hxy 90) (sub_nonneg.mpr hnp)
  unfold linNum
  omega

theorem linNum_neg_ninety (n p : Int) : linNum n p (-90) = (180 : Nat) * n := by
  simp [linNum]

theorem linNum_zero (n p : Int) : linNum n p 0 = (90 : Nat) * (n + p) := by
  unfold linNum
  push_cast
  ring

theorem linNum_ninety (n p : Int) : linNum n p 90 = (180 : Nat) * p := by
  unfold linNum
  push_cast
  ring

/-- With the middle amount halfway between the ends the cubic terms vanish on both pieces (R210). -/
theorem cubNum_straight (h : 2 * z = n + p) (x : Int) : cubNum n z p x = (16200 : Nat) * linNum n p x := by
  obtain rfl : p = 2 * z - n := by omega
  unfold cubNum linNum
  dsimp only
  split_ifs <;> push_cast <;> ring

theorem cubNum_neg_ninety (n z p : Int) : cubNum n z p (-90) = (2916000 : Nat) * n := by
  simp [cubNum]

theorem cubNum_zero (n z p : Int) : cubNum n z p 0 = (2916000 : Nat) * z := by
  simp only [cubNum, zero_add, le_refl, if_true]
  push_cast
  ring

theorem cubNum_ninety (n z p : Int) : cubNum n z p 90 = (2916000 : Nat) * p := by
  simp only [cubNum, show ¬ (90 + 90 : Int) ≤ 90 by decide, if_false]
  push_cast
  ring

/-! ## The evaluator (R204) -/

theorem evaluate_configured {mode : EvMode} (h : mode ≠ .unconfigured) (n z p x : Int) :
    evaluate mode n z p x =
      some (if mode = .linear then outAmount (linNum n p x) 180 else outAmount (cubNum n z p x) 2916000) := by
  cases mode with
  | unconfigured => exact absurd rfl h
  | linear => rfl
  | cubic => rfl

/-- What a configured evaluator gives is an amount (R207). -/
theorem evaluate_range {mode : EvMode} (h : mode ≠ .unconfigured) (n z p x : Int) :
    ∃ out : Nat, out ≤ 4096 ∧ evaluate mode n z p x = some (out : Int) := by
  rw [evaluate_configured h]
  split_ifs
  · obtain ⟨out, hle, hout⟩ := outAmount_range (linNum n p x) 180
    exact ⟨out, hle, congrArg some hout⟩
  · obtain ⟨out, hle, hout⟩ := outAmount_range (cubNum n z p x) 2916000
    exact ⟨out, hle, congrArg some hout⟩

theorem evaluate_cubic_straight (h : 2 * z = n + p) (x : Int) : evaluate .cubic n z p x = evaluate .linear n 0 p x := by
  have hout : outAmount (cubNum n z p x) 2916000 = outAmount (linNum n p x) 180 := by
    rw [cubNum_straight h]
    exact outAmount_mul_left (by decide) _ 180
  exact congrArg some hout

theorem evaluate_linear_mono (hnp : n ≤ p) (hxy : x ≤ y) {a b : Int} (ha : evaluate .linear n z p x = some a)
    (hb : evaluate .linear n z p y = some b) : a ≤ b := by
  cases ha
  cases hb
  exact outAmount_mono (by decide) (linNum_mono hnp hxy)

/-- A configured ANGPWM writes the evaluator's amount to RESULT. -/
theorem execAngpwm_of_evaluate {s : State} {x : Half} {out : Nat}
    (h : evaluate s.evMode s.evN90.toNat s.evZero.toNat s.evP90.toNat (angleOf x) = some (out : Int)) :
    execAngpwm x s = .next (s.setResult (BitVec.ofNat 32 out)).complete := by
  rw [execAngpwm, h, ← BitVec.ofInt_natCast]

end Sys2Proof.Machine

namespace Sys2Proof

open Machine

/-- Settles O50: the evaluator's amount is not negative, so RESULT holds it as it is. -/
theorem angpwmEvaluatesTheCurve : Obligations.AngpwmEvaluatesTheCurve := by
  intro x s angle n z p
  refine ⟨fun h => misuses_of_misuseOf (if_pos h), fun h => ?_⟩
  obtain ⟨out, hle, hout⟩ := evaluate_range h n z p angle
  exact ⟨out, hle, Option.some.inj (hout.symm.trans (evaluate_configured h n z p angle)), execAngpwm_of_evaluate hout⟩

/-- Settles O51: the two ways to write the clamp agree on the rounded quotient. -/
theorem outputRoundsHalfAwayFromZero : Obligations.OutputRoundsHalfAwayFromZero := by
  intro num den hden
  dsimp only
  rw [outAmount, roundDiv_eq_floor num hden, clampInt]
  omega

/-- Settles O52: at its calibration angles a curve passes through the amounts; the two-point curve passes through `(n + p)/2` at 0. -/
theorem evaluatorExactAtCalibrationAngles : Obligations.EvaluatorExactAtCalibrationAngles := by
  intro n z p hn hz hp
  have hhalf : outAmount (n + p) 2 = ((n + p + 1) / 2 : Nat) := by
    rw [← Nat.cast_add, outAmount, roundDiv_natCast, clampInt]
    omega
  simp only [evaluate, Option.some.injEq, linNum_neg_ninety, linNum_zero, linNum_ninety,
    cubNum_neg_ninety, cubNum_zero, cubNum_ninety]
  have hcub : 0 < 2916000 := by decide
  have hlin : 0 < 180 := by decide
  exact ⟨outAmount_exact hlin hn, outAmount_exact hlin hp, (outAmount_mul_left (by decide) _ 2).trans hhalf,
    outAmount_exact hcub hn, outAmount_exact hcub hz, outAmount_exact hcub hp⟩

/-- Settles O53: the linear curve rises with its ends, and a straight cubic curve is the linear one. -/
theorem evaluatorMonotoneWhenOrdered : Obligations.EvaluatorMonotoneWhenOrdered := by
  intro n z p x y hnp _ _ hxy _
  have hnp' : (n : Int) ≤ p := by exact_mod_cast hnp
  refine ⟨fun a b => evaluate_linear_mono hnp' hxy, fun hz a b => ?_⟩
  have hz' : 2 * (z : Int) = n + p := by exact_mod_cast hz
  rw [evaluate_cubic_straight hz', evaluate_cubic_straight hz']
  exact evaluate_linear_mono hnp' hxy

/-- Settles O54. -/
theorem straightCubicIsLinear : Obligations.StraightCubicIsLinear := fun _ _ _ x h _ _ => evaluate_cubic_straight h x

end Sys2Proof
end

section
/-! SUPPORT. O56 and O59: the Misuse of every command by the mode table, and what each step does to the handle mode (R233). -/

namespace Sys2Proof.Machine

variable {s t : State} {i : Instr}

/-- The handle mode is a view of BOUND and PROXY alone. -/
theorem handleMode_congr (hb : t.bound = s.bound) (hp : t.proxy = s.proxy) : t.handleMode = s.handleMode := by
  simp only [State.handleMode, hb, hp]

theorem CommandFrame.handleMode_eq (h : CommandFrame i s t) : t.handleMode = s.handleMode := by
  rw [h.rest]
  rfl

/-- INIT leaves the handle Direct whether its writes end or hold the PBE: it binds before its first primitive (R120, R233). -/
theorem exec_init_handleMode {off mode : Byte} (he : exec (.init off mode) s = .next t) : t.handleMode = .direct := by
  obtain ⟨t', ht', hend⟩ := execInit_ends off mode s
  cases ht'.symm.trans he
  rcases hend with ⟨u, hu, -, -, rfl⟩ | ⟨hf, -, -⟩
  · exact hu.handleMode_eq
  · exact hf.handleMode_eq

theorem exec_initpx_handleMode {a7 : BusAddr} (he : exec (.initpx a7) s = .next t) : t.handleMode = .proxy := by
  cases he
  rfl

/-- A command keeps the handle mode, or is an INIT and leaves Direct, or an INITPX and leaves Proxy (R233). -/
theorem exec_handleMode (he : exec i s = .next t) :
    t.handleMode = s.handleMode ∨
      ((∃ off mode, i = .init off mode) ∧ t.handleMode = .direct) ∨ ((∃ a7, i = .initpx a7) ∧ t.handleMode = .proxy) := by
  by_cases hinit : ∃ off mode, i = .init off mode
  · obtain ⟨off, mode, rfl⟩ := hinit
    exact .inr (.inl ⟨⟨off, mode, rfl⟩, exec_init_handleMode he⟩)
  by_cases hpx : ∃ a7, i = .initpx a7
  · obtain ⟨a7, rfl⟩ := hpx
    exact .inr (.inr ⟨⟨a7, rfl⟩, exec_initpx_handleMode he⟩)
  obtain ⟨-, hbound, hproxy⟩ := (exec_writesListed he).handle (fun off mode h => hinit ⟨off, mode, h⟩) (fun a7 h => hpx ⟨a7, h⟩)
  exact .inl (handleMode_congr hbound hproxy)

/-- A step without reset keeps the handle mode, unless it runs an INIT or an INITPX (R233). -/
theorem step_handleMode (hr : s.resetIn ≠ .now) (ht : step s = .next t) :
    t.handleMode = s.handleMode ∨
      ∃ i len, decode s.wordsAhead = .command i len ∧
        (((∃ off mode, i = .init off mode) ∧ t.handleMode = .direct) ∨ ((∃ a7, i = .initpx a7) ∧ t.handleMode = .proxy)) := by
  rcases step_cases hr ht with rfl | ⟨-, -, rfl⟩ | ⟨-, why, len, -, rfl⟩ | ⟨-, i, len, hd, he⟩
  · exact .inl rfl
  · exact .inl rfl
  · exact .inl (handleMode_congr (by simp) (by simp))
  · exact (exec_handleMode (s := s.accept len) he).imp id fun h => ⟨i, len, hd, h⟩

end Sys2Proof.Machine

namespace Sys2Proof

open Machine

/-- Settles O56: the Misuse that the guards name is what the command does, and a command without one leaves MISUSE alone. -/
theorem misuseExactlyByTheModeTable : Obligations.MisuseExactlyByTheModeTable := fun _ _ =>
  ⟨fun _ h => misuses_of_misuseOf h, fun hnone _ he => exec_misuse_frame he hnone⟩

/-- Settles O59: a mode other than Unbound is kept or becomes Direct or Proxy. -/
theorem onlyResetUnbinds : Obligations.OnlyResetUnbinds := by
  intro s t hr ht
  have hmode := step_handleMode hr ht
  refine ⟨fun hs => ?_, hmode⟩
  rcases hmode with hkeep | ⟨-, -, -, ⟨-, hdirect⟩ | ⟨-, hproxy⟩⟩
  · rwa [hkeep]
  · simp [hdirect]
  · simp [hproxy]

end Sys2Proof
end

section
/-! SUPPORT. O13: a PBE that has no word ahead of it does not move (R247, R262). -/

namespace Sys2Proof.Machine

variable {s : State}

/-- With no word in hand or in the stream a step changes nothing, whether or not the PBE is held (R226, R262). -/
theorem step_of_noWords (hr : s.resetIn ≠ .now) (hwords : s.wordsAhead = []) : step s = .next s := by
  cases hb : s.blocked with
  | true => exact step_of_blocked hr hb
  | false => simp [step, intake, hr, hb, hwords]

/-- At the end of a run CP is past the stream's last word, so only words in hand could be ahead (R247). -/
theorem State.ended.wordsAhead (h : s.ended) : s.wordsAhead = s.taken := by
  obtain ⟨hcp, -, -⟩ := h
  simp [State.wordsAhead, hcp]

end Sys2Proof.Machine

namespace Sys2Proof

open Machine

/-- Settles O13: no word is ahead of a PBE whose run has ended with nothing in hand. -/
theorem idlePbeStaysIdle : Obligations.IdlePbeStaysIdle := fun _ hr hended htaken =>
  step_of_noWords hr (hended.wordsAhead.trans htaken)

end Sys2Proof
end
